-- ==== Sys2Proof/Word.lean ====
section
/-! DEFINITION. The words of the sequencer block: bytes, 32-bit operands, the 132-bit host descriptor, 24-bit wire addresses. -/

namespace Sys2Proof

/-- The unit of the serial bus, of host memory and of the configuration record (00_scope R7). -/
abbrev Byte := BitVec 8

/-- `page`, `offset`, `size`, host addresses, the poll counter (00_scope R4: 32 bits each). -/
abbrev Word := BitVec 32

/-- The host command descriptor, one word presented whole (30_encoding R103). -/
abbrev DescriptorWord := BitVec 132

/-- The part of the linear address that reaches the bus, bits 23:0 (00_scope R4 `WIRE_ADDR_W`). -/
abbrev WireAddr := BitVec 24

end Sys2Proof
end

