-- ==== Sys2Proof/Config.lean ====
section
/-! DEFINITION. What an implementation fixes (00_scope R4): the constants the spec gives, the four OPEN parameters, and the
free values of the environment. The OPEN parameters and the free values have no body, so no proof can learn one of them. -/

namespace Sys2Proof

/-- The OPEN parameters of 00_scope R4, an argument of the model. DESIGN CHOICE (notes/assumptions/2): they stand in State, where
no step writes them, so that a claim about every state is a claim about every value of the parameters. -/
structure Params where
  /-- `POLL_BUDGET`, a natural number below 2^`CNT_W` (R4, R234). -/
  pollBudget : Word
  /-- `DUMMY_BYTE`: driven in the dummy phase and while a status or identifier byte is read (R4, R202). -/
  dummyByte : Byte
  /-- `FILLER_BYTE`: sourced by the transmit channel in a bulk receive (R4, R45). -/
  fillerByte : Byte
  /-- `XFER_MAX`: the largest bulk length in bytes, at least 1 (R4, R150). -/
  xferMax : Nat
deriving DecidableEq, Repr

namespace Config

/-- `CFG_SIZE`, the size in bytes of the configuration record (R4, 30_encoding R120). -/
def cfgSize : Nat := 13

/-- `WE_SENTINEL`, the value of `write_en_cmd` that means "no write-enable phase" (R4, R28). -/
def weSentinel : Byte := 0xFF#8

/-- `WIRE_ADDR_W`, bits of the linear address that reach the bus (R4). -/
def wireAddrW : Nat := 24

/-- The number of host addresses, 2^`HOST_ADDR_W` (R4, R71). -/
def hostSpace : Nat := 2 ^ 32

/-- `POLL_BUDGET` of this implementation; the source gives no number (92 D9). -/
opaque pollBudget : Word

/-- `DUMMY_BYTE` of this implementation; the source gives no value (92 D7). -/
opaque dummyByte : Byte

/-- `FILLER_BYTE` of this implementation; the source gives no value (92 D8). -/
opaque fillerByte : Byte

/-- `XFER_MAX` of this implementation, less one; the source gives no limit but `XFER_MAX ≥ 1` (R4, 92 D15). -/
opaque xferMaxLessOne : Nat

/-- The parameters of this implementation. -/
def params : Params :=
  { pollBudget := pollBudget, dummyByte := dummyByte, fillerByte := fillerByte, xferMax := xferMaxLessOne + 1 }

/-- FREE VALUE: the byte the flash chip answers in the `n`-th exchange, where State names none (20_memory R77: the chip is an
oracle, no constraint on any byte; 93 U9). notes/assumptions/3. -/
opaque chipAnswer : Nat → Byte

end Config

end Sys2Proof
end

