-- ==== Sys2Proof/Syntax.lean ====
section
/-! DEFINITION. The instructions: one constructor per row of spec/opcode_table.json (sixteen host descriptors, six wire
frames), and the raw words they are read from. -/

namespace Sys2Proof

/-- The four operand fields every descriptor carries (30_encoding R103). The descriptor has one format: a field a command does
not read is carried all the same, since acceptance latches the descriptor whole (10_state R35, R36). -/
structure Operands where
  page : Word
  offset : Word
  size : Word
  buf : Word
deriving DecidableEq, Repr

/-- The six wire-frame formats (30_encoding R111). -/
inductive FrameFormat where
  | wren | rdid | erase | read | write | status
deriving DecidableEq, Repr

/-- A raw word of one of the table's two encodings: a host descriptor (R103), or the bytes a frame row names, in the order they
are driven on MOSI (R111). No bit of a frame tells its format, so the format stands beside the bytes (notes/assumptions/9). -/
inductive PortWord where
  | descriptor (d : DescriptorWord)
  | frame (f : FrameFormat) (bytes : List Byte)
deriving DecidableEq, Repr

/-- The instructions. A host command (30_encoding R101) carries its descriptor's operands. A frame (R111) carries the bits its
row names: `o` the opcode byte, `a` the address bits 23:0, `d` the dummy byte or bytes (notes/assumptions/8). -/
inductive Instr where
  | init (x : Operands)
  | uninit (x : Operands)
  | readId (x : Operands)
  | eraseBlock (x : Operands)
  | readPage (x : Operands)
  | readSpareData (x : Operands)
  | writePageAsync (x : Operands)
  | readStatus (x : Operands)
  | isBadBlockSupported (x : Operands)
  | waitReady (x : Operands)
  | reservedA (x : Operands)
  | reservedB (x : Operands)
  | reservedC (x : Operands)
  | reservedD (x : Operands)
  | reservedE (x : Operands)
  | reservedF (x : Operands)
  | fWren (o : Byte)
  | fRdid (o : Byte) (d : BitVec 48)
  | fErase (o : Byte) (a : WireAddr)
  | fRead (o : Byte) (a : WireAddr) (d : Byte)
  | fWrite (o : Byte) (a : WireAddr)
  | fStatus (o : Byte) (d : Byte)
deriving DecidableEq, Repr

end Sys2Proof
end

