-- ==== Sys2Proof/WellFormed.lean ====
section
/-! DEFINITION. Which instructions the encodings admit. Every field of a descriptor takes every value (30_encoding R103, R120:
nothing else is checked). The one check: the six dummy bytes of F_RDID are one byte sent six times (R111: `6 × DUMMY_BYTE`). -/

namespace Sys2Proof

/-- The six bytes of the dummy field of F_RDID, in the order they are sent. -/
def dummyBytes (d : BitVec 48) : List Byte :=
  [d.extractLsb' 40 8, d.extractLsb' 32 8, d.extractLsb' 24 8, d.extractLsb' 16 8, d.extractLsb' 8 8, d.extractLsb' 0 8]

/-- All six dummy bytes of F_RDID are the same byte (30_encoding R111). -/
def dummyUniform (d : BitVec 48) : Bool :=
  (dummyBytes d).all (· == d.extractLsb' 0 8)

/-- The encodings admit this instruction. -/
def Instr.wf : Instr → Bool
  | .init _ | .uninit _ | .readId _ | .eraseBlock _ | .readPage _ | .readSpareData _ | .writePageAsync _ | .readStatus _
  | .isBadBlockSupported _ | .waitReady _ | .reservedA _ | .reservedB _ | .reservedC _ | .reservedD _ | .reservedE _
  | .reservedF _ => true
  | .fWren _ | .fErase _ _ | .fRead _ _ _ | .fWrite _ _ | .fStatus _ _ => true
  | .fRdid _ d => dummyUniform d

end Sys2Proof
end

