-- ==== Sys2Proof/Decode.lean ====
section
/-! DEFINITION. Decoding, total on any word and rejecting by name, and the encoder written from the same tables
(30_encoding R101, R103, R111; spec/opcode_table.json). -/

namespace Sys2Proof

/-- Why a raw word names no instruction. A descriptor always names one (30_encoding R101: sixteen codes, sixteen rows). -/
inductive DecodeError where
  /-- A frame word with another number of bytes than its row's encoding has (R111, R114). -/
  | frameLength
  /-- An F_RDID word whose six dummy bytes differ (R111: `6 × DUMMY_BYTE`). -/
  | dummyBytesDiffer
deriving DecidableEq, Repr

/-- The operand fields of a descriptor (30_encoding R103: `page` 127:96, `offset` 95:64, `size` 63:32, `buf` 31:0). -/
def descriptorOperands (d : DescriptorWord) : Operands :=
  { page := d.extractLsb' 96 32, offset := d.extractLsb' 64 32, size := d.extractLsb' 32 32, buf := d.extractLsb' 0 32 }

/-- The command of a descriptor, from bits 131:128 alone (R103: `mask = 0xF << 128`), most significant bit first as in the
`encoding` column of the table. -/
def decodeDescriptor (d : DescriptorWord) : Instr :=
  let x := descriptorOperands d
  match d.getLsbD 131, d.getLsbD 130, d.getLsbD 129, d.getLsbD 128 with
  | false, false, false, false => .init x
  | false, false, false, true => .uninit x
  | false, false, true, false => .readId x
  | false, false, true, true => .eraseBlock x
  | false, true, false, false => .readPage x
  | false, true, false, true => .readSpareData x
  | false, true, true, false => .writePageAsync x
  | false, true, true, true => .readStatus x
  | true, false, false, false => .isBadBlockSupported x
  | true, false, false, true => .waitReady x
  | true, false, true, false => .reservedA x
  | true, false, true, true => .reservedB x
  | true, true, false, false => .reservedC x
  | true, true, false, true => .reservedD x
  | true, true, true, false => .reservedE x
  | true, true, true, true => .reservedF x

/-- Three address bytes, most significant first (20_memory R75 item 1). -/
def joinAddr (b2 b1 b0 : Byte) : WireAddr := b2 ++ b1 ++ b0

/-- Six dummy bytes in the order they are sent. -/
def joinDummies (d0 d1 d2 d3 d4 d5 : Byte) : BitVec 48 := d0 ++ d1 ++ d2 ++ d3 ++ d4 ++ d5

/-- The instruction of a frame word of a given format (30_encoding R111). -/
def decodeFrame (f : FrameFormat) (bytes : List Byte) : Except DecodeError Instr :=
  match f, bytes with
  | .wren, [o] => .ok (.fWren o)
  | .rdid, [o, d0, d1, d2, d3, d4, d5] =>
    let d := joinDummies d0 d1 d2 d3 d4 d5
    if dummyUniform d then .ok (.fRdid o d) else .error .dummyBytesDiffer
  | .erase, [o, b2, b1, b0] => .ok (.fErase o (joinAddr b2 b1 b0))
  | .read, [o, b2, b1, b0, d] => .ok (.fRead o (joinAddr b2 b1 b0) d)
  | .write, [o, b2, b1, b0] => .ok (.fWrite o (joinAddr b2 b1 b0))
  | .status, [o, d] => .ok (.fStatus o d)
  | _, _ => .error .frameLength

/-- The decoder. -/
def decode : PortWord → Except DecodeError Instr
  | .descriptor d => .ok (decodeDescriptor d)
  | .frame f bytes => decodeFrame f bytes

/-- A descriptor from its five fields (30_encoding R103). -/
def packDescriptor (op : BitVec 4) (x : Operands) : DescriptorWord :=
  op ++ x.page ++ x.offset ++ x.size ++ x.buf

/-- The bytes of an address, most significant first (20_memory R75 item 1, 41 R165). -/
def addrBytes (a : WireAddr) : List Byte :=
  [a.extractLsb' 16 8, a.extractLsb' 8 8, a.extractLsb' 0 8]

/-- The encoder: codes of 30_encoding R101, layout of R103, frames of R111. -/
def encode : Instr → PortWord
  | .init x => .descriptor (packDescriptor 0x0#4 x)
  | .uninit x => .descriptor (packDescriptor 0x1#4 x)
  | .readId x => .descriptor (packDescriptor 0x2#4 x)
  | .eraseBlock x => .descriptor (packDescriptor 0x3#4 x)
  | .readPage x => .descriptor (packDescriptor 0x4#4 x)
  | .readSpareData x => .descriptor (packDescriptor 0x5#4 x)
  | .writePageAsync x => .descriptor (packDescriptor 0x6#4 x)
  | .readStatus x => .descriptor (packDescriptor 0x7#4 x)
  | .isBadBlockSupported x => .descriptor (packDescriptor 0x8#4 x)
  | .waitReady x => .descriptor (packDescriptor 0x9#4 x)
  | .reservedA x => .descriptor (packDescriptor 0xA#4 x)
  | .reservedB x => .descriptor (packDescriptor 0xB#4 x)
  | .reservedC x => .descriptor (packDescriptor 0xC#4 x)
  | .reservedD x => .descriptor (packDescriptor 0xD#4 x)
  | .reservedE x => .descriptor (packDescriptor 0xE#4 x)
  | .reservedF x => .descriptor (packDescriptor 0xF#4 x)
  | .fWren o => .frame .wren [o]
  | .fRdid o d => .frame .rdid (o :: dummyBytes d)
  | .fErase o a => .frame .erase (o :: addrBytes a)
  | .fRead o a d => .frame .read (o :: addrBytes a ++ [d])
  | .fWrite o a => .frame .write (o :: addrBytes a)
  | .fStatus o d => .frame .status [o, d]

/-- `n` bytes of a number, the byte sent first in bits 7:0 (notes/assumptions/9). -/
def bytesOf : Nat → Nat → List Byte
  | 0, _ => []
  | n + 1, w => BitVec.ofNat 8 w :: bytesOf n (w / 256)

/-- The raw word of a table row of `nbits` bits. A descriptor is one word of 132 bits (136 in whole bytes). A frame row is
known by its length; 32 bits are the whole of an F_ERASE frame and only the head of an F_WRITE frame, so they are read as F_ERASE
(DESIGN CHOICE, notes/assumptions/9). -/
def tableWord (nbits w : Nat) : PortWord :=
  if (nbits = 132 ∨ nbits = 136) ∧ w < 2 ^ 132 then .descriptor (BitVec.ofNat 132 w)
  else if nbits = 56 then .frame .rdid (bytesOf 7 w)
  else if nbits = 32 then .frame .erase (bytesOf 4 w)
  else if nbits = 40 then .frame .read (bytesOf 5 w)
  else if nbits = 16 then .frame .status (bytesOf 2 w)
  else .frame .wren (bytesOf ((nbits + 7) / 8) w)

/-- The instruction the decoder reads from a table row's bits. -/
def decodeTableWord (nbits w : Nat) : Option Instr :=
  match decode (tableWord nbits w) with
  | .ok i => some i
  | .error _ => none

end Sys2Proof
end

