-- ==== Sys2Proof/Machine/State.lean ====
section
/-! DEFINITION. The state of the sequencer block (10_state R20 to R61) as plain data, its value after reset (R60), and the
reasons a step can stop. -/

namespace Sys2Proof.Machine

/-- The control state's first half (10_state R21). -/
inductive Phase where
  | idle | run
deriving DecidableEq, Repr

/-- The source's FlashStatus (10_state R50). -/
inductive FlashStatus where
  | ready | busy | timeout | invalidCommand
deriving DecidableEq, Repr

/-- The six identifier bytes by name (10_state R49: maker, device, third .. sixth; `id[0]` .. `id[5]`). -/
inductive IdByte where
  | maker | device | third | fourth | fifth | sixth
deriving DecidableEq, Repr

/-- Where a received byte goes: nowhere (42 R201), `status_latch`, or `id[i]` (R202). -/
inductive Keep where
  | discard | statusLatch | id (i : IdByte)
deriving DecidableEq, Repr

/-- The response a command ends with, the "then" column of 30_encoding R113. -/
inductive Reply where
  /-- `respond()`. -/
  | void
  /-- `respond(rsp_flag = b)`. -/
  | flag (b : Bool)
  /-- `respond(rsp_status = st)`. -/
  | status (st : FlashStatus)
  /-- `respond(rsp_status = result of POLL)`. -/
  | polled
  /-- `respond(rsp_status = decode(status_latch))`. -/
  | decoded
deriving DecidableEq, Repr

/-- The entries of `uq`: the seven micro-operations of 30_encoding R112, then what is left of one in progress, then the
command's response. A micro-operation in progress (R21) stands at the head of `uq` as a residual entry, and the response is
the last entry, so that `phase = IDLE` exactly when `uq` is empty (notes/assumptions/10). -/
inductive MicroOp where
  /-- `SEL` (41 R161). -/
  | sel
  /-- `DESEL` (41 R162). -/
  | desel
  /-- `TX8(b)` (42 R201). -/
  | tx8 (b : Byte)
  /-- `RX8(dst)` (42 R202); `b` is the byte driven out, `DUMMY_BYTE` in every command. -/
  | rx8 (b : Byte) (dst : Keep)
  /-- `BULK_TX(buf, n)` (42 R208). -/
  | bulkTx (buf n : Word)
  /-- `BULK_RX(buf, n)` (42 R209). -/
  | bulkRx (buf n : Word)
  /-- `POLL` (43 R230). -/
  | poll
  /-- Residual: step 2 of `Xchg(b)` is next (42 R200). -/
  | xchgDrive (b : Byte) (dst : Keep)
  /-- Residual: step 3 of `Xchg` is next (42 R200). -/
  | xchgTake (dst : Keep)
  /-- Residual: `hold until ch_rx.tc = 1`, then `Disarm()` (42 R208 to R210). -/
  | bulkWait
  /-- Residual: the zero test of `Poll()` is next (43 R230). -/
  | pollTest
  /-- Residual: the decode and the decrement of `Poll()` are next (43 R230). -/
  | pollDecide
  /-- `respond(...)` (10_state R57). -/
  | respond (r : Reply)
  /-- The end of a frame run by itself: back to IDLE with no response (notes/assumptions/8). -/
  | release
deriving DecidableEq, Repr

/-- The configuration group `cfg` (10_state R23 to R33). -/
structure ChipConfig where
  pageOffset : Byte
  readCmd : Byte
  readIdCmd : Byte
  writeCmd : Byte
  writeEnCmd : Byte
  eraseCmd : Byte
  statusCmd : Byte
  busyBit : Byte
  busyState : Byte
  freq : Word
deriving DecidableEq, Repr

/-- The latched command descriptor `cmd` (10_state R35). -/
structure Descriptor where
  op : BitVec 4
  page : Word
  offset : Word
  size : Word
  buf : Word
deriving DecidableEq, Repr

/-- One DMA channel (10_state R42). -/
@[ext]
structure Channel where
  en : Bool
  addr : Word
  inc : Bool
  cnt : Word
  tc : Bool
deriving DecidableEq, Repr

/-- The identity bytes (10_state R49). -/
structure ChipIdentity where
  maker : Byte
  device : Byte
  third : Byte
  fourth : Byte
  fifth : Byte
  sixth : Byte
deriving DecidableEq, Repr

/-- A bus event (10_state R58). -/
inductive BusEvent where
  | sel
  | desel
  | xfer (mosi miso : Byte)
deriving DecidableEq, Repr

/-- A move of Host that changes something (60_exceptions R271, R274). Its reads of `rsp_*`, `id[*]` and memory have no side
effect (20_memory R78) and are no moves here. -/
inductive HostMove where
  /-- Present a descriptor (10_state R36). A frame word is no move of the spec's Host: it lets one of the table's frame rows be
  run by itself (notes/assumptions/8). -/
  | present (w : PortWord)
  /-- Write one byte of its own memory while the block is idle (20_memory R71). -/
  | write (a : Word) (b : Byte)
deriving DecidableEq, Repr

/-- The agents that take steps (60_exceptions R271); `Chip` has none of its own, `Host` steps only while the block is idle. -/
inductive Agent where
  | seq | shifter | dmaTx | dmaRx
deriving DecidableEq, Repr

/-- Host memory (20_memory R71) as address and byte pairs: addresses strictly rising, no entry that says what an unlisted
address reads as. -/
abbrev Memory := List Host.Cell

/-- The state of the block: the tuple of 10_state R20, host memory (20_memory R71), and the model's own fields (INVENTORY.md,
## State). -/
@[ext]
structure State where
  /-- R21. -/
  phase : Phase
  /-- R21: the micro-operations still to perform, head first. -/
  uq : List MicroOp
  /-- R22. -/
  initDone : Bool
  /-- R23 to R33. -/
  cfg : ChipConfig
  /-- R35. -/
  cmd : Descriptor
  /-- R37: chip-select, true = asserted. -/
  cs : Bool
  /-- R38. -/
  spiEn : Bool
  /-- R39. -/
  txe : Bool
  /-- R39. -/
  txBuf : Byte
  /-- R40. -/
  rxne : Bool
  /-- R40. -/
  rxBuf : Byte
  /-- R41. -/
  dmaReqTx : Bool
  /-- R41. -/
  dmaReqRx : Bool
  /-- R42, R43. -/
  chTx : Channel
  /-- R42, R44. -/
  chRx : Channel
  /-- R45. -/
  sink : Byte
  /-- R45. -/
  filler : Byte
  /-- R47. -/
  pollCnt : Word
  /-- R48. -/
  statusLatch : Byte
  /-- R49. -/
  ident : ChipIdentity
  /-- R50. -/
  rspStatus : FlashStatus
  /-- R51. -/
  rspFlag : Bool
  /-- R52. -/
  rspValid : Bool
  /-- R58: oldest event first. -/
  trace : List BusEvent
  /-- 20_memory R71. -/
  mem : Memory
  /-- Model's own: the value `POLL` sets for the response (30_encoding R112). -/
  pollResult : FlashStatus
  /-- Model's own: the OPEN parameters (00_scope R4); no step writes them. -/
  params : Params
  /-- Model's own: Host's coming moves, first move first. -/
  inbox : List HostMove
  /-- Model's own: the bytes Chip is going to answer, next byte first (20_memory R77). -/
  chipScript : List Byte
  /-- Model's own: how many bytes Chip has answered. -/
  drawn : Nat
  /-- Model's own: which of several enabled agents goes next (60_exceptions R271), next choice first. -/
  schedule : List Nat
deriving DecidableEq, Repr

/-- Why the machine stops with a fault. -/
inductive Fault where
  /-- Raised by an atomic step in phase RUN when no agent is enabled: the holds of 60_exceptions R275 (a), 70 R312, which would
  never be lifted. Safe: the block takes no step there either. -/
  | holdForever
deriving DecidableEq, Repr

/-- Why a step has no meaning (`refuse`, 00_scope R8). Each is safe: nothing is claimed of the machine there. -/
inductive Refusal where
  /-- Raised by `exec` for an instruction the model gives no meaning yet. Safe. -/
  | notModelled (mnemonic : String)
  /-- Raised by command codes 1 to 9 and by frames while `init_done = 0` (40 R142, 93 U2). Safe. -/
  | notInitialised
  /-- Raised by every command presented while `phase = RUN` (10_state R36, 93 U8). Safe. -/
  | presentedWhileRunning
  /-- Raised by READ_PAGE, WRITE_PAGE_ASYNC and their frames when `size` is outside `1..XFER_MAX` or the buffer passes 2^32
  (40 R150, 93 U5, U6). Safe. -/
  | bulkOperands
  /-- Raised by INIT when the record passes 2^32 (40 R143, 93 U6). Safe. -/
  | recordRange
  /-- Raised by the status decode when `cfg.busy_bit > 7` or `cfg.busy_state > 1` (41 R177, 93 U3, U4). Safe. -/
  | busyFields
  /-- Raised by SEL while selected, and by DESEL while deselected or with an exchange in progress (41 R161, R162). Safe. -/
  | framing
  /-- Raised by `step` when the presented word is no instruction. Safe. -/
  | undecodable (e : DecodeError)
deriving DecidableEq, Repr

/-- The configuration group after reset: R60 gives no value; zero by DESIGN CHOICE (notes/assumptions/6). -/
def ChipConfig.reset : ChipConfig :=
  { pageOffset := 0, readCmd := 0, readIdCmd := 0, writeCmd := 0, writeEnCmd := 0, eraseCmd := 0, statusCmd := 0,
    busyBit := 0, busyState := 0, freq := 0 }

/-- A channel after reset: `en` and `tc` are 0 (R60); the rest has no value there and is zero by DESIGN CHOICE
(notes/assumptions/6). -/
def Channel.reset : Channel := { en := false, addr := 0, inc := false, cnt := 0, tc := false }

/-- The machine right after reset (10_state R60, 70 R300). Where R60 says "no value" the model names zero (DESIGN CHOICE,
notes/assumptions/6); nothing is listed in memory (notes/assumptions/7). -/
def State.reset : State :=
  { phase := .idle, uq := [], initDone := false, cfg := ChipConfig.reset,
    cmd := { op := 0, page := 0, offset := 0, size := 0, buf := 0 },
    cs := false, spiEn := false, txe := true, txBuf := 0, rxne := false, rxBuf := 0, dmaReqTx := false, dmaReqRx := false,
    chTx := Channel.reset, chRx := Channel.reset, sink := 0, filler := Config.params.fillerByte, pollCnt := 0,
    statusLatch := 0, ident := { maker := 0, device := 0, third := 0, fourth := 0, fifth := 0, sixth := 0 },
    rspStatus := .ready, rspFlag := false, rspValid := false, trace := [], mem := [], pollResult := .ready,
    params := Config.params, inbox := [], chipScript := [], drawn := 0, schedule := [] }

end Sys2Proof.Machine
end

