-- ==== Sys2Proof/Machine/Flags.lean ====
section
/-! DEFINITION. Every flag and result computation: the status decode (41 R177), the result codes (10_state R50), a channel's
count and transfer-complete flag (42 R204 to R207, R210), the poll counter (43 R234), and the conditions that enable the
serial peripheral and the channels (60_exceptions R271). -/

namespace Sys2Proof.Machine

/-- `decode(st)` (41 R177): `none` is `refuse`, outside the legal configurations (10_state R31, R32). -/
def decodeStatus (cfg : ChipConfig) (st : Byte) : Option FlashStatus :=
  if cfg.busyBit.toNat ≤ 7 ∧ cfg.busyState.toNat ≤ 1 then
    let bit := st.getLsbD cfg.busyBit.toNat
    let busy := if cfg.busyState = 1#8 then bit else !bit
    some (if busy then .busy else .ready)
  else none

/-- The codes of `rsp_status` (10_state R50). -/
def FlashStatus.code : FlashStatus → BitVec 2
  | .ready => 0
  | .busy => 1
  | .timeout => 2
  | .invalidCommand => 3

/-- A channel loaded and armed (42 R207); `addr` is loaded in both directions and used only when `inc = 1`. -/
def Channel.armed (inc : Bool) (buf n : Word) : Channel :=
  { en := true, addr := buf, inc := inc, cnt := n, tc := false }

/-- A channel after one byte: `addr` advances when `inc = 1`, `cnt` counts down, `tc` is set when the new count is zero
(42 R204, R205). -/
def Channel.advance (c : Channel) : Channel :=
  { c with addr := if c.inc then c.addr + 1 else c.addr, cnt := c.cnt - 1, tc := if c.cnt - 1 = 0 then true else c.tc }

/-- A channel disabled with its flag clear (42 R210). -/
def Channel.disarm (c : Channel) : Channel := { c with en := false, tc := false }

/-- `poll_cnt` after a `Busy`: "decrement by one when non-zero. It never wraps" (43 R234). -/
def pollDecrement (c : Word) : Word := if c = 0 then 0 else c - 1

/-- `Shifter` is enabled (42 R203). -/
def State.shifterReady (s : State) : Bool := s.spiEn && !s.txe && !s.rxne

/-- `DmaTx` is enabled (42 R204). -/
def State.dmaTxReady (s : State) : Bool := s.chTx.en && s.dmaReqTx && s.txe && decide (s.chTx.cnt ≠ 0)

/-- `DmaRx` is enabled (42 R205). -/
def State.dmaRxReady (s : State) : Bool := s.chRx.en && s.dmaReqRx && s.rxne && decide (s.chRx.cnt ≠ 0)

/-- No exchange is in progress and no channel is armed (41 R162, 42 R211 without `spi_en`). -/
def State.busQuiet (s : State) : Bool := s.txe && !s.rxne && !s.chTx.en && !s.chRx.en

end Sys2Proof.Machine
end

