-- ==== Sys2Proof/Machine/Operands.lean ====
section
/-! DEFINITION. Operand forms: address formation (41 R165 to R167), the configuration record (30_encoding R120, R121), and the
operand checks of the commands that name a host buffer (40 R143, R150). -/

namespace Sys2Proof.Machine

/-- `la = (p << s) + o`, exact over the natural numbers (20_memory R72, 41 R165). -/
def linearAddress (p : Word) (s : Byte) (o : Word) : Nat :=
  p.toNat * 2 ^ s.toNat + o.toNat

/-- `a = la mod 2^24`, "truncating any bits above bit 23" (41 R165). -/
def wireAddress (la : Nat) : WireAddr := BitVec.ofNat 24 la

/-- The address of every addressed frame: the page's first byte, offset 0 (41 R166). -/
def frameAddress (cfg : ChipConfig) (page : Word) : WireAddr :=
  wireAddress (linearAddress page cfg.pageOffset 0)

/-- A byte range lies inside host memory: `buf + n ≤ 2^32` (20_memory R71). -/
def rangeFits (buf : Word) (n : Nat) : Bool :=
  decide (buf.toNat + n ≤ Config.hostSpace)

/-- The operand check of bulk commands: `1 ≤ size ≤ XFER_MAX` and `buf + size ≤ 2^32` (40 R150). -/
def bulkOperandsOk (p : Params) (buf size : Word) : Bool :=
  decide (1 ≤ size.toNat) && decide (size.toNat ≤ p.xferMax) && rangeFits buf size.toNat

/-- The size check of INIT: `cmd.size < CFG_SIZE` fails (30_encoding R121). -/
def configSizeOk (size : Word) : Bool :=
  decide (Config.cfgSize ≤ size.toNat)

/-- The configuration group from the record's bytes (30_encoding R120, 40 R143); `freq` least significant byte first
(20_memory R75 item 5). -/
def parseRecord (rec : Nat → Byte) : ChipConfig :=
  { pageOffset := rec 0, readCmd := rec 1, readIdCmd := rec 2, writeCmd := rec 3, writeEnCmd := rec 4, eraseCmd := rec 5,
    statusCmd := rec 6, busyBit := rec 7, busyState := rec 8, freq := rec 12 ++ rec 11 ++ rec 10 ++ rec 9 }

/-- The latched descriptor of a command (10_state R35). -/
def descriptorOf (op : BitVec 4) (x : Operands) : Descriptor :=
  { op := op, page := x.page, offset := x.offset, size := x.size, buf := x.buf }

end Sys2Proof.Machine
end

