-- ==== Sys2Proof/Machine/Ops.lean ====
section
/-! DEFINITION. The named operations over memory and registers, the wire frames as micro-operations, acceptance of a command
(10_state R36) and the delivery of its result (R57), which stands in the place of taking and leaving an exception: the block has
none (60_exceptions R260, R266). -/

namespace Sys2Proof.Machine

/-! ### Host memory (20_memory R71, R78) -/

/-- What a byte nothing has written reads as: the spec gives no contents, zero by DESIGN CHOICE (notes/assumptions/7). -/
def Memory.blank : Byte := 0#8

/-- `MemRead(a, 1)`. -/
def Memory.read : Memory → Nat → Byte
  | [], _ => Memory.blank
  | (a, b) :: m, k => if k = a then b else Memory.read m k

/-- `MemWrite(k, 1, v)`, in canonical form. -/
def Memory.write : Memory → Nat → Byte → Memory
  | [], k, v => if v = Memory.blank then [] else [(k, v)]
  | (a, b) :: m, k, v =>
    if k < a then (if v = Memory.blank then (a, b) :: m else (k, v) :: (a, b) :: m)
    else if k = a then (if v = Memory.blank then m else (k, v) :: m)
    else (a, b) :: Memory.write m k v

/-- Addresses strictly rising from `lo`, inside the host's address space, no entry equal to what an unlisted address reads as. -/
def Memory.wfFrom : Nat → Memory → Bool
  | _, [] => true
  | lo, (a, b) :: m =>
    decide (lo ≤ a) && decide (a < Config.hostSpace) && decide (b ≠ Memory.blank) && Memory.wfFrom (a + 1) m

/-- The canonical form of memory. -/
def Memory.wf (m : Memory) : Bool := Memory.wfFrom 0 m

/-- The byte of host memory at a 32-bit address. -/
def State.load (s : State) (a : Word) : Byte := s.mem.read a.toNat

/-- Host memory with one byte replaced. -/
def State.store (s : State) (a : Word) (v : Byte) : State := { s with mem := s.mem.write a.toNat v }

/-! ### Chip's answers (20_memory R77) -/

/-- The byte Chip answers in the `k`-th exchange from now: the one State names, or a free value. -/
def State.chipAhead (s : State) (k : Nat) : Byte :=
  match s.chipScript[k]? with
  | some b => b
  | none => Config.chipAnswer (s.drawn + k)

/-! ### Registers -/

/-- `dst <- v` of `RX8`, nothing for `TX8` (42 R201, R202). -/
def State.keep (s : State) (dst : Keep) (v : Byte) : State :=
  match dst with
  | .discard => s
  | .statusLatch => { s with statusLatch := v }
  | .id .maker => { s with ident := { s.ident with maker := v } }
  | .id .device => { s with ident := { s.ident with device := v } }
  | .id .third => { s with ident := { s.ident with third := v } }
  | .id .fourth => { s with ident := { s.ident with fourth := v } }
  | .id .fifth => { s with ident := { s.ident with fifth := v } }
  | .id .sixth => { s with ident := { s.ident with sixth := v } }

/-- `uq` replaced. -/
def State.setUq (s : State) (q : List MicroOp) : State := { s with uq := q }

/-- A bus event appended to the trace (10_state R58). -/
def State.emit (s : State) (e : BusEvent) : State := { s with trace := s.trace ++ [e] }

/-! ### Frames (30_encoding R111, 41 R160) -/

/-- The address phase: three `TX8`, most significant byte first (41 R167). -/
def addressPhase (a : WireAddr) : List MicroOp := (addrBytes a).map .tx8

/-- `WriteEnable()`, the F_WREN frame: nothing for the sentinel (41 R170). -/
def wrenFrame (o : Byte) : List MicroOp :=
  if o = Config.weSentinel then [] else [.sel, .tx8 o, .desel]

/-- F_RDID (41 R171): opcode, six bytes read into `id[0..5]`. -/
def rdidFrame (o : Byte) (d0 d1 d2 d3 d4 d5 : Byte) : List MicroOp :=
  [.sel, .tx8 o, .rx8 d0 (.id .maker), .rx8 d1 (.id .device), .rx8 d2 (.id .third), .rx8 d3 (.id .fourth),
    .rx8 d4 (.id .fifth), .rx8 d5 (.id .sixth), .desel]

/-- F_ERASE (41 R172): opcode and address. -/
def eraseFrame (o : Byte) (a : WireAddr) : List MicroOp :=
  [.sel, .tx8 o] ++ addressPhase a ++ [.desel]

/-- F_READ (41 R173): opcode, address, dummy byte, bulk receive. -/
def readFrame (o : Byte) (a : WireAddr) (d : Byte) (buf n : Word) : List MicroOp :=
  [.sel, .tx8 o] ++ addressPhase a ++ [.tx8 d, .bulkRx buf n, .desel]

/-- F_WRITE (41 R174): opcode, address, bulk transmit. -/
def writeFrame (o : Byte) (a : WireAddr) (buf n : Word) : List MicroOp :=
  [.sel, .tx8 o] ++ addressPhase a ++ [.bulkTx buf n, .desel]

/-- F_STATUS (41 R175): opcode and one byte read into `status_latch`. -/
def statusFrame (o d : Byte) : List MicroOp :=
  [.sel, .tx8 o, .rx8 d .statusLatch, .desel]

/-! ### Acceptance and result delivery -/

/-- Acceptance, one atomic step: `cmd <- descriptor; rsp_valid <- 0; phase <- RUN` (10_state R36). -/
def State.accept (s : State) (d : Descriptor) : State :=
  { s with cmd := d, rspValid := false, phase := .run }

/-- What every response does: `rsp_valid <- 1`, `phase <- IDLE` (10_state R57); `uq` is then empty (R21). -/
def State.finish (s : State) : State :=
  { s with rspValid := true, phase := .idle, uq := [] }

/-- `respond(...)` (10_state R57): the named field is written, the others keep their values. -/
def respond (r : Reply) (s : State) : Host.Outcome State Fault Refusal :=
  match r with
  | .void => .next s.finish
  | .flag b => .next { s with rspFlag := b }.finish
  | .status st => .next { s with rspStatus := st }.finish
  | .polled => .next { s with rspStatus := s.pollResult }.finish
  | .decoded =>
    match decodeStatus s.cfg s.statusLatch with
    | some st => .next { s with rspStatus := st }.finish
    | none => .refused .busyFields

/-- What Host sees as "the call returned" (10_state R52). -/
def State.callReturned (s : State) : Bool := decide (s.phase = .idle) && s.rspValid

end Sys2Proof.Machine
end

