-- ==== Sys2Proof/Machine/Transport.lean ====
section
/-! DEFINITION. The atomic steps of the byte transport and of the DMA bulk engine (42_byte_transport_dma). -/

namespace Sys2Proof.Machine

/-- Step 1 of `Xchg(b)`: "disable any DMA request flags" (42 R200, 70 R314). -/
def State.clearDmaRequests (s : State) : State := { s with dmaReqTx := false, dmaReqRx := false }

/-- Step 2 of `Xchg(b)` once `txe = 1`: "write the byte" (42 R200). -/
def State.driveByte (s : State) (b : Byte) : State := { s with txBuf := b, txe := false }

/-- Step 3 of `Xchg(b)` once `rxne = 1`: the received byte is read, which clears `rxne` (42 R200, 10_state R40). -/
def State.takeByte (s : State) (dst : Keep) : State := { s.keep dst s.rxBuf with rxne := false }

/-- `Shifter`'s step: one exchange (42 R203). -/
def State.shift (s : State) : State :=
  let m := s.chipAhead 0
  { s with trace := s.trace ++ [.xfer s.txBuf m], rxBuf := m, rxne := true, txe := true,
           chipScript := s.chipScript.tail, drawn := s.drawn + 1 }

/-- The byte `DmaTx` moves next: the caller's buffer, or `filler` (42 R204). -/
def State.dmaTxSource (s : State) : Byte := if s.chTx.inc then s.load s.chTx.addr else s.filler

/-- `DmaTx`'s step: one byte from memory to the peripheral (42 R204). -/
def State.dmaTxMove (s : State) : State :=
  { s with txBuf := s.dmaTxSource, txe := false, chTx := s.chTx.advance }

/-- `DmaRx`'s step: one byte from the peripheral to memory, or to `sink` (42 R205). -/
def State.dmaRxMove (s : State) : State :=
  if s.chRx.inc then { s.store s.chRx.addr s.rxBuf with rxne := false, chRx := s.chRx.advance }
  else { s with sink := s.rxBuf, rxne := false, chRx := s.chRx.advance }

/-- `Arm(dir, buf, n)`; `tx` says that `dir = TX` (42 R207). -/
def State.armBulk (s : State) (tx : Bool) (buf n : Word) : State :=
  { s with chTx := Channel.armed tx buf n, chRx := Channel.armed (!tx) buf n, dmaReqTx := true, dmaReqRx := true }

/-- `Disarm()` (42 R210): `dma_req_*` stay 1. -/
def State.disarm (s : State) : State := { s with chTx := s.chTx.disarm, chRx := s.chRx.disarm }

end Sys2Proof.Machine
end

