-- ==== Sys2Proof/Machine/Sequencer.lean ====
section
/-! DEFINITION. The sequencer's atomic steps (30_encoding R112, 43 R230), the scheduling of the agents (60_exceptions R271), and
the running of a command's micro-operations to completion. -/

namespace Sys2Proof.Machine

/-- The `hold until` condition of `Seq`'s next atomic step is true (60_exceptions R271, 70 R312). -/
def State.seqReady (s : State) : Bool :=
  decide (s.phase = .run) &&
  match s.uq with
  | [] => false
  | .xchgDrive _ _ :: _ => s.txe
  | .xchgTake _ :: _ => s.rxne
  | .bulkWait :: _ => s.chRx.tc
  | _ :: _ => true

/-- One atomic step of `Seq`, at the head of `uq`. -/
def seqStep (s : State) : Host.Outcome State Fault Refusal :=
  match s.uq with
  | [] => .fault .holdForever
  | .sel :: q =>
    if s.cs then .refused .framing else .next ({ s with cs := true, uq := q }.emit .sel)
  | .desel :: q =>
    if s.cs && s.busQuiet then .next ({ s with cs := false, uq := q }.emit .desel) else .refused .framing
  | .tx8 b :: q => .next (s.clearDmaRequests.setUq (.xchgDrive b .discard :: q))
  | .rx8 b dst :: q => .next (s.clearDmaRequests.setUq (.xchgDrive b dst :: q))
  | .xchgDrive b dst :: q => .next ((s.driveByte b).setUq (.xchgTake dst :: q))
  | .xchgTake dst :: q => .next ((s.takeByte dst).setUq q)
  | .bulkTx buf n :: q => .next ((s.armBulk true buf n).setUq (.bulkWait :: q))
  | .bulkRx buf n :: q => .next ((s.armBulk false buf n).setUq (.bulkWait :: q))
  | .bulkWait :: q => .next (s.disarm.setUq q)
  | .poll :: q => .next { s with pollCnt := s.params.pollBudget, uq := .pollTest :: q }
  | .pollTest :: q =>
    if s.pollCnt = 0 then .next { s with pollResult := .timeout, uq := q }
    else .next (s.setUq (statusFrame s.cfg.statusCmd s.params.dummyByte ++ .pollDecide :: q))
  | .pollDecide :: q =>
    match decodeStatus s.cfg s.statusLatch with
    | none => .refused .busyFields
    | some .ready => .next { s with pollResult := .ready, uq := q }
    | some _ => .next { s with pollCnt := pollDecrement s.pollCnt, uq := .pollTest :: q }
  | .respond r :: _ => respond r s
  | .release :: _ => .next { s with phase := .idle, uq := [] }

/-- An agent may step (60_exceptions R271). -/
def State.enabled (s : State) : Agent → Bool
  | .seq => s.seqReady
  | .shifter => s.shifterReady
  | .dmaTx => s.dmaTxReady
  | .dmaRx => s.dmaRxReady

/-- An agent's atomic step. -/
def agentStep (a : Agent) (s : State) : Host.Outcome State Fault Refusal :=
  match a with
  | .seq => seqStep s
  | .shifter => .next s.shift
  | .dmaTx => .next s.dmaTxMove
  | .dmaRx => .next s.dmaRxMove

/-- The agents that may step, in the order of 60_exceptions R271. -/
def State.enabledAgents (s : State) : List Agent :=
  [Agent.seq, .shifter, .dmaTx, .dmaRx].filter s.enabled

/-- Who goes next: "when several are enabled any one may go next" (60_exceptions R271). The choice is read from `schedule`
(notes/assumptions/4). -/
def pickAgent (as : List Agent) (s : State) : Option (Agent × State) :=
  match as with
  | [] => none
  | [a] => some (a, s)
  | a :: b :: rest =>
    match s.schedule with
    | [] => some (a, s)
    | k :: ks => some ((a :: b :: rest).getD (k % (rest.length + 2)) a, { s with schedule := ks })

/-- One atomic step of one enabled agent; with none enabled the block holds for ever (60_exceptions R275 (a), 70 R312). That some
enabled agent does go is weak fairness, built in by DESIGN CHOICE (notes/assumptions/20). -/
def atomicStep (s : State) : Host.Outcome State Fault Refusal :=
  match pickAgent s.enabledAgents s with
  | none => .fault .holdForever
  | some (a, t) => agentStep a t

/-! ### Running to completion -/

/-- The atomic steps one iteration of `Poll()` takes: the test, a status frame, the decision. -/
def pollIterationWork : Nat := 14

/-- A bound on the atomic steps the entries of `uq` still need, `budget` iterations for a `POLL` not yet begun and `c` for one in
progress. It only serves as the fuel of `drive`. -/
def uqWork (budget : Nat) : Nat → List MicroOp → Nat
  | _, [] => 0
  | _, .poll :: q => uqWork budget (2 ^ 32) q + budget * pollIterationWork + 2
  | c, .pollTest :: q => uqWork budget (2 ^ 32) q + c * pollIterationWork + 1
  | c, .pollDecide :: q => uqWork budget (2 ^ 32) q + (c - 1) * pollIterationWork + 2
  | c, .bulkTx _ n :: q => uqWork budget c q + 4 * n.toNat + 2
  | c, .bulkRx _ n :: q => uqWork budget c q + 4 * n.toNat + 2
  | c, .tx8 _ :: q => uqWork budget c q + 5
  | c, .rx8 _ _ :: q => uqWork budget c q + 5
  | c, .xchgDrive _ _ :: q => uqWork budget c q + 4
  | c, .xchgTake _ :: q => uqWork budget c q + 1
  | c, .sel :: q => uqWork budget c q + 1
  | c, .desel :: q => uqWork budget c q + 1
  | c, .bulkWait :: q => uqWork budget c q + 1
  | c, .respond _ :: q => uqWork budget c q + 1
  | c, .release :: q => uqWork budget c q + 1

/-- A bound on the atomic steps left, which every atomic step lowers (Laws/Sequencer.lean). -/
def State.work (s : State) : Nat :=
  uqWork s.params.pollBudget.toNat s.pollCnt.toNat s.uq + 2 * (!s.txe).toNat + s.rxne.toNat + 3 * s.chTx.cnt.toNat + s.chRx.cnt.toNat

/-- Atomic steps until `phase = IDLE`, at most `fuel` of them. R312 makes termination "a claim under weak fairness, not a theorem of
the step relation alone"; here every iteration is a step of an enabled agent, so that premise is built in (DESIGN CHOICE,
notes/assumptions/20). -/
def runToIdle : Nat → State → Host.Outcome State Fault Refusal
  | 0, s => if s.phase = .idle then .next s else .fault .holdForever
  | fuel + 1, s =>
    if s.phase = .idle then .next s
    else
      match atomicStep s with
      | .next t => runToIdle fuel t
      | .fault f => .fault f
      | .refused r => .refused r

/-- The command in progress, run to its response: "runs to completion of each operation before returning" (10_state R21,
20_memory R81), under the weak fairness of 70 R312 (notes/assumptions/20). `State.work` is fuel enough from every state
(Laws/Sequencer.lean, `drive_run`). -/
def drive (s : State) : Host.Outcome State Fault Refusal := runToIdle s.work s

/-- `uq` loaded and run. -/
def launch (q : List MicroOp) (s : State) : Host.Outcome State Fault Refusal := drive (s.setUq q)

/-- A command presented (10_state R36, 40 R141): refused while another runs, else accepted and its own rule followed. -/
def onAccept (op : BitVec 4) (x : Operands) (s : State) (rule : State → Host.Outcome State Fault Refusal) :
    Host.Outcome State Fault Refusal :=
  if s.phase = .run then .refused .presentedWhileRunning else rule (s.accept (descriptorOf op x))

/-- "the driver must be initialized before any other HAL operation is invoked" (40 R142). -/
def whenInitialised (rule : State → Host.Outcome State Fault Refusal) (s : State) : Host.Outcome State Fault Refusal :=
  if s.initDone then rule s else .refused .notInitialised

/-- The operand check of the bulk commands (40 R150). -/
def whenBulkOk (rule : State → Host.Outcome State Fault Refusal) (s : State) : Host.Outcome State Fault Refusal :=
  if bulkOperandsOk s.params s.cmd.buf s.cmd.size then rule s else .refused .bulkOperands

/-- The block taken from idle to RUN with nothing latched (notes/assumptions/8). -/
def State.startFrame (s : State) : State := { s with phase := .run }

/-- The start of a frame run by itself (notes/assumptions/8). -/
def onFrame (s : State) (rule : State → Host.Outcome State Fault Refusal) : Host.Outcome State Fault Refusal :=
  if s.phase = .run then .refused .presentedWhileRunning
  else whenInitialised (fun t => rule t.startFrame) s

/-- One frame run by itself: its micro-operations, then back to IDLE with no response. -/
def runFrame (q : List MicroOp) (s : State) : Host.Outcome State Fault Refusal :=
  onFrame s (launch (q ++ [.release]))

end Sys2Proof.Machine
end

