-- ==== Sys2Proof/Machine/Frames.lean ====
section
/-! DEFINITION. The six wire-frame rows of the table run by themselves (30_encoding R111, notes/assumptions/8): each emits exactly
its frame, driving the bits its word carries, and answers with the block idle. The variable tails of F_READ and F_WRITE take
`n = cmd.size` bytes at `cmd.buf` of the latched descriptor, under the check of 40 R150. -/

namespace Sys2Proof.Machine

/-- F_WREN (41 R170): nothing for the sentinel. -/
def execFWren (o : Byte) (s : State) : Host.Outcome State Fault Refusal :=
  runFrame (wrenFrame o) s

/-- F_RDID (41 R171). -/
def execFRdid (o : Byte) (d : BitVec 48) (s : State) : Host.Outcome State Fault Refusal :=
  runFrame (rdidFrame o (d.extractLsb' 40 8) (d.extractLsb' 32 8) (d.extractLsb' 24 8) (d.extractLsb' 16 8)
    (d.extractLsb' 8 8) (d.extractLsb' 0 8)) s

/-- F_ERASE (41 R172). -/
def execFErase (o : Byte) (a : WireAddr) (s : State) : Host.Outcome State Fault Refusal :=
  runFrame (eraseFrame o a) s

/-- F_READ (41 R173). -/
def execFRead (o : Byte) (a : WireAddr) (d : Byte) (s : State) : Host.Outcome State Fault Refusal :=
  onFrame s (whenBulkOk (launch (readFrame o a d s.cmd.buf s.cmd.size ++ [.release])))

/-- F_WRITE (41 R174). -/
def execFWrite (o : Byte) (a : WireAddr) (s : State) : Host.Outcome State Fault Refusal :=
  onFrame s (whenBulkOk (launch (writeFrame o a s.cmd.buf s.cmd.size ++ [.release])))

/-- F_STATUS (41 R175). -/
def execFStatus (o d : Byte) (s : State) : Host.Outcome State Fault Refusal :=
  runFrame (statusFrame o d) s

end Sys2Proof.Machine
end

