-- ==== Sys2Proof/Machine/Framing.lean ====
section
/-! DEFINITION. The commands that emit frames (41_nor_command_framing): READ_ID, ERASE_BLOCK, READ_PAGE, WRITE_PAGE_ASYNC,
READ_STATUS. Each loads the micro-operations of 30_encoding R113 and its response. -/

namespace Sys2Proof.Machine

/-- The expansion of READ_ID (30_encoding R113). -/
def readIdOps (s : State) : List MicroOp :=
  let d := s.params.dummyByte
  rdidFrame s.cfg.readIdCmd d d d d d d ++ [.respond .void]

/-- The expansion of ERASE_BLOCK (30_encoding R113): write enable, erase frame, bounded wait. -/
def eraseBlockOps (s : State) : List MicroOp :=
  wrenFrame s.cfg.writeEnCmd ++ eraseFrame s.cfg.eraseCmd (frameAddress s.cfg s.cmd.page) ++ [.poll, .respond .polled]

/-- The expansion of READ_PAGE (30_encoding R113). -/
def readPageOps (s : State) : List MicroOp :=
  readFrame s.cfg.readCmd (frameAddress s.cfg s.cmd.page) s.params.dummyByte s.cmd.buf s.cmd.size ++
    [.respond (.status .ready)]

/-- The expansion of WRITE_PAGE_ASYNC (30_encoding R113): write enable, program frame. -/
def writePageOps (s : State) : List MicroOp :=
  wrenFrame s.cfg.writeEnCmd ++
    writeFrame s.cfg.writeCmd (frameAddress s.cfg s.cmd.page) s.cmd.buf s.cmd.size ++ [.respond .void]

/-- The expansion of READ_STATUS (30_encoding R113). -/
def readStatusOps (s : State) : List MicroOp :=
  statusFrame s.cfg.statusCmd s.params.dummyByte ++ [.respond .decoded]

/-- READ_ID (41 R171). -/
def execReadId (x : Operands) (s : State) : Host.Outcome State Fault Refusal :=
  onAccept 0x2#4 x s (whenInitialised fun a => launch (readIdOps a) a)

/-- ERASE_BLOCK (41 R172). -/
def execEraseBlock (x : Operands) (s : State) : Host.Outcome State Fault Refusal :=
  onAccept 0x3#4 x s (whenInitialised fun a => launch (eraseBlockOps a) a)

/-- READ_PAGE (41 R173). -/
def execReadPage (x : Operands) (s : State) : Host.Outcome State Fault Refusal :=
  onAccept 0x4#4 x s (whenInitialised (whenBulkOk fun a => launch (readPageOps a) a))

/-- WRITE_PAGE_ASYNC (41 R174). -/
def execWritePageAsync (x : Operands) (s : State) : Host.Outcome State Fault Refusal :=
  onAccept 0x6#4 x s (whenInitialised (whenBulkOk fun a => launch (writePageOps a) a))

/-- READ_STATUS (41 R178). -/
def execReadStatus (x : Operands) (s : State) : Host.Outcome State Fault Refusal :=
  onAccept 0x7#4 x s (whenInitialised fun a => launch (readStatusOps a) a)

end Sys2Proof.Machine
end

