-- ==== Sys2Proof/Machine/Hal.lean ====
section
/-! DEFINITION. The HAL commands that touch no bus (40_hal_interface): INIT, UNINIT, READ_SPARE_DATA, IS_BAD_BLOCK_SUPPORTED and
the reserved codes. -/

namespace Sys2Proof.Machine

/-- The effect of a successful INIT before its response (40 R143): the record is copied into `cfg`, `init_done` and `spi_en` are
set; chip-select is left 0 (10_state R37, notes/assumptions/12). -/
def State.latchConfig (s : State) : State :=
  { s with cfg := parseRecord (fun i => s.mem.read (s.cmd.buf.toNat + i)), initDone := true, spiEn := true, cs := false }

/-- The effect of UNINIT before its response (40 R146): the stored `cfg` bytes stay. -/
def State.releaseBlock (s : State) : State := { s with initDone := false, spiEn := false, cs := false }

/-- A reserved command code: `respond(rsp_status = InvalidCommand)` in every idle state (40 R149). -/
def reservedCommand (op : BitVec 4) (x : Operands) (s : State) : Host.Outcome State Fault Refusal :=
  onAccept op x s (launch [.respond (.status .invalidCommand)])

/-- INIT (40 R143, R144): the size check precedes any read of host memory (60_exceptions R265). -/
def execInit (x : Operands) (s : State) : Host.Outcome State Fault Refusal :=
  onAccept 0x0#4 x s fun a =>
    if configSizeOk a.cmd.size then
      if rangeFits a.cmd.buf Config.cfgSize then launch [.respond (.flag true)] a.latchConfig
      else .refused .recordRange
    else launch [.respond (.flag false)] a

/-- UNINIT (40 R146). -/
def execUninit (x : Operands) (s : State) : Host.Outcome State Fault Refusal :=
  onAccept 0x1#4 x s (whenInitialised fun a => launch [.respond .void] a.releaseBlock)

/-- READ_SPARE_DATA (40 R147): always InvalidCommand, the operands are not examined. -/
def execReadSpareData (x : Operands) (s : State) : Host.Outcome State Fault Refusal :=
  onAccept 0x5#4 x s (whenInitialised (launch [.respond (.status .invalidCommand)]))

/-- IS_BAD_BLOCK_SUPPORTED (40 R148): always false. -/
def execIsBadBlockSupported (x : Operands) (s : State) : Host.Outcome State Fault Refusal :=
  onAccept 0x8#4 x s (whenInitialised (launch [.respond (.flag false)]))

/-- Reserved code 0xA (40 R149). -/
def execReservedA (x : Operands) (s : State) : Host.Outcome State Fault Refusal := reservedCommand 0xA#4 x s

/-- Reserved code 0xB (40 R149). -/
def execReservedB (x : Operands) (s : State) : Host.Outcome State Fault Refusal := reservedCommand 0xB#4 x s

/-- Reserved code 0xC (40 R149). -/
def execReservedC (x : Operands) (s : State) : Host.Outcome State Fault Refusal := reservedCommand 0xC#4 x s

/-- Reserved code 0xD (40 R149). -/
def execReservedD (x : Operands) (s : State) : Host.Outcome State Fault Refusal := reservedCommand 0xD#4 x s

/-- Reserved code 0xE (40 R149). -/
def execReservedE (x : Operands) (s : State) : Host.Outcome State Fault Refusal := reservedCommand 0xE#4 x s

/-- Reserved code 0xF (40 R149). -/
def execReservedF (x : Operands) (s : State) : Host.Outcome State Fault Refusal := reservedCommand 0xF#4 x s

end Sys2Proof.Machine
end

