-- ==== Sys2Proof/Machine/Poller.lean ====
section
/-! DEFINITION. The bounded wait as a command (43_status_poller). `Poll()` itself (R230) is the micro-operation `POLL` of
Machine/Sequencer.lean. -/

namespace Sys2Proof.Machine

/-- The expansion of WAIT_READY (30_encoding R113). -/
def waitReadyOps : List MicroOp := [.poll, .respond .polled]

/-- WAIT_READY (43 R232). -/
def execWaitReady (x : Operands) (s : State) : Host.Outcome State Fault Refusal :=
  onAccept 0x9#4 x s (whenInitialised (launch waitReadyOps))

end Sys2Proof.Machine
end

