-- ==== Sys2Proof/Machine/Dispatch.lean ====
section
/-! DEFINITION. The meaning of every instruction, one arm per row of spec/opcode_table.json. -/

namespace Sys2Proof.Machine

-- The host commands (30_encoding R101), then the wire frames (R111).
def exec (i : Instr) (s : State) : Host.Outcome State Fault Refusal :=
  match i with
  | .init x => Sys2Proof.Machine.execInit x s
  | .uninit x => Sys2Proof.Machine.execUninit x s
  | .readId x => Sys2Proof.Machine.execReadId x s
  | .eraseBlock x => Sys2Proof.Machine.execEraseBlock x s
  | .readPage x => Sys2Proof.Machine.execReadPage x s
  | .readSpareData x => Sys2Proof.Machine.execReadSpareData x s
  | .writePageAsync x => Sys2Proof.Machine.execWritePageAsync x s
  | .readStatus x => Sys2Proof.Machine.execReadStatus x s
  | .isBadBlockSupported x => Sys2Proof.Machine.execIsBadBlockSupported x s
  | .waitReady x => Sys2Proof.Machine.execWaitReady x s
  | .reservedA x => Sys2Proof.Machine.execReservedA x s
  | .reservedB x => Sys2Proof.Machine.execReservedB x s
  | .reservedC x => Sys2Proof.Machine.execReservedC x s
  | .reservedD x => Sys2Proof.Machine.execReservedD x s
  | .reservedE x => Sys2Proof.Machine.execReservedE x s
  | .reservedF x => Sys2Proof.Machine.execReservedF x s
  | .fWren o => Sys2Proof.Machine.execFWren o s
  | .fRdid o d => Sys2Proof.Machine.execFRdid o d s
  | .fErase o a => Sys2Proof.Machine.execFErase o a s
  | .fRead o a d => Sys2Proof.Machine.execFRead o a d s
  | .fWrite o a => Sys2Proof.Machine.execFWrite o a s
  | .fStatus o d => Sys2Proof.Machine.execFStatus o d s

end Sys2Proof.Machine
end

