-- ==== Sys2Proof/Machine/HostPort.lean ====
section
/-! DEFINITION. Host's moves while the block is idle (60_exceptions R271, R274), and the pseudo-instructions of 30_encoding R131,
which are sequences of commands Host issues. -/

namespace Sys2Proof.Machine

/-- The word presented names an instruction, and that instruction runs; a word that names none is refused by name. -/
def runWord (w : PortWord) (s : State) : Host.Outcome State Fault Refusal :=
  match decode w with
  | .ok i => exec i s
  | .error e => .refused (.undecodable e)

/-- Host's next move, taken while the block is idle. With none left the block stays idle (10_state R58; notes/assumptions/5). -/
def hostStep (s : State) : Host.Outcome State Fault Refusal :=
  match s.inbox with
  | [] => .next s
  | .present w :: rest => runWord w { s with inbox := rest }
  | .write a b :: rest => .next ({ s with inbox := rest }.store a b)

/-- A raw word placed where `step` takes its next instruction: at the head of Host's moves, with the block idle. -/
def placeWord (w : PortWord) (s : State) : State :=
  { s with phase := .idle, uq := [], inbox := .present w :: s.inbox }

/-- One instruction after another, stopping where one stops. -/
def execAll : List Instr → State → Host.Outcome State Fault Refusal
  | [], s => .next s
  | i :: is, s =>
    match exec i s with
    | .next t => execAll is t
    | .fault f => .fault f
    | .refused r => .refused r

/-- `PROGRAM buf, page, size` (30_encoding R131). -/
def programPseudo (x y : Operands) : List Instr := [.writePageAsync x, .waitReady y]

/-- `READ_STATUS_UNTIL_READY k`: up to `k` READ_STATUS commands, stopping at the first `Ready` (30_encoding R131). -/
def readStatusUntilReady (x : Operands) : Nat → State → Host.Outcome State Fault Refusal
  | 0, s => .next s
  | k + 1, s =>
    match exec (.readStatus x) s with
    | .next t => if t.rspStatus = .ready then .next t else readStatusUntilReady x k t
    | .fault f => .fault f
    | .refused r => .refused r

end Sys2Proof.Machine
end

