-- ==== Sys2Proof/Machine/Step.lean ====
section
/-! DEFINITION. One step of the machine. While the block is idle Host makes its next move; presenting an instruction runs it to its
response ("callers never observe an in-flight transfer", notes/assumptions/1). A state with a command in flight takes one atomic
step of one enabled agent (60_exceptions R271). -/

namespace Sys2Proof.Machine

/-- One step. -/
def step (s : State) : Host.Outcome State Fault Refusal :=
  match s.phase with
  | .idle => hostStep s
  | .run => atomicStep s

/-- `s` with a table row's word where `step` takes its next instruction: Host presents it next (notes/assumptions/5). -/
def State.withFetchWord (s : State) (nbits w : Nat) : State := placeWord (tableWord nbits w) s

end Sys2Proof.Machine
end

