-- ==== Sys2Proof/Machine/BootSelector.lean ====
section
/-! DEFINITION. CONTEXT ONLY: the boot image selector (44_boot_selector). It is outside the block (00_scope section 3, 44 R250): no
definition of the block reads it. The device's base address is an argument (93 U23). -/

namespace Sys2Proof.Machine

/-- A region of the microcontroller's internal flash (44 R251). -/
structure BootRegion where
  offset : Nat
  size : Nat
deriving DecidableEq, Repr

/-- The regions in the order of 44 R251: bootloader, configuration sector, application images 1 and 2. -/
def bootLayout : List BootRegion :=
  [⟨0x00000, 0x3800⟩, ⟨0x03800, 0x800⟩, ⟨0x04000, 0x1E000⟩, ⟨0x22000, 0x1E000⟩]

/-- The selector byte's address (44 R252). -/
def bootSelectorAddress (base : Nat) : Nat := base + 0x3800

/-- The address control is transferred to (44 R253). -/
def bootTarget (base : Nat) (b : Byte) : Nat := if b = 0#8 then base + 0x4000 else base + 0x22000

end Sys2Proof.Machine
end

