-- ==== Sys2Proof/Safety.lean ====
section
/-! DEFINITION. What counts as a safe state: the shape of the trace (41 R163), the idle invariants (70 R313), and what holds between
two atomic steps of a command in flight (10_state R46, 42 R206, R211). -/

namespace Sys2Proof.Machine

/-- Where the bus stands after a trace: between frames, after `Sel` with no exchange yet, or after at least one exchange. -/
inductive BusPos where
  | between | opened | talking
deriving DecidableEq, Repr

/-- Chip-select is asserted there. -/
def BusPos.selected : BusPos → Bool
  | .between => false
  | .opened | .talking => true

/-- One more event; `none` where it breaks the framing: "a frame is `Sel`, then one or more `Xfer`, then `Desel`" (41 R163). -/
def BusPos.after : BusPos → BusEvent → Option BusPos
  | .between, .sel => some .opened
  | .opened, .xfer _ _ => some .talking
  | .talking, .xfer _ _ => some .talking
  | .talking, .desel => some .between
  | _, _ => none

/-- Where the bus stands after a list of events from a position. -/
def busScan : BusPos → List BusEvent → Option BusPos
  | p, [] => some p
  | p, e :: es =>
    match p.after e with
    | some p' => busScan p' es
    | none => none

/-- The micro-operations, none of them in progress, keep the framing from `p` and end in a response. -/
def opsFramed : BusPos → List MicroOp → Bool
  | .between, [.respond _] => true
  | .between, [.release] => true
  | .between, .sel :: q => opsFramed .opened q
  | .between, .poll :: q => opsFramed .between q
  | .between, .pollTest :: q => opsFramed .between q
  | .between, .pollDecide :: q => opsFramed .between q
  | .opened, .tx8 _ :: q => opsFramed .talking q
  | .opened, .rx8 _ _ :: q => opsFramed .talking q
  | .talking, .tx8 _ :: q => opsFramed .talking q
  | .talking, .rx8 _ _ :: q => opsFramed .talking q
  | .talking, .bulkTx _ n :: q => decide (n ≠ 0) && opsFramed .talking q
  | .talking, .bulkRx _ n :: q => decide (n ≠ 0) && opsFramed .talking q
  | .talking, .desel :: q => opsFramed .between q
  | _, _ => false

/-- Both completion flags are clear. -/
def State.flagsClear (s : State) : Bool := !s.chTx.tc && !s.chRx.tc

/-- Inside a bulk transfer (42 R207, R212): both channels armed, both requests on, the bytes still to take in are those still to
hand out plus the one in `tx_buf` and the one in `rx_buf`, and each `tc` says that its count is zero. -/
def State.bulkOk (s : State) : Bool :=
  s.chTx.en && s.chRx.en && s.dmaReqTx && s.dmaReqRx &&
  decide (s.chRx.cnt.toNat = s.chTx.cnt.toNat + (!s.txe).toNat + s.rxne.toNat) &&
  decide (s.chTx.tc = decide (s.chTx.cnt = 0)) && decide (s.chRx.tc = decide (s.chRx.cnt = 0))

/-- The serial peripheral is on, or nothing is left but a response (INIT's and the reserved codes'). -/
def State.poweredOk (s : State) : Bool :=
  s.spiEn ||
  match s.uq with
  | [.respond _] => true
  | _ => false

/-- What holds between two atomic steps of a command in flight, the bus standing at `p`. -/
def State.flightOk (s : State) (p : BusPos) : Bool :=
  s.poweredOk &&
  match s.uq with
  | .xchgDrive _ _ :: q => p.selected && s.busQuiet && s.flagsClear && opsFramed .talking q
  | .xchgTake _ :: q =>
    !s.chTx.en && !s.chRx.en && s.flagsClear && p.selected && opsFramed .talking q &&
      ((!s.txe && !s.rxne) || (s.txe && s.rxne && decide (p = .talking)))
  | .bulkWait :: q => decide (p = .talking) && s.bulkOk && opsFramed .talking q
  | q => s.busQuiet && s.flagsClear && opsFramed p q

/-- The idle invariants (70 R313), the bus standing at `p`. -/
def State.idleOk (s : State) (p : BusPos) : Bool :=
  decide (s.uq = []) && decide (p = .between) && s.busQuiet && s.flagsClear

/-- The invariant of the machine. -/
structure State.Inv (s : State) : Prop where
  /-- Host memory is in canonical form. -/
  memory : s.mem.wf = true
  /-- `filler` holds the constant `FILLER_BYTE` (10_state R45). -/
  filler : s.filler = s.params.fillerByte
  /-- `XFER_MAX ≥ 1` (00_scope R4). -/
  xferMax : 1 ≤ s.params.xferMax
  /-- `init_done` and `spi_en` are set and cleared together (40 R143, R146). -/
  power : s.initDone = s.spiEn
  /-- `ch_tx.en = ch_rx.en` at every step boundary (10_state R46). -/
  channels : s.chTx.en = s.chRx.en
  /-- The trace is framed and `cs = 1` exactly while a frame is open (41 R163); idle and in-flight states are as above. -/
  control : ∃ p, busScan .between s.trace = some p ∧ s.cs = p.selected ∧
    (match s.phase with
     | .idle => s.idleOk p
     | .run => s.flightOk p) = true

/-- The block is idle with nothing pending (70 R313): the states in which the commands that touch no bus have a meaning. -/
structure State.AtRest (s : State) : Prop where
  idle : s.phase = .idle
  queue : s.uq = []
  empty : s.txe = true
  drained : s.rxne = false
  txOff : s.chTx.en = false
  rxOff : s.chRx.en = false

/-- The block is at rest, initialised and deselected: the states in which every command has a meaning (60_exceptions R268,
70 R313, 42 R211). -/
structure State.Ready (s : State) : Prop extends State.AtRest s where
  initialised : s.initDone = true
  powered : s.spiEn = true
  deselected : s.cs = false

/-- The busy fields have a meaning: `busy_bit` 0 to 7, `busy_state` 0 or 1 (10_state R31, R32, 41 R177). -/
def ChipConfig.busyFieldsOk (cfg : ChipConfig) : Bool :=
  decide (cfg.busyBit.toNat ≤ 7) && decide (cfg.busyState.toNat ≤ 1)

/-- The operands of a bulk command have a meaning: `1 ≤ size ≤ XFER_MAX`, `buf + size ≤ 2^32` (40 R150). -/
def State.BulkFits (s : State) (buf size : Word) : Prop :=
  1 ≤ size.toNat ∧ size.toNat ≤ s.params.xferMax ∧ buf.toNat + size.toNat ≤ 2 ^ 32

end Sys2Proof.Machine
end

