-- ==== Sys2Proof/Certificates/Slice0/Obligations.lean ====
section
/-! DEFINITION. The statements for the provers. Each docstring names the rules of spec/ its statement formalises, and the log entry
where it rests on a choice of the model. That a command in flight reaches its response at all, which every statement of a completed
command says, is R312's claim under weak fairness of `Shifter`, `DmaTx` and `DmaRx`, built into the model (notes/assumptions/20). -/

namespace Sys2Proof.Claims

open Sys2Proof Sys2Proof.Machine

/-- Bits `k + 7 .. k` of a number as a byte (00_scope R7). -/
def byteAt (n k : Nat) : Byte := BitVec.ofNat 8 (n / 2 ^ k)

/-- The linear address of a page's first byte, an exact natural number (41 R165, R166). -/
def pageAddress (s : State) (page : Word) : Nat := page.toNat * 2 ^ s.cfg.pageOffset.toNat

/-- The answers drawn by the exchanges of the write-enable frame: one, or none for the sentinel 0xFF (41 R170). -/
def wrenDraws (o : Byte) : Nat := if o = 0xFF#8 then 0 else 1

/-- The events of the write-enable frame (41 R170). -/
def wrenEvents (s : State) (o : Byte) : List BusEvent :=
  if o = 0xFF#8 then [] else [.sel, .xfer o (s.chipAhead 0), .desel]

/-- The events of a frame's head, select, opcode and three address bytes, from answer `k` on (41 R160, R164, R167). -/
def headEvents (s : State) (o : Byte) (addr k : Nat) : List BusEvent :=
  [.sel, .xfer o (s.chipAhead k), .xfer (byteAt addr 16) (s.chipAhead (k + 1)), .xfer (byteAt addr 8) (s.chipAhead (k + 2)),
    .xfer (byteAt addr 0) (s.chipAhead (k + 3))]

/-- The events of one status frame from answer `k` on (41 R175). -/
def statusFrameEvents (s : State) (o d : Byte) (k : Nat) : List BusEvent :=
  [.sel, .xfer o (s.chipAhead k), .xfer d (s.chipAhead (k + 1)), .desel]

/-- The events of `n` status frames of the poller from answer `k` on (43 R230). -/
def pollEvents (s : State) (k n : Nat) : List BusEvent :=
  (List.range n).flatMap fun i => statusFrameEvents s s.cfg.statusCmd s.params.dummyByte (k + 2 * i)

/-- The status byte reads busy: "`busy = (bit == cfg.busy_state)`" (41 R177). -/
def readsBusy (cfg : ChipConfig) (st : Byte) : Bool :=
  st.toNat.testBit cfg.busyBit.toNat == (cfg.busyState == 1#8)

/-- The poller's `i`-th read, the status frames starting at answer `k`, is busy. -/
def pollBusy (s : State) (k i : Nat) : Bool := readsBusy s.cfg (s.chipAhead (k + 2 * i + 1))

/-- The state after `r = Poll()` with `n` status frames starting at answer `k`, the events `es` before them, and
`respond(rsp_status = r)` (43 R230). -/
def afterPoll (s : State) (d : Descriptor) (es : List BusEvent) (k n : Nat) (cnt : Word) (r : FlashStatus) : State :=
  { s with
    cmd := d, dmaReqTx := if k + n = 0 then s.dmaReqTx else false, dmaReqRx := if k + n = 0 then s.dmaReqRx else false,
    txBuf := if n = 0 then (if k = 0 then s.txBuf else byteAt (pageAddress s d.page) 0) else s.params.dummyByte,
    rxBuf := if k + n = 0 then s.rxBuf else s.chipAhead (k + 2 * n - 1),
    statusLatch := if n = 0 then s.statusLatch else s.chipAhead (k + 2 * n - 1),
    pollCnt := cnt, pollResult := r, rspStatus := r, rspValid := true,
    trace := s.trace ++ es ++ pollEvents s k n, chipScript := s.chipScript.drop (k + 2 * n), drawn := s.drawn + (k + 2 * n) }

/-- `s` with every element rewritten that 10_state R60 leaves without a value at reset and a Ready block may not have written. -/
def rewriteUnwritten (s u : State) : State :=
  { s with
    txBuf := u.txBuf, rxBuf := u.rxBuf, sink := u.sink, pollCnt := u.pollCnt, statusLatch := u.statusLatch, ident := u.ident,
    rspStatus := u.rspStatus, rspFlag := u.rspFlag, pollResult := u.pollResult,
    chTx := { s.chTx with addr := u.chTx.addr, inc := u.chTx.inc, cnt := u.chTx.cnt },
    chRx := { s.chRx with addr := u.chRx.addr, inc := u.chRx.inc, cnt := u.chRx.cnt } }

/-- `s` with every element rewritten that 10_state R60 leaves without a value at reset, `cfg` and `cmd` among them. -/
def rewriteUninitialised (s u : State) : State := { rewriteUnwritten s u with cfg := u.cfg, cmd := u.cmd }

/-- What an instruction gave from `s` is what it gave from a rewriting of `s` by `u`: the same events, memory and latched elements; a
result field is the same, or was not written and keeps what it held on either side. -/
structure SameResults (s u t t' : State) : Prop where
  trace : t'.trace = t.trace
  mem : t'.mem = t.mem
  drawn : t'.drawn = t.drawn
  cmd : t'.cmd = t.cmd
  cs : t'.cs = t.cs
  initDone : t'.initDone = t.initDone
  spiEn : t'.spiEn = t.spiEn
  rspValid : t'.rspValid = t.rspValid
  rspStatus : t'.rspStatus = t.rspStatus ∨ t.rspStatus = s.rspStatus ∧ t'.rspStatus = u.rspStatus
  rspFlag : t'.rspFlag = t.rspFlag ∨ t.rspFlag = s.rspFlag ∧ t'.rspFlag = u.rspFlag
  ident : t'.ident = t.ident ∨ t.ident = s.ident ∧ t'.ident = u.ident

/-- The ten commands and the reserved codes, not the frames. -/
def isCommand (i : Instr) : Bool :=
  match encode i with
  | .descriptor _ => true
  | .frame _ _ => false

/-- The bytes received in a list of events, in order. -/
def answersOf (es : List BusEvent) : List Byte :=
  es.filterMap fun e =>
    match e with
    | .xfer _ m => some m
    | .sel => none
    | .desel => none

end Sys2Proof.Claims

open Sys2Proof Sys2Proof.Machine Sys2Proof.Claims

/-! ### Reset, decoding, fetching -/

/-- 10_state R60 (the spec's own decision D22): every element R60 gives a value has it after reset. -/
def Obligations.ResetIsIdleUninitialised : Prop :=
  State.reset.phase = .idle ∧ State.reset.uq = [] ∧ State.reset.initDone = false ∧ State.reset.cs = false ∧
  State.reset.spiEn = false ∧ State.reset.txe = true ∧ State.reset.rxne = false ∧ State.reset.dmaReqTx = false ∧
  State.reset.dmaReqRx = false ∧ State.reset.chTx.en = false ∧ State.reset.chRx.en = false ∧ State.reset.chTx.tc = false ∧
  State.reset.chRx.tc = false ∧ State.reset.filler = State.reset.params.fillerByte ∧ State.reset.rspValid = false ∧
  State.reset.trace = []

/-- The invariant holds after reset. -/
def Obligations.ResetMeetsTheInvariant : Prop := State.reset.Inv

/-- Words written out from 95_test_vectors section 2.2 and from the frame rows of the table decode to what they stand for. -/
def Obligations.WrittenOutWordsDecode : Prop :=
  decode (.descriptor 0x0000000000000000000000000D20000000#132) = .ok (.init ⟨0, 0, 13, 0x20000000⟩) ∧
  decode (.descriptor 0x300000100DEADBEEF0000000712345678#132) =
    .ok (.eraseBlock ⟨0x100, 0xDEADBEEF, 7, 0x12345678⟩) ∧
  decode (.descriptor 0x400000002000000000000000420000110#132) = .ok (.readPage ⟨2, 0, 4, 0x20000110⟩) ∧
  decode (.descriptor 0x900000000000000000000000000000000#132) = .ok (.waitReady ⟨0, 0, 0, 0⟩) ∧
  decode (.descriptor 0xC00000000000000000000000000000000#132) = .ok (.reservedC ⟨0, 0, 0, 0⟩) ∧
  decode (.frame .erase [0xD8, 0x01, 0x02, 0x03]) = .ok (.fErase 0xD8 0x010203) ∧
  decode (.frame .status [0x05]) = .error .frameLength

/-- 30_encoding R101, R103, R111: no bit of an encoding is dropped. -/
def Obligations.DecodeOfEncodeIsTheInstruction : Prop :=
  ∀ i : Instr, i.wf = true → decode (encode i) = .ok i

/-- Each word has one meaning: what decodes to an instruction is its encoding, and the instruction is well-formed. -/
def Obligations.EncodeOfDecodeIsTheWord : Prop :=
  ∀ (w : PortWord) (i : Instr), decode w = .ok i → encode i = w ∧ i.wf = true

/-- While the block is idle, Host's next word is decoded and its instruction is run (10_state R36, 40 R141); a word that names no
instruction is refused. That Host's moves stand in `inbox` is the model's choice (notes/assumptions/5). -/
def Obligations.StepRunsThePresentedInstruction : Prop :=
  ∀ (s : State) (w : PortWord) (rest : List HostMove), s.phase = .idle → s.inbox = .present w :: rest →
    (∀ i, decode w = .ok i → step s = exec i { s with inbox := rest }) ∧
    (∀ e, decode w = .error e → step s = .refused (.undecodable e))

/-- A table row's word placed by `withFetchWord` is what the next step runs (the model's choice, notes/assumptions/5, 9). -/
def Obligations.FetchWordIsRunNext : Prop :=
  ∀ (s : State) (nbits w : Nat) (i : Instr), decodeTableWord nbits w = some i →
    step (s.withFetchWord nbits w) = exec i { s with phase := .idle, uq := [] }

/-- A move of Host that writes its memory changes that byte and no other, and nothing else (20_memory R71, 60_exceptions R274). -/
def Obligations.HostWriteChangesOneByte : Prop :=
  ∀ (s : State) (a : Word) (b : Byte) (rest : List HostMove), s.phase = .idle → s.mem.wf = true →
    s.inbox = .write a b :: rest →
    ∃ m : Memory, step s = .next { s with mem := m, inbox := rest } ∧ m.read a.toNat = b ∧
      ∀ j, j ≠ a.toNat → m.read j = s.mem.read j

/-! ### The invariant and what follows from it -/

/-- Every step keeps the invariant: framed trace (41 R163), idle invariants (70 R313), `ch_tx.en = ch_rx.en` (10_state R46),
canonical memory, constant `filler` (R45). The relations of a command in flight speak of the residual entries of `uq`
(notes/assumptions/10). -/
def Obligations.EveryStepKeepsTheInvariant : Prop :=
  ∀ s t : State, s.Inv → step s = .next t → t.Inv

/-- From an invariant state no step holds for ever (70 R312): some agent is enabled wherever a command is in flight. That an enabled
agent then steps is the weak fairness of R312, built in (notes/assumptions/20). -/
def Obligations.InvariantStatesNeverHold : Prop :=
  ∀ s : State, s.Inv → ∀ f, step s ≠ .fault f

/-- The idle invariants of 70 R313, the trace's last event among them. -/
def Obligations.IdleStatesAreDeselectedAndQuiet : Prop :=
  ∀ s : State, s.Inv → s.phase = .idle →
    s.uq = [] ∧ s.cs = false ∧ s.txe = true ∧ s.rxne = false ∧ s.chTx.en = false ∧ s.chRx.en = false ∧
    s.chTx.tc = false ∧ s.chRx.tc = false ∧ (s.trace = [] ∨ s.trace.getLast? = some .desel)

/-- "outside a bulk transfer at most one agent is enabled at a time" (60_exceptions R271), and exactly one is. -/
def Obligations.OneAgentAtATimeOutsideBulk : Prop :=
  ∀ s : State, s.Inv → s.phase = .run → (∀ q, s.uq ≠ .bulkWait :: q) → ∃ a, s.enabledAgents = [a]

/-- When the receive channel is complete every exchange of the transfer is over (20_memory R83, 42 R206, R210). -/
def Obligations.ReceiveCompleteMeansAllExchanged : Prop :=
  ∀ (s : State) (q : List MicroOp), s.Inv → s.phase = .run → s.uq = .bulkWait :: q → s.chRx.tc = true →
    s.txe = true ∧ s.rxne = false ∧ s.chTx.cnt = 0 ∧ s.chRx.cnt = 0 ∧ s.enabledAgents = [.seq]

/-- A command run whole is the atomic steps of the agents, one after another (60_exceptions R271, 70 R312): whatever `drive` answers
from a state in flight, some number of steps answers too. That `exec` runs a command in one step, and that each step is one of an
enabled agent (weak fairness), are the model's choices (notes/assumptions/1, 20). -/
def Obligations.DriveIsTheAtomicStepsInTurn : Prop :=
  ∀ s : State, s.phase = .run → ∃ k, Host.Core.run core k s = drive s

/-! ### Atomic steps -/

/-- `SEL` and `DESEL` (41 R161, R162), each one atomic step of `Seq` under its precondition. -/
def Obligations.SelectAndDeselectAreOneStep : Prop :=
  ∀ (s : State) (q : List MicroOp), s.phase = .run → s.txe = true → s.rxne = false → s.chTx.en = false → s.chRx.en = false →
    (s.uq = .sel :: q → s.cs = false → step s = .next { s with cs := true, trace := s.trace ++ [.sel], uq := q }) ∧
    (s.uq = .desel :: q → s.cs = true → step s = .next { s with cs := false, trace := s.trace ++ [.desel], uq := q })

/-- Outside the preconditions of 41 R161 and R162 neither `SEL` nor `DESEL` has a meaning (the model's reading,
notes/assumptions/11). -/
def Obligations.SelectAndDeselectOutsideTheirPrecondition : Prop :=
  ∀ (s : State) (q : List MicroOp), s.phase = .run → s.enabledAgents = [.seq] →
    (s.uq = .sel :: q → s.cs = true → step s = .refused .framing) ∧
    (s.uq = .desel :: q →
      s.cs = false ∨ s.txe = false ∨ s.rxne = true ∨ s.chTx.en = true ∨ s.chRx.en = true → step s = .refused .framing)

/-- `Xchg(b)` (42 R200): three atomic steps of `Seq`, the DMA requests off first, and `Shifter`'s exchange before the third; `Seq` is
held before the second until `txe = 1` and before the third until `rxne = 1`. The byte returned is Chip's answer: `TX8` discards it
(R201), `RX8(dst)` keeps it in `dst` (R202). The residual entries `xchgDrive` and `xchgTake` are the model's (notes/assumptions/10),
`Shifter`'s step is the spec's own decision D19, and the answer is `chipAhead 0` (notes/assumptions/3). -/
def Obligations.ByteTransportStepByStep : Prop :=
  (∀ (s : State) (b : Byte) (dst : Keep) (q : List MicroOp), s.phase = .run → s.spiEn = true → s.txe = true → s.rxne = false →
    s.chTx.en = false → s.chRx.en = false → (s.uq = .tx8 b :: q ∧ dst = .discard ∨ s.uq = .rx8 b dst :: q) →
    ∃ s1 s2 s3 s4 : State,
      step s = .next s1 ∧ s1 = { s with dmaReqTx := false, dmaReqRx := false, uq := .xchgDrive b dst :: q } ∧
      step s1 = .next s2 ∧ s2 = { s1 with txBuf := b, txe := false, uq := .xchgTake dst :: q } ∧
      step s2 = .next s3 ∧
      s3 = { s2 with trace := s.trace ++ [.xfer b (s.chipAhead 0)], rxBuf := s.chipAhead 0, rxne := true, txe := true,
                     chipScript := s.chipScript.drop 1, drawn := s.drawn + 1 } ∧
      step s3 = .next s4 ∧ s4 = { s3.keep dst (s.chipAhead 0) with rxne := false, uq := q }) ∧
  (∀ (s : State) (m : Byte),
    s.keep .discard m = s ∧ s.keep .statusLatch m = { s with statusLatch := m } ∧
    s.keep (.id .maker) m = { s with ident := { s.ident with maker := m } } ∧
    s.keep (.id .device) m = { s with ident := { s.ident with device := m } } ∧
    s.keep (.id .third) m = { s with ident := { s.ident with third := m } } ∧
    s.keep (.id .fourth) m = { s with ident := { s.ident with fourth := m } } ∧
    s.keep (.id .fifth) m = { s with ident := { s.ident with fifth := m } } ∧
    s.keep (.id .sixth) m = { s with ident := { s.ident with sixth := m } }) ∧
  (∀ (s : State) (b : Byte) (dst : Keep) (q : List MicroOp), s.uq = .xchgDrive b dst :: q →
    (s.enabled .seq = true ↔ s.phase = .run ∧ s.txe = true)) ∧
  (∀ (s : State) (dst : Keep) (q : List MicroOp), s.uq = .xchgTake dst :: q →
    (s.enabled .seq = true ↔ s.phase = .run ∧ s.rxne = true))

/-- The steps of `Shifter`, `DmaTx` and `DmaRx` where each is the one agent enabled (42 R203, R204, R205; the spec's own decisions
D19, D20). -/
def Obligations.PeripheralAgentsStep : Prop :=
  ∀ s : State, s.phase = .run →
    (s.enabledAgents = [.shifter] →
      step s = .next { s with trace := s.trace ++ [.xfer s.txBuf (s.chipAhead 0)], rxBuf := s.chipAhead 0, rxne := true,
                              txe := true, chipScript := s.chipScript.drop 1, drawn := s.drawn + 1 }) ∧
    (s.enabledAgents = [.dmaTx] →
      step s = .next { s with
        txBuf := if s.chTx.inc then s.mem.read s.chTx.addr.toNat else s.filler, txe := false,
        chTx := { s.chTx with addr := if s.chTx.inc then s.chTx.addr + 1 else s.chTx.addr, cnt := s.chTx.cnt - 1,
                              tc := if s.chTx.cnt = 1 then true else s.chTx.tc } }) ∧
    (s.enabledAgents = [.dmaRx] →
      step s = .next { s with
        rxne := false, mem := if s.chRx.inc then s.mem.write s.chRx.addr.toNat s.rxBuf else s.mem,
        sink := if s.chRx.inc then s.sink else s.rxBuf,
        chRx := { s.chRx with addr := if s.chRx.inc then s.chRx.addr + 1 else s.chRx.addr, cnt := s.chRx.cnt - 1,
                              tc := if s.chRx.cnt = 1 then true else s.chRx.tc } })

/-- `Arm(dir, buf, n)` and `Disarm()` (42 R207, R210; the spec's own decision D20): both channels in one step; the requests stay on
after `Disarm`. -/
def Obligations.BulkTransferIsArmedAndDisarmed : Prop :=
  ∀ (s : State) (buf n : Word) (q : List MicroOp), s.phase = .run → s.enabledAgents = [.seq] →
    (s.uq = .bulkTx buf n :: q →
      step s = .next { s with chTx := ⟨true, buf, true, n, false⟩, chRx := ⟨true, buf, false, n, false⟩, dmaReqTx := true,
                              dmaReqRx := true, uq := .bulkWait :: q }) ∧
    (s.uq = .bulkRx buf n :: q →
      step s = .next { s with chTx := ⟨true, buf, false, n, false⟩, chRx := ⟨true, buf, true, n, false⟩, dmaReqTx := true,
                              dmaReqRx := true, uq := .bulkWait :: q }) ∧
    (s.uq = .bulkWait :: q →
      step s = .next { s with chTx := { s.chTx with en := false, tc := false }, chRx := { s.chRx with en := false, tc := false },
                              uq := q })

/-- The poll counter is loaded with the budget, or stays, or goes down by one; it never wraps (43 R234,
notes/assumptions/16). -/
def Obligations.PollCounterNeverWraps : Prop :=
  ∀ s t : State, atomicStep s = .next t →
    t.pollCnt = s.pollCnt ∨ t.pollCnt = s.params.pollBudget ∨ t.pollCnt.toNat + 1 = s.pollCnt.toNat

/-! ### Commands without bus activity -/

/-- A successful INIT latches the thirteen bytes of the record (40 R143, R145, 30_encoding R120; the spec's own decisions D5, D18);
nothing but what is named changes. That chip-select is written 0 is 10_state R37 (notes/assumptions/12). -/
def Obligations.InitLatchesTheRecord : Prop :=
  ∀ (x : Operands) (s : State), s.AtRest → 13 ≤ x.size.toNat → x.buf.toNat + 13 ≤ 2 ^ 32 →
    exec (.init x) s = .next { s with
      cmd := ⟨0, x.page, x.offset, x.size, x.buf⟩,
      cfg := {
        pageOffset := s.mem.read x.buf.toNat, readCmd := s.mem.read (x.buf.toNat + 1),
        readIdCmd := s.mem.read (x.buf.toNat + 2), writeCmd := s.mem.read (x.buf.toNat + 3),
        writeEnCmd := s.mem.read (x.buf.toNat + 4), eraseCmd := s.mem.read (x.buf.toNat + 5),
        statusCmd := s.mem.read (x.buf.toNat + 6), busyBit := s.mem.read (x.buf.toNat + 7),
        busyState := s.mem.read (x.buf.toNat + 8),
        freq := BitVec.ofNat 32 ((s.mem.read (x.buf.toNat + 9)).toNat + (s.mem.read (x.buf.toNat + 10)).toNat * 2 ^ 8 +
          (s.mem.read (x.buf.toNat + 11)).toNat * 2 ^ 16 + (s.mem.read (x.buf.toNat + 12)).toNat * 2 ^ 24) },
      initDone := true, spiEn := true, cs := false, rspFlag := true, rspValid := true }

/-- 40 R144: a failed INIT changes nothing but `cmd` and the response. -/
def Obligations.UndersizedInitChangesNothing : Prop :=
  ∀ (x : Operands) (s : State), s.AtRest → x.size.toNat < 13 →
    exec (.init x) s = .next { s with
      cmd := ⟨0, x.page, x.offset, x.size, x.buf⟩, rspFlag := false, rspValid := true }

/-- UNINIT (40 R146; the spec's own decision D17); `cs` is 0 before and after in every reachable state. -/
def Obligations.UninitReleasesTheBlock : Prop :=
  ∀ (x : Operands) (s : State), s.AtRest → s.initDone = true →
    exec (.uninit x) s = .next { s with
      cmd := ⟨1, x.page, x.offset, x.size, x.buf⟩, initDone := false, spiEn := false, cs := false, rspValid := true }

/-- READ_SPARE_DATA (40 R147; that the buffer is untouched is the spec's own decision D32): whatever the operands. -/
def Obligations.SpareReadAlwaysInvalid : Prop :=
  ∀ (x : Operands) (s : State), s.AtRest → s.initDone = true →
    exec (.readSpareData x) s = .next { s with
      cmd := ⟨5, x.page, x.offset, x.size, x.buf⟩, rspStatus := .invalidCommand, rspValid := true }

/-- IS_BAD_BLOCK_SUPPORTED (40 R148). -/
def Obligations.BadBlockQueryAlwaysFalse : Prop :=
  ∀ (x : Operands) (s : State), s.AtRest → s.initDone = true →
    exec (.isBadBlockSupported x) s = .next { s with
      cmd := ⟨8, x.page, x.offset, x.size, x.buf⟩, rspFlag := false, rspValid := true }

/-- The reserved codes (40 R149; the spec's own decision D2), initialised or not. -/
def Obligations.ReservedCodesAnswerInvalid : Prop :=
  ∀ (x : Operands) (s : State), s.AtRest →
    let answer := fun op : BitVec 4 =>
      (Host.Outcome.next { s with
        cmd := ⟨op, x.page, x.offset, x.size, x.buf⟩, rspStatus := .invalidCommand, rspValid := true } :
        Host.Outcome State Fault Refusal)
    exec (.reservedA x) s = answer 0xA ∧ exec (.reservedB x) s = answer 0xB ∧ exec (.reservedC x) s = answer 0xC ∧
    exec (.reservedD x) s = answer 0xD ∧ exec (.reservedE x) s = answer 0xE ∧ exec (.reservedF x) s = answer 0xF

/-! ### Commands that emit frames -/

/-- READ_ID (41 R171; the spec's own decision D13): opcode and six dummy bytes, the six answers into `id[0..5]`. -/
def Obligations.ReadIdCapturesSixBytes : Prop :=
  ∀ (x : Operands) (s : State), s.Ready →
    exec (.readId x) s = .next { s with
      cmd := ⟨2, x.page, x.offset, x.size, x.buf⟩, dmaReqTx := false, dmaReqRx := false, txBuf := s.params.dummyByte,
      rxBuf := s.chipAhead 6,
      ident := ⟨s.chipAhead 1, s.chipAhead 2, s.chipAhead 3, s.chipAhead 4, s.chipAhead 5, s.chipAhead 6⟩,
      trace := s.trace ++ [.sel, .xfer s.cfg.readIdCmd (s.chipAhead 0)] ++
        (List.range 6).map (fun i => .xfer s.params.dummyByte (s.chipAhead (i + 1))) ++ [.desel],
      rspValid := true, chipScript := s.chipScript.drop 7, drawn := s.drawn + 7 }

/-- READ_STATUS (41 R178; the spec's own decision D10): one status frame and the decode of R177. -/
def Obligations.ReadStatusDecodesOneByte : Prop :=
  ∀ (x : Operands) (s : State), s.Ready → s.cfg.busyFieldsOk = true →
    exec (.readStatus x) s = .next { s with
      cmd := ⟨7, x.page, x.offset, x.size, x.buf⟩, dmaReqTx := false, dmaReqRx := false, txBuf := s.params.dummyByte,
      rxBuf := s.chipAhead 1, statusLatch := s.chipAhead 1,
      trace := s.trace ++ statusFrameEvents s s.cfg.statusCmd s.params.dummyByte 0,
      rspStatus := if readsBusy s.cfg (s.chipAhead 1) then .busy else .ready,
      rspValid := true, chipScript := s.chipScript.drop 2, drawn := s.drawn + 2 }

/-- ERASE_BLOCK (41 R172, with R170 for the enable frame): the enable frame unless the opcode is the sentinel, the erase frame with
the page's address, then status frames up to the first that is not busy or to the end of the budget (43 R230, R231; the spec's own
decision D9). With a budget of 0 it is `Timeout` with no status frame, and the busy fields need have no meaning: nothing is decoded
(R230, notes/assumptions/13). -/
def Obligations.EraseBlockErasesAndWaits : Prop :=
  ∀ (x : Operands) (s : State), s.Ready → (s.params.pollBudget = 0 ∨ s.cfg.busyFieldsOk = true) →
    let w := wrenDraws s.cfg.writeEnCmd
    let es := wrenEvents s s.cfg.writeEnCmd ++ headEvents s s.cfg.eraseCmd (pageAddress s x.page) w ++ [.desel]
    let d : Descriptor := ⟨3, x.page, x.offset, x.size, x.buf⟩
    (∀ k, k < s.params.pollBudget.toNat → (∀ i < k, pollBusy s (w + 4) i = true) → pollBusy s (w + 4) k = false →
      exec (.eraseBlock x) s =
        .next (afterPoll s d es (w + 4) (k + 1) (s.params.pollBudget - BitVec.ofNat 32 k) .ready)) ∧
    ((∀ i < s.params.pollBudget.toNat, pollBusy s (w + 4) i = true) →
      exec (.eraseBlock x) s = .next (afterPoll s d es (w + 4) s.params.pollBudget.toNat 0 .timeout))

/-- WAIT_READY (43 R230, R231, R232; the spec's own decisions D9, D10). With a budget of 0 it is `Timeout` with no status frame and
`status_latch` as before, whatever the busy fields (R230, notes/assumptions/13). -/
def Obligations.WaitReadyPollsWithinBudget : Prop :=
  ∀ (x : Operands) (s : State), s.Ready → (s.params.pollBudget = 0 ∨ s.cfg.busyFieldsOk = true) →
    let d : Descriptor := ⟨9, x.page, x.offset, x.size, x.buf⟩
    (∀ k, k < s.params.pollBudget.toNat → (∀ i < k, pollBusy s 0 i = true) → pollBusy s 0 k = false →
      exec (.waitReady x) s = .next (afterPoll s d [] 0 (k + 1) (s.params.pollBudget - BitVec.ofNat 32 k) .ready)) ∧
    ((∀ i < s.params.pollBudget.toNat, pollBusy s 0 i = true) →
      exec (.waitReady x) s = .next (afterPoll s d [] 0 s.params.pollBudget.toNat 0 .timeout))

/-- READ_PAGE (41 R173, 42 R212; the spec's own decision D11 for the result): the answers of the data phase in the buffer, every other
byte of memory as before. -/
def Obligations.ReadPageFillsTheBuffer : Prop :=
  ∀ (x : Operands) (s : State), s.Ready → s.mem.wf = true → s.BulkFits x.buf x.size →
    ∃ (m : Memory) (ks : List Nat),
      exec (.readPage x) s = .next { s with
        cmd := ⟨4, x.page, x.offset, x.size, x.buf⟩, dmaReqTx := true, dmaReqRx := true, txBuf := s.filler,
        rxBuf := s.chipAhead (4 + x.size.toNat),
        chTx := ⟨false, x.buf, false, 0, false⟩, chRx := ⟨false, x.buf + x.size, true, 0, false⟩,
        trace := s.trace ++ headEvents s s.cfg.readCmd (pageAddress s x.page) 0 ++
          [.xfer s.params.dummyByte (s.chipAhead 4)] ++
          (List.range x.size.toNat).map (fun i => .xfer s.filler (s.chipAhead (5 + i))) ++ [.desel],
        mem := m, rspStatus := .ready, rspValid := true,
        chipScript := s.chipScript.drop (5 + x.size.toNat), drawn := s.drawn + (5 + x.size.toNat), schedule := ks } ∧
      (∀ i < x.size.toNat, m.read (x.buf.toNat + i) = s.chipAhead (5 + i)) ∧
      ∀ a, a < x.buf.toNat ∨ x.buf.toNat + x.size.toNat ≤ a → m.read a = s.mem.read a

/-- WRITE_PAGE_ASYNC (41 R174, with R170 for the enable frame): the buffer's bytes on the bus in ascending order, host memory and the
response fields as before. -/
def Obligations.WritePageSendsTheBuffer : Prop :=
  ∀ (x : Operands) (s : State), s.Ready → s.BulkFits x.buf x.size →
    let w := wrenDraws s.cfg.writeEnCmd
    ∃ ks : List Nat,
      exec (.writePageAsync x) s = .next { s with
        cmd := ⟨6, x.page, x.offset, x.size, x.buf⟩, dmaReqTx := true, dmaReqRx := true,
        txBuf := s.mem.read (x.buf.toNat + (x.size.toNat - 1)), rxBuf := s.chipAhead (w + 3 + x.size.toNat),
        sink := s.chipAhead (w + 3 + x.size.toNat),
        chTx := ⟨false, x.buf + x.size, true, 0, false⟩, chRx := ⟨false, x.buf, false, 0, false⟩,
        trace := s.trace ++ wrenEvents s s.cfg.writeEnCmd ++ headEvents s s.cfg.writeCmd (pageAddress s x.page) w ++
          (List.range x.size.toNat).map
            (fun i => .xfer (s.mem.read (x.buf.toNat + i)) (s.chipAhead (w + 4 + i))) ++ [.desel],
        rspValid := true,
        chipScript := s.chipScript.drop (w + 4 + x.size.toNat), drawn := s.drawn + (w + 4 + x.size.toNat), schedule := ks }

/-! ### The frame rows of the table (run by themselves: the model's choice, notes/assumptions/8) -/

/-- F_WREN (41 R170): its frame, and nothing at all for the sentinel. -/
def Obligations.WriteEnableFrame : Prop :=
  ∀ (o : Byte) (s : State), s.Ready →
    (o ≠ 0xFF#8 → exec (.fWren o) s = .next { s with
      dmaReqTx := false, dmaReqRx := false, txBuf := o, rxBuf := s.chipAhead 0,
      trace := s.trace ++ [.sel, .xfer o (s.chipAhead 0), .desel],
      chipScript := s.chipScript.drop 1, drawn := s.drawn + 1 }) ∧
    (o = 0xFF#8 → exec (.fWren o) s = .next s)

/-- F_RDID (30_encoding R111): the six dummy bytes of its word, the six answers into `id[0..5]`. -/
def Obligations.IdentityFrame : Prop :=
  ∀ (o : Byte) (d : BitVec 48) (s : State), s.Ready →
    exec (.fRdid o d) s = .next { s with
      dmaReqTx := false, dmaReqRx := false, txBuf := byteAt d.toNat 0, rxBuf := s.chipAhead 6,
      ident := ⟨s.chipAhead 1, s.chipAhead 2, s.chipAhead 3, s.chipAhead 4, s.chipAhead 5, s.chipAhead 6⟩,
      trace := s.trace ++ [.sel, .xfer o (s.chipAhead 0)] ++
        (List.range 6).map (fun i => .xfer (byteAt d.toNat (40 - 8 * i)) (s.chipAhead (i + 1))) ++ [.desel],
      chipScript := s.chipScript.drop 7, drawn := s.drawn + 7 }

/-- F_ERASE (30_encoding R111, 41 R167). -/
def Obligations.EraseFrame : Prop :=
  ∀ (o : Byte) (a : WireAddr) (s : State), s.Ready →
    exec (.fErase o a) s = .next { s with
      dmaReqTx := false, dmaReqRx := false, txBuf := byteAt a.toNat 0, rxBuf := s.chipAhead 3,
      trace := s.trace ++ headEvents s o a.toNat 0 ++ [.desel],
      chipScript := s.chipScript.drop 4, drawn := s.drawn + 4 }

/-- F_STATUS (41 R175). -/
def Obligations.StatusFrame : Prop :=
  ∀ (o d : Byte) (s : State), s.Ready →
    exec (.fStatus o d) s = .next { s with
      dmaReqTx := false, dmaReqRx := false, txBuf := d, rxBuf := s.chipAhead 1, statusLatch := s.chipAhead 1,
      trace := s.trace ++ statusFrameEvents s o d 0,
      chipScript := s.chipScript.drop 2, drawn := s.drawn + 2 }

/-- F_READ (30_encoding R111): its head, its dummy byte and `n = cmd.size` filler bytes, the answers at `cmd.buf`. -/
def Obligations.ReadFrame : Prop :=
  ∀ (o : Byte) (a : WireAddr) (d : Byte) (s : State), s.Ready → s.mem.wf = true → s.BulkFits s.cmd.buf s.cmd.size →
    ∃ (m : Memory) (ks : List Nat),
      exec (.fRead o a d) s = .next { s with
        dmaReqTx := true, dmaReqRx := true, txBuf := s.filler, rxBuf := s.chipAhead (4 + s.cmd.size.toNat),
        chTx := ⟨false, s.cmd.buf, false, 0, false⟩, chRx := ⟨false, s.cmd.buf + s.cmd.size, true, 0, false⟩,
        trace := s.trace ++ headEvents s o a.toNat 0 ++ [.xfer d (s.chipAhead 4)] ++
          (List.range s.cmd.size.toNat).map (fun i => .xfer s.filler (s.chipAhead (5 + i))) ++ [.desel],
        mem := m, chipScript := s.chipScript.drop (5 + s.cmd.size.toNat), drawn := s.drawn + (5 + s.cmd.size.toNat),
        schedule := ks } ∧
      (∀ i < s.cmd.size.toNat, m.read (s.cmd.buf.toNat + i) = s.chipAhead (5 + i)) ∧
      ∀ j, j < s.cmd.buf.toNat ∨ s.cmd.buf.toNat + s.cmd.size.toNat ≤ j → m.read j = s.mem.read j

/-- F_WRITE (30_encoding R111): its head and the `n = cmd.size` bytes at `cmd.buf`. -/
def Obligations.WriteFrame : Prop :=
  ∀ (o : Byte) (a : WireAddr) (s : State), s.Ready → s.BulkFits s.cmd.buf s.cmd.size →
    ∃ ks : List Nat,
      exec (.fWrite o a) s = .next { s with
        dmaReqTx := true, dmaReqRx := true, txBuf := s.mem.read (s.cmd.buf.toNat + (s.cmd.size.toNat - 1)),
        rxBuf := s.chipAhead (3 + s.cmd.size.toNat), sink := s.chipAhead (3 + s.cmd.size.toNat),
        chTx := ⟨false, s.cmd.buf + s.cmd.size, true, 0, false⟩, chRx := ⟨false, s.cmd.buf, false, 0, false⟩,
        trace := s.trace ++ headEvents s o a.toNat 0 ++
          (List.range s.cmd.size.toNat).map
            (fun i => .xfer (s.mem.read (s.cmd.buf.toNat + i)) (s.chipAhead (4 + i))) ++ [.desel],
        chipScript := s.chipScript.drop (4 + s.cmd.size.toNat), drawn := s.drawn + (4 + s.cmd.size.toNat), schedule := ks }

/-! ### Where a command has no meaning -/

/-- Codes 1 to 9 before a successful INIT (40 R142; the spec's own decision D16), and the frames there (the model's choice,
notes/assumptions/8). -/
def Obligations.UninitialisedBlockRefuses : Prop :=
  ∀ (i : Instr) (s : State), s.phase = .idle → s.initDone = false →
    (∀ x, i ≠ .init x ∧ i ≠ .reservedA x ∧ i ≠ .reservedB x ∧ i ≠ .reservedC x ∧ i ≠ .reservedD x ∧ i ≠ .reservedE x ∧
      i ≠ .reservedF x) →
    exec i s = .refused .notInitialised

/-- A descriptor presented while a command runs (10_state R36; the spec's own decision D1). That a frame presented there is refused too
is the model's choice (notes/assumptions/8). -/
def Obligations.RunningBlockRefuses : Prop :=
  ∀ (i : Instr) (s : State), s.phase = .run → exec i s = .refused .presentedWhileRunning

/-- A record that passes the top of host memory (20_memory R71, 40 R143; the spec's own decision D15). -/
def Obligations.RecordPastTheTopIsRefused : Prop :=
  ∀ (x : Operands) (s : State), s.phase = .idle → 13 ≤ x.size.toNat → 2 ^ 32 < x.buf.toNat + 13 →
    exec (.init x) s = .refused .recordRange

/-- The operand check of the bulk commands (40 R150; the spec's own decision D15), and of the frames from the latched descriptor (the
model's choice, notes/assumptions/8). -/
def Obligations.BulkOperandsOutsideTheirRangeRefused : Prop :=
  ∀ (x : Operands) (s : State), s.phase = .idle → s.initDone = true →
    (¬ s.BulkFits x.buf x.size →
      exec (.readPage x) s = .refused .bulkOperands ∧ exec (.writePageAsync x) s = .refused .bulkOperands) ∧
    (¬ s.BulkFits s.cmd.buf s.cmd.size →
      ∀ o a d, exec (.fRead o a d) s = .refused .bulkOperands ∧ exec (.fWrite o a) s = .refused .bulkOperands)

/-- A status decode under busy fields without a meaning (41 R177; the spec's own decision D6); the whole command is refused
(95_test_vectors P5, notes/assumptions/13). With a zero budget the poller decodes nothing: there WAIT_READY and ERASE_BLOCK complete
(`WaitReadyPollsWithinBudget`, `EraseBlockErasesAndWaits`). -/
def Obligations.IllegalBusyFieldsRefused : Prop :=
  ∀ (x : Operands) (s : State), s.Ready → s.cfg.busyFieldsOk = false →
    exec (.readStatus x) s = .refused .busyFields ∧
    (s.params.pollBudget ≠ 0 →
      exec (.waitReady x) s = .refused .busyFields ∧ exec (.eraseBlock x) s = .refused .busyFields)

/-! ### Whole-machine rules -/

/-- A completed command leaves the block idle with an empty queue (10_state R21) and its response written (R52, R57). That a frame run
by itself ends idle too, and that nothing is said of a response there, is the model's choice (notes/assumptions/8). -/
def Obligations.CompletedInstructionIsIdle : Prop :=
  ∀ (i : Instr) (s t : State), exec i s = .next t →
    t.phase = .idle ∧ t.uq = [] ∧ (isCommand i = true → t.rspValid = true)

/-- No instruction writes `filler` (10_state R45). That the parameters stand in State and no step writes them is the model's choice
(notes/assumptions/2), and so is that Host's coming moves stand in `inbox` and an instruction leaves them (notes/assumptions/5). -/
def Obligations.ParametersAndFillerAreConstant : Prop :=
  ∀ (i : Instr) (s t : State), exec i s = .next t → t.params = s.params ∧ t.filler = s.filler ∧ t.inbox = s.inbox

/-- "no other command writes any field" of `cfg` than a successful INIT (10_state R23); nor does a frame run by itself (the model's
choice, notes/assumptions/8). -/
def Obligations.OnlyInitWritesTheConfiguration : Prop :=
  ∀ (i : Instr) (s t : State), exec i s = .next t → (∀ x, i ≠ .init x) → t.cfg = s.cfg

/-- `init_done` and `spi_en` are written by INIT and UNINIT alone (10_state R22, R38); a frame run by itself keeps them (the model's
choice, notes/assumptions/8). -/
def Obligations.OnlyInitAndUninitSwitchTheBlock : Prop :=
  ∀ (i : Instr) (s t : State), exec i s = .next t → (∀ x, i ≠ .init x ∧ i ≠ .uninit x) →
    t.initDone = s.initDone ∧ t.spiEn = s.spiEn

/-- `id[0..5]` is "Written only by `READ_ID`" (10_state R49), and by the F_RDID frame that READ_ID is, run by itself
(the model's choice, notes/assumptions/8). -/
def Obligations.OnlyReadIdWritesTheIdentity : Prop :=
  ∀ (i : Instr) (s t : State), exec i s = .next t → (∀ x, i ≠ .readId x) → (∀ o d, i ≠ .fRdid o d) → t.ident = s.ident

/-- Which commands write `rsp_status` and `rsp_flag` (10_state R50, R51). That a frame run by itself answers no response and keeps both
is the model's choice (notes/assumptions/8). -/
def Obligations.ResponseFieldsKeptByOtherCommands : Prop :=
  ∀ (i : Instr) (s t : State), exec i s = .next t →
    ((∃ x, i = .init x ∨ i = .uninit x ∨ i = .readId x ∨ i = .writePageAsync x ∨ i = .isBadBlockSupported x) ∨
      isCommand i = false → t.rspStatus = s.rspStatus) ∧
    ((∀ x, i ≠ .init x ∧ i ≠ .isBadBlockSupported x) → t.rspFlag = s.rspFlag)

/-- Of the commands READ_PAGE alone writes host memory, and only inside its buffer (20_memory R71). That F_READ run by itself writes at
`cmd.buf` of the latched descriptor is the model's choice (notes/assumptions/8). -/
def Obligations.MemoryOutsideTheBufferIsKept : Prop :=
  ∀ (i : Instr) (s t : State) (a : Nat), s.Inv → exec i s = .next t →
    (∀ x, i = .readPage x → a < x.buf.toNat ∨ x.buf.toNat + x.size.toNat ≤ a) →
    (∀ o b d, i = .fRead o b d → a < s.cmd.buf.toNat ∨ s.cmd.buf.toNat + s.cmd.size.toNat ≤ a) →
    t.mem.read a = s.mem.read a

/-- The trace only grows, and its exchanges take Chip's answers one by one in order: none is repeated, dropped or reordered
(20_memory R77, R78, R81). That the coming answers stand in State is the model's choice (notes/assumptions/3). -/
def Obligations.EveryExchangeTakesTheNextAnswer : Prop :=
  ∀ (i : Instr) (s t : State), exec i s = .next t →
    ∃ (es : List BusEvent) (n : Nat), t.trace = s.trace ++ es ∧ t.drawn = s.drawn + n ∧
      t.chipScript = s.chipScript.drop n ∧ answersOf es = (List.range n).map s.chipAhead

/-- The outcome does not depend on the order in which enabled agents go (42 R212, 60_exceptions R271). That the order is read from
`schedule` is the model's choice (notes/assumptions/4). -/
def Obligations.ScheduleNeverMatters : Prop :=
  ∀ (i : Instr) (s t : State) (ks : List Nat), s.Inv → exec i s = .next t →
    ∃ ks', exec i { s with schedule := ks } = .next { t with schedule := ks' }

/-- The elements R60 leaves without a value at reset are never read before they are written (10_state R34, R60), so the zeros of
notes/assumptions/6 do not matter: rewriting them changes no event, no byte of memory, no latched element and no result an instruction
writes. In a Ready block `cfg` and `cmd` are written (INIT latched both) and every other element is rewritten; in an uninitialised
block, as after reset, where INIT and the reserved codes run, `cfg` and `cmd` are rewritten too, and `cfg` comes out the same (a
successful INIT) or as it was on either side. For the frames run by themselves: the model's choice (notes/assumptions/8). -/
def Obligations.UnwrittenElementsAreNeverRead : Prop :=
  (∀ (i : Instr) (s t u : State), s.Ready → exec i s = .next t →
    ∃ t', exec i (rewriteUnwritten s u) = .next t' ∧ SameResults s u t t' ∧ t'.cfg = t.cfg) ∧
  (∀ (i : Instr) (s t u : State), s.AtRest → s.initDone = false → exec i s = .next t →
    ∃ t', exec i (rewriteUninitialised s u) = .next t' ∧ SameResults s u t t' ∧
      (t'.cfg = t.cfg ∨ t.cfg = s.cfg ∧ t'.cfg = u.cfg))

/-- `READ_STATUS_UNTIL_READY k`: "its bus traffic equals that of a poller with budget `k`" (30_encoding R131). With a
budget of 0 neither reads a status (notes/assumptions/13). -/
def Obligations.HostLoopMatchesThePoller : Prop :=
  ∀ (x y : Operands) (s : State), s.Ready → (s.params.pollBudget = 0 ∨ s.cfg.busyFieldsOk = true) →
    ∃ u t : State, readStatusUntilReady x s.params.pollBudget.toNat s = .next u ∧ exec (.waitReady y) s = .next t ∧
      u.trace = t.trace ∧ u.drawn = t.drawn ∧ u.mem = t.mem ∧
      (s.params.pollBudget ≠ 0 → (u.rspStatus = .ready ↔ t.rspStatus = .ready))

/-! ### Address formation, decode, the context file -/

/-- "An implementation with fixed-width registers gets the same `a`" (41 R165). -/
def Obligations.FixedWidthAddressIsTheSame : Prop :=
  ∀ (p : Word) (s : Byte) (o : Word),
    (wireAddress (linearAddress p s o)).toNat =
      ((p.toNat % 2 ^ 24) * 2 ^ min s.toNat 24 + o.toNat % 2 ^ 24) % 2 ^ 24

/-- Two pages whose linear addresses differ by a multiple of 2^24 name the same frame address (20_memory R72, 70 R319), and with a
shift of 24 or more every page does (41 R165). -/
def Obligations.PagesAlias : Prop :=
  ∀ (cfg : ChipConfig) (p q : Word),
    ((∃ k, p.toNat * 2 ^ cfg.pageOffset.toNat = q.toNat * 2 ^ cfg.pageOffset.toNat + k * 2 ^ 24) →
      frameAddress cfg p = frameAddress cfg q) ∧
    (24 ≤ cfg.pageOffset.toNat → frameAddress cfg p = 0)

/-- The status decode (41 R177; `refuse` outside the legal configurations is the spec's own decision D6). -/
def Obligations.StatusDecodeTable : Prop :=
  ∀ (cfg : ChipConfig) (st : Byte),
    (cfg.busyFieldsOk = true →
      decodeStatus cfg st = some (if readsBusy cfg st then FlashStatus.busy else FlashStatus.ready)) ∧
    (cfg.busyFieldsOk = false → decodeStatus cfg st = none)

/-- CONTEXT ONLY, not the block: the boot image selector (44 R251, R253). -/
def Obligations.BootSelectorPicksOneOfTwoImages : Prop :=
  ∀ (base : Nat) (b : Byte),
    (b = 0 → bootTarget base b = base + 0x4000) ∧ (b ≠ 0 → bootTarget base b = base + 0x22000) ∧
    ∃ r ∈ bootLayout, bootTarget base b = base + r.offset ∧ r.size = 120 * 1024
end

