-- ==== Sys2Proof/Laws/Memory.lean ====
section
/-! SUPPORT. The laws of host memory (20_memory R71): read after write, and that every write keeps the canonical form. -/

namespace Sys2Proof.Machine

theorem Memory.wfFrom_cons {lo a : Nat} {b : Byte} {m : Memory} :
    Memory.wfFrom lo ((a, b) :: m) = true ↔
      lo ≤ a ∧ a < Config.hostSpace ∧ b ≠ Memory.blank ∧ Memory.wfFrom (a + 1) m = true := by
  simp [Memory.wfFrom, Bool.and_eq_true, and_assoc]

theorem Memory.wfFrom_mono {lo lo' : Nat} (h : lo' ≤ lo) {m : Memory} (hm : Memory.wfFrom lo m = true) :
    Memory.wfFrom lo' m = true := by
  cases m with
  | nil => rfl
  | cons c m =>
    obtain ⟨a, b⟩ := c
    rw [Memory.wfFrom_cons] at hm ⊢
    exact ⟨h.trans hm.1, hm.2⟩

/-- Below its lowest address a canonical memory reads blank. -/
theorem Memory.read_below {lo k : Nat} {m : Memory} (hm : Memory.wfFrom lo m = true) (hk : k < lo) :
    Memory.read m k = Memory.blank := by
  induction m generalizing lo with
  | nil => rfl
  | cons c m ih =>
    obtain ⟨a, b⟩ := c
    rw [Memory.wfFrom_cons] at hm
    rw [Memory.read, if_neg (by omega)]
    exact ih hm.2.2.2 (by omega)

/-- A write keeps the canonical form. -/
theorem Memory.write_wfFrom {lo k : Nat} {m : Memory} (v : Byte) (hm : Memory.wfFrom lo m = true) (hk : lo ≤ k)
    (hs : k < Config.hostSpace) : Memory.wfFrom lo (Memory.write m k v) = true := by
  induction m generalizing lo with
  | nil =>
    rw [Memory.write]
    split
    · rfl
    · exact Memory.wfFrom_cons.2 ⟨hk, hs, ‹_›, rfl⟩
  | cons c m ih =>
    obtain ⟨a, b⟩ := c
    have h := Memory.wfFrom_cons.1 hm
    rw [Memory.write]
    split
    · split
      · exact hm
      · exact Memory.wfFrom_cons.2 ⟨hk, hs, ‹_›, Memory.wfFrom_cons.2 ⟨by omega, h.2⟩⟩
    · split
      · split
        · exact Memory.wfFrom_mono (by omega) h.2.2.2
        · exact Memory.wfFrom_cons.2 ⟨hk, hs, ‹_›, by subst_vars; exact h.2.2.2⟩
      · exact Memory.wfFrom_cons.2 ⟨h.1, h.2.1, h.2.2.1, ih h.2.2.2 (by omega)⟩

theorem Memory.write_wf {k : Nat} {m : Memory} (v : Byte) (hm : m.wf = true) (hs : k < Config.hostSpace) :
    (Memory.write m k v).wf = true :=
  Memory.write_wfFrom v hm (Nat.zero_le _) hs

/-- `MemWrite` through a 32-bit address keeps the canonical form. -/
theorem State.store_wf {s : State} (a : Word) (v : Byte) (hm : s.mem.wf = true) : (s.store a v).mem.wf = true :=
  Memory.write_wf v hm a.isLt

/-- A write leaves every other byte alone, in any memory. -/
theorem Memory.read_write_other {m : Memory} {k j : Nat} (v : Byte) (h : j ≠ k) :
    Memory.read (Memory.write m k v) j = Memory.read m j := by
  induction m with
  | nil =>
    rw [Memory.write]
    split
    · rfl
    · simp [Memory.read, h]
  | cons c m ih =>
    obtain ⟨a, b⟩ := c
    rw [Memory.write]
    split
    · split
      · rfl
      · rw [Memory.read, if_neg h]
    · split
      · subst_vars
        split <;> simp [Memory.read, h]
      · simp only [Memory.read, ih]

/-- A read after a write to the same place gives the byte written. -/
theorem Memory.read_write_same {lo k : Nat} {m : Memory} (v : Byte) (hm : Memory.wfFrom lo m = true) :
    Memory.read (Memory.write m k v) k = v := by
  induction m generalizing lo with
  | nil =>
    rw [Memory.write]
    split
    · simp [Memory.read, *]
    · simp [Memory.read]
  | cons c m ih =>
    obtain ⟨a, b⟩ := c
    have h := Memory.wfFrom_cons.1 hm
    rw [Memory.write]
    split
    · split
      · rw [Memory.read, if_neg (by omega), Memory.read_below h.2.2.2 (by omega), ‹v = _›]
      · simp [Memory.read]
    · split
      · split
        · rw [Memory.read_below h.2.2.2 (by omega), ‹v = _›]
        · simp [Memory.read]
      · rw [Memory.read, if_neg (by omega)]
        exact ih h.2.2.2

/-- Bytes written one after another from an address, as the receive channel writes them (20_memory R75 item 3). -/
def Memory.writeAll : Memory → Nat → List Byte → Memory
  | m, _, [] => m
  | m, a, b :: bs => Memory.writeAll (m.write a b) (a + 1) bs

theorem Memory.writeAll_wf {m : Memory} {a : Nat} {bs : List Byte} (hm : m.wf = true)
    (hs : a + bs.length ≤ Config.hostSpace) : (Memory.writeAll m a bs).wf = true := by
  induction bs generalizing m a with
  | nil => exact hm
  | cons b bs ih =>
    simp only [List.length_cons] at hs
    exact ih (Memory.write_wf b hm (by omega)) (by omega)

/-- Outside the bytes written, memory reads as before. -/
theorem Memory.read_writeAll_outside {m : Memory} {a j : Nat} {bs : List Byte} (h : j < a ∨ a + bs.length ≤ j) :
    Memory.read (Memory.writeAll m a bs) j = Memory.read m j := by
  induction bs generalizing m a with
  | nil => rfl
  | cons b bs ih =>
    simp only [List.length_cons] at h
    rw [Memory.writeAll, ih (by omega), Memory.read_write_other b (by omega)]

/-- The bytes written read back in order. -/
theorem Memory.read_writeAll_inside {m : Memory} {a i : Nat} {bs : List Byte} (hm : m.wf = true)
    (hs : a + bs.length ≤ Config.hostSpace) (hi : i < bs.length) :
    Memory.read (Memory.writeAll m a bs) (a + i) = bs[i] := by
  induction bs generalizing m a i with
  | nil => simp at hi
  | cons b bs ih =>
    simp only [List.length_cons] at hs hi
    rw [Memory.writeAll]
    cases i with
    | zero =>
      rw [Memory.read_writeAll_outside (by omega)]
      exact Memory.read_write_same (lo := 0) b hm
    | succ i =>
      have := ih (m := m.write a b) (a := a + 1) (i := i) (Memory.write_wf b hm (by omega)) (by omega) (by omega)
      rw [show a + (i + 1) = a + 1 + i by omega, this]
      rfl

end Sys2Proof.Machine
end

