-- ==== Sys2Proof/Laws/State.lean ====
section
/-! SUPPORT. One lemma per field per update of State: what each named update writes, and that it writes nothing else. -/

namespace Sys2Proof.Machine

/-- The state after `SEL` (41 R161). -/
def State.selected (s : State) : State := { s with cs := true, trace := s.trace ++ [.sel] }

/-- The state after `DESEL` (41 R162). -/
def State.deselected (s : State) : State := { s with cs := false, trace := s.trace ++ [.desel] }

/-- The state after `Xchg(b)` whose answer goes to `dst`: one exchange, requests off, flags as before (42 R200). -/
def State.exchanged (s : State) (b : Byte) (dst : Keep) : State :=
  { s.keep dst (s.chipAhead 0) with
    dmaReqTx := false, dmaReqRx := false, txBuf := b, txe := true, rxBuf := s.chipAhead 0, rxne := false,
    trace := s.trace ++ [.xfer b (s.chipAhead 0)], chipScript := s.chipScript.tail, drawn := s.drawn + 1 }

/-! ### `State.setUq` -/

@[simp] theorem State.setUq_phase (s : State) (q : List MicroOp) : (s.setUq q).phase = s.phase := rfl
@[simp] theorem State.setUq_uq (s : State) (q : List MicroOp) : (s.setUq q).uq = q := rfl
@[simp] theorem State.setUq_initDone (s : State) (q : List MicroOp) : (s.setUq q).initDone = s.initDone := rfl
@[simp] theorem State.setUq_cfg (s : State) (q : List MicroOp) : (s.setUq q).cfg = s.cfg := rfl
@[simp] theorem State.setUq_cmd (s : State) (q : List MicroOp) : (s.setUq q).cmd = s.cmd := rfl
@[simp] theorem State.setUq_cs (s : State) (q : List MicroOp) : (s.setUq q).cs = s.cs := rfl
@[simp] theorem State.setUq_spiEn (s : State) (q : List MicroOp) : (s.setUq q).spiEn = s.spiEn := rfl
@[simp] theorem State.setUq_txe (s : State) (q : List MicroOp) : (s.setUq q).txe = s.txe := rfl
@[simp] theorem State.setUq_txBuf (s : State) (q : List MicroOp) : (s.setUq q).txBuf = s.txBuf := rfl
@[simp] theorem State.setUq_rxne (s : State) (q : List MicroOp) : (s.setUq q).rxne = s.rxne := rfl
@[simp] theorem State.setUq_rxBuf (s : State) (q : List MicroOp) : (s.setUq q).rxBuf = s.rxBuf := rfl
@[simp] theorem State.setUq_dmaReqTx (s : State) (q : List MicroOp) : (s.setUq q).dmaReqTx = s.dmaReqTx := rfl
@[simp] theorem State.setUq_dmaReqRx (s : State) (q : List MicroOp) : (s.setUq q).dmaReqRx = s.dmaReqRx := rfl
@[simp] theorem State.setUq_chTx (s : State) (q : List MicroOp) : (s.setUq q).chTx = s.chTx := rfl
@[simp] theorem State.setUq_chRx (s : State) (q : List MicroOp) : (s.setUq q).chRx = s.chRx := rfl
@[simp] theorem State.setUq_sink (s : State) (q : List MicroOp) : (s.setUq q).sink = s.sink := rfl
@[simp] theorem State.setUq_filler (s : State) (q : List MicroOp) : (s.setUq q).filler = s.filler := rfl
@[simp] theorem State.setUq_pollCnt (s : State) (q : List MicroOp) : (s.setUq q).pollCnt = s.pollCnt := rfl
@[simp] theorem State.setUq_statusLatch (s : State) (q : List MicroOp) : (s.setUq q).statusLatch = s.statusLatch := rfl
@[simp] theorem State.setUq_ident (s : State) (q : List MicroOp) : (s.setUq q).ident = s.ident := rfl
@[simp] theorem State.setUq_rspStatus (s : State) (q : List MicroOp) : (s.setUq q).rspStatus = s.rspStatus := rfl
@[simp] theorem State.setUq_rspFlag (s : State) (q : List MicroOp) : (s.setUq q).rspFlag = s.rspFlag := rfl
@[simp] theorem State.setUq_rspValid (s : State) (q : List MicroOp) : (s.setUq q).rspValid = s.rspValid := rfl
@[simp] theorem State.setUq_trace (s : State) (q : List MicroOp) : (s.setUq q).trace = s.trace := rfl
@[simp] theorem State.setUq_mem (s : State) (q : List MicroOp) : (s.setUq q).mem = s.mem := rfl
@[simp] theorem State.setUq_pollResult (s : State) (q : List MicroOp) : (s.setUq q).pollResult = s.pollResult := rfl
@[simp] theorem State.setUq_params (s : State) (q : List MicroOp) : (s.setUq q).params = s.params := rfl
@[simp] theorem State.setUq_inbox (s : State) (q : List MicroOp) : (s.setUq q).inbox = s.inbox := rfl
@[simp] theorem State.setUq_chipScript (s : State) (q : List MicroOp) : (s.setUq q).chipScript = s.chipScript := rfl
@[simp] theorem State.setUq_drawn (s : State) (q : List MicroOp) : (s.setUq q).drawn = s.drawn := rfl
@[simp] theorem State.setUq_schedule (s : State) (q : List MicroOp) : (s.setUq q).schedule = s.schedule := rfl

/-! ### `State.emit` -/

@[simp] theorem State.emit_phase (s : State) (e : BusEvent) : (s.emit e).phase = s.phase := rfl
@[simp] theorem State.emit_uq (s : State) (e : BusEvent) : (s.emit e).uq = s.uq := rfl
@[simp] theorem State.emit_initDone (s : State) (e : BusEvent) : (s.emit e).initDone = s.initDone := rfl
@[simp] theorem State.emit_cfg (s : State) (e : BusEvent) : (s.emit e).cfg = s.cfg := rfl
@[simp] theorem State.emit_cmd (s : State) (e : BusEvent) : (s.emit e).cmd = s.cmd := rfl
@[simp] theorem State.emit_cs (s : State) (e : BusEvent) : (s.emit e).cs = s.cs := rfl
@[simp] theorem State.emit_spiEn (s : State) (e : BusEvent) : (s.emit e).spiEn = s.spiEn := rfl
@[simp] theorem State.emit_txe (s : State) (e : BusEvent) : (s.emit e).txe = s.txe := rfl
@[simp] theorem State.emit_txBuf (s : State) (e : BusEvent) : (s.emit e).txBuf = s.txBuf := rfl
@[simp] theorem State.emit_rxne (s : State) (e : BusEvent) : (s.emit e).rxne = s.rxne := rfl
@[simp] theorem State.emit_rxBuf (s : State) (e : BusEvent) : (s.emit e).rxBuf = s.rxBuf := rfl
@[simp] theorem State.emit_dmaReqTx (s : State) (e : BusEvent) : (s.emit e).dmaReqTx = s.dmaReqTx := rfl
@[simp] theorem State.emit_dmaReqRx (s : State) (e : BusEvent) : (s.emit e).dmaReqRx = s.dmaReqRx := rfl
@[simp] theorem State.emit_chTx (s : State) (e : BusEvent) : (s.emit e).chTx = s.chTx := rfl
@[simp] theorem State.emit_chRx (s : State) (e : BusEvent) : (s.emit e).chRx = s.chRx := rfl
@[simp] theorem State.emit_sink (s : State) (e : BusEvent) : (s.emit e).sink = s.sink := rfl
@[simp] theorem State.emit_filler (s : State) (e : BusEvent) : (s.emit e).filler = s.filler := rfl
@[simp] theorem State.emit_pollCnt (s : State) (e : BusEvent) : (s.emit e).pollCnt = s.pollCnt := rfl
@[simp] theorem State.emit_statusLatch (s : State) (e : BusEvent) : (s.emit e).statusLatch = s.statusLatch := rfl
@[simp] theorem State.emit_ident (s : State) (e : BusEvent) : (s.emit e).ident = s.ident := rfl
@[simp] theorem State.emit_rspStatus (s : State) (e : BusEvent) : (s.emit e).rspStatus = s.rspStatus := rfl
@[simp] theorem State.emit_rspFlag (s : State) (e : BusEvent) : (s.emit e).rspFlag = s.rspFlag := rfl
@[simp] theorem State.emit_rspValid (s : State) (e : BusEvent) : (s.emit e).rspValid = s.rspValid := rfl
@[simp] theorem State.emit_trace (s : State) (e : BusEvent) : (s.emit e).trace = s.trace ++ [e] := rfl
@[simp] theorem State.emit_mem (s : State) (e : BusEvent) : (s.emit e).mem = s.mem := rfl
@[simp] theorem State.emit_pollResult (s : State) (e : BusEvent) : (s.emit e).pollResult = s.pollResult := rfl
@[simp] theorem State.emit_params (s : State) (e : BusEvent) : (s.emit e).params = s.params := rfl
@[simp] theorem State.emit_inbox (s : State) (e : BusEvent) : (s.emit e).inbox = s.inbox := rfl
@[simp] theorem State.emit_chipScript (s : State) (e : BusEvent) : (s.emit e).chipScript = s.chipScript := rfl
@[simp] theorem State.emit_drawn (s : State) (e : BusEvent) : (s.emit e).drawn = s.drawn := rfl
@[simp] theorem State.emit_schedule (s : State) (e : BusEvent) : (s.emit e).schedule = s.schedule := rfl

/-! ### `State.store` -/

@[simp] theorem State.store_phase (s : State) (a : Word) (v : Byte) : (s.store a v).phase = s.phase := rfl
@[simp] theorem State.store_uq (s : State) (a : Word) (v : Byte) : (s.store a v).uq = s.uq := rfl
@[simp] theorem State.store_initDone (s : State) (a : Word) (v : Byte) : (s.store a v).initDone = s.initDone := rfl
@[simp] theorem State.store_cfg (s : State) (a : Word) (v : Byte) : (s.store a v).cfg = s.cfg := rfl
@[simp] theorem State.store_cmd (s : State) (a : Word) (v : Byte) : (s.store a v).cmd = s.cmd := rfl
@[simp] theorem State.store_cs (s : State) (a : Word) (v : Byte) : (s.store a v).cs = s.cs := rfl
@[simp] theorem State.store_spiEn (s : State) (a : Word) (v : Byte) : (s.store a v).spiEn = s.spiEn := rfl
@[simp] theorem State.store_txe (s : State) (a : Word) (v : Byte) : (s.store a v).txe = s.txe := rfl
@[simp] theorem State.store_txBuf (s : State) (a : Word) (v : Byte) : (s.store a v).txBuf = s.txBuf := rfl
@[simp] theorem State.store_rxne (s : State) (a : Word) (v : Byte) : (s.store a v).rxne = s.rxne := rfl
@[simp] theorem State.store_rxBuf (s : State) (a : Word) (v : Byte) : (s.store a v).rxBuf = s.rxBuf := rfl
@[simp] theorem State.store_dmaReqTx (s : State) (a : Word) (v : Byte) : (s.store a v).dmaReqTx = s.dmaReqTx := rfl
@[simp] theorem State.store_dmaReqRx (s : State) (a : Word) (v : Byte) : (s.store a v).dmaReqRx = s.dmaReqRx := rfl
@[simp] theorem State.store_chTx (s : State) (a : Word) (v : Byte) : (s.store a v).chTx = s.chTx := rfl
@[simp] theorem State.store_chRx (s : State) (a : Word) (v : Byte) : (s.store a v).chRx = s.chRx := rfl
@[simp] theorem State.store_sink (s : State) (a : Word) (v : Byte) : (s.store a v).sink = s.sink := rfl
@[simp] theorem State.store_filler (s : State) (a : Word) (v : Byte) : (s.store a v).filler = s.filler := rfl
@[simp] theorem State.store_pollCnt (s : State) (a : Word) (v : Byte) : (s.store a v).pollCnt = s.pollCnt := rfl
@[simp] theorem State.store_statusLatch (s : State) (a : Word) (v : Byte) : (s.store a v).statusLatch = s.statusLatch := rfl
@[simp] theorem State.store_ident (s : State) (a : Word) (v : Byte) : (s.store a v).ident = s.ident := rfl
@[simp] theorem State.store_rspStatus (s : State) (a : Word) (v : Byte) : (s.store a v).rspStatus = s.rspStatus := rfl
@[simp] theorem State.store_rspFlag (s : State) (a : Word) (v : Byte) : (s.store a v).rspFlag = s.rspFlag := rfl
@[simp] theorem State.store_rspValid (s : State) (a : Word) (v : Byte) : (s.store a v).rspValid = s.rspValid := rfl
@[simp] theorem State.store_trace (s : State) (a : Word) (v : Byte) : (s.store a v).trace = s.trace := rfl
@[simp] theorem State.store_mem (s : State) (a : Word) (v : Byte) : (s.store a v).mem = s.mem.write a.toNat v := rfl
@[simp] theorem State.store_pollResult (s : State) (a : Word) (v : Byte) : (s.store a v).pollResult = s.pollResult := rfl
@[simp] theorem State.store_params (s : State) (a : Word) (v : Byte) : (s.store a v).params = s.params := rfl
@[simp] theorem State.store_inbox (s : State) (a : Word) (v : Byte) : (s.store a v).inbox = s.inbox := rfl
@[simp] theorem State.store_chipScript (s : State) (a : Word) (v : Byte) : (s.store a v).chipScript = s.chipScript := rfl
@[simp] theorem State.store_drawn (s : State) (a : Word) (v : Byte) : (s.store a v).drawn = s.drawn := rfl
@[simp] theorem State.store_schedule (s : State) (a : Word) (v : Byte) : (s.store a v).schedule = s.schedule := rfl

/-! ### `State.accept` -/

@[simp] theorem State.accept_phase (s : State) (d : Descriptor) : (s.accept d).phase = .run := rfl
@[simp] theorem State.accept_uq (s : State) (d : Descriptor) : (s.accept d).uq = s.uq := rfl
@[simp] theorem State.accept_initDone (s : State) (d : Descriptor) : (s.accept d).initDone = s.initDone := rfl
@[simp] theorem State.accept_cfg (s : State) (d : Descriptor) : (s.accept d).cfg = s.cfg := rfl
@[simp] theorem State.accept_cmd (s : State) (d : Descriptor) : (s.accept d).cmd = d := rfl
@[simp] theorem State.accept_cs (s : State) (d : Descriptor) : (s.accept d).cs = s.cs := rfl
@[simp] theorem State.accept_spiEn (s : State) (d : Descriptor) : (s.accept d).spiEn = s.spiEn := rfl
@[simp] theorem State.accept_txe (s : State) (d : Descriptor) : (s.accept d).txe = s.txe := rfl
@[simp] theorem State.accept_txBuf (s : State) (d : Descriptor) : (s.accept d).txBuf = s.txBuf := rfl
@[simp] theorem State.accept_rxne (s : State) (d : Descriptor) : (s.accept d).rxne = s.rxne := rfl
@[simp] theorem State.accept_rxBuf (s : State) (d : Descriptor) : (s.accept d).rxBuf = s.rxBuf := rfl
@[simp] theorem State.accept_dmaReqTx (s : State) (d : Descriptor) : (s.accept d).dmaReqTx = s.dmaReqTx := rfl
@[simp] theorem State.accept_dmaReqRx (s : State) (d : Descriptor) : (s.accept d).dmaReqRx = s.dmaReqRx := rfl
@[simp] theorem State.accept_chTx (s : State) (d : Descriptor) : (s.accept d).chTx = s.chTx := rfl
@[simp] theorem State.accept_chRx (s : State) (d : Descriptor) : (s.accept d).chRx = s.chRx := rfl
@[simp] theorem State.accept_sink (s : State) (d : Descriptor) : (s.accept d).sink = s.sink := rfl
@[simp] theorem State.accept_filler (s : State) (d : Descriptor) : (s.accept d).filler = s.filler := rfl
@[simp] theorem State.accept_pollCnt (s : State) (d : Descriptor) : (s.accept d).pollCnt = s.pollCnt := rfl
@[simp] theorem State.accept_statusLatch (s : State) (d : Descriptor) : (s.accept d).statusLatch = s.statusLatch := rfl
@[simp] theorem State.accept_ident (s : State) (d : Descriptor) : (s.accept d).ident = s.ident := rfl
@[simp] theorem State.accept_rspStatus (s : State) (d : Descriptor) : (s.accept d).rspStatus = s.rspStatus := rfl
@[simp] theorem State.accept_rspFlag (s : State) (d : Descriptor) : (s.accept d).rspFlag = s.rspFlag := rfl
@[simp] theorem State.accept_rspValid (s : State) (d : Descriptor) : (s.accept d).rspValid = false := rfl
@[simp] theorem State.accept_trace (s : State) (d : Descriptor) : (s.accept d).trace = s.trace := rfl
@[simp] theorem State.accept_mem (s : State) (d : Descriptor) : (s.accept d).mem = s.mem := rfl
@[simp] theorem State.accept_pollResult (s : State) (d : Descriptor) : (s.accept d).pollResult = s.pollResult := rfl
@[simp] theorem State.accept_params (s : State) (d : Descriptor) : (s.accept d).params = s.params := rfl
@[simp] theorem State.accept_inbox (s : State) (d : Descriptor) : (s.accept d).inbox = s.inbox := rfl
@[simp] theorem State.accept_chipScript (s : State) (d : Descriptor) : (s.accept d).chipScript = s.chipScript := rfl
@[simp] theorem State.accept_drawn (s : State) (d : Descriptor) : (s.accept d).drawn = s.drawn := rfl
@[simp] theorem State.accept_schedule (s : State) (d : Descriptor) : (s.accept d).schedule = s.schedule := rfl

/-! ### `State.finish` -/

@[simp] theorem State.finish_phase (s : State) : s.finish.phase = .idle := rfl
@[simp] theorem State.finish_uq (s : State) : s.finish.uq = [] := rfl
@[simp] theorem State.finish_initDone (s : State) : s.finish.initDone = s.initDone := rfl
@[simp] theorem State.finish_cfg (s : State) : s.finish.cfg = s.cfg := rfl
@[simp] theorem State.finish_cmd (s : State) : s.finish.cmd = s.cmd := rfl
@[simp] theorem State.finish_cs (s : State) : s.finish.cs = s.cs := rfl
@[simp] theorem State.finish_spiEn (s : State) : s.finish.spiEn = s.spiEn := rfl
@[simp] theorem State.finish_txe (s : State) : s.finish.txe = s.txe := rfl
@[simp] theorem State.finish_txBuf (s : State) : s.finish.txBuf = s.txBuf := rfl
@[simp] theorem State.finish_rxne (s : State) : s.finish.rxne = s.rxne := rfl
@[simp] theorem State.finish_rxBuf (s : State) : s.finish.rxBuf = s.rxBuf := rfl
@[simp] theorem State.finish_dmaReqTx (s : State) : s.finish.dmaReqTx = s.dmaReqTx := rfl
@[simp] theorem State.finish_dmaReqRx (s : State) : s.finish.dmaReqRx = s.dmaReqRx := rfl
@[simp] theorem State.finish_chTx (s : State) : s.finish.chTx = s.chTx := rfl
@[simp] theorem State.finish_chRx (s : State) : s.finish.chRx = s.chRx := rfl
@[simp] theorem State.finish_sink (s : State) : s.finish.sink = s.sink := rfl
@[simp] theorem State.finish_filler (s : State) : s.finish.filler = s.filler := rfl
@[simp] theorem State.finish_pollCnt (s : State) : s.finish.pollCnt = s.pollCnt := rfl
@[simp] theorem State.finish_statusLatch (s : State) : s.finish.statusLatch = s.statusLatch := rfl
@[simp] theorem State.finish_ident (s : State) : s.finish.ident = s.ident := rfl
@[simp] theorem State.finish_rspStatus (s : State) : s.finish.rspStatus = s.rspStatus := rfl
@[simp] theorem State.finish_rspFlag (s : State) : s.finish.rspFlag = s.rspFlag := rfl
@[simp] theorem State.finish_rspValid (s : State) : s.finish.rspValid = true := rfl
@[simp] theorem State.finish_trace (s : State) : s.finish.trace = s.trace := rfl
@[simp] theorem State.finish_mem (s : State) : s.finish.mem = s.mem := rfl
@[simp] theorem State.finish_pollResult (s : State) : s.finish.pollResult = s.pollResult := rfl
@[simp] theorem State.finish_params (s : State) : s.finish.params = s.params := rfl
@[simp] theorem State.finish_inbox (s : State) : s.finish.inbox = s.inbox := rfl
@[simp] theorem State.finish_chipScript (s : State) : s.finish.chipScript = s.chipScript := rfl
@[simp] theorem State.finish_drawn (s : State) : s.finish.drawn = s.drawn := rfl
@[simp] theorem State.finish_schedule (s : State) : s.finish.schedule = s.schedule := rfl

/-! ### `State.clearDmaRequests` -/

@[simp] theorem State.clearDmaRequests_phase (s : State) : s.clearDmaRequests.phase = s.phase := rfl
@[simp] theorem State.clearDmaRequests_uq (s : State) : s.clearDmaRequests.uq = s.uq := rfl
@[simp] theorem State.clearDmaRequests_initDone (s : State) : s.clearDmaRequests.initDone = s.initDone := rfl
@[simp] theorem State.clearDmaRequests_cfg (s : State) : s.clearDmaRequests.cfg = s.cfg := rfl
@[simp] theorem State.clearDmaRequests_cmd (s : State) : s.clearDmaRequests.cmd = s.cmd := rfl
@[simp] theorem State.clearDmaRequests_cs (s : State) : s.clearDmaRequests.cs = s.cs := rfl
@[simp] theorem State.clearDmaRequests_spiEn (s : State) : s.clearDmaRequests.spiEn = s.spiEn := rfl
@[simp] theorem State.clearDmaRequests_txe (s : State) : s.clearDmaRequests.txe = s.txe := rfl
@[simp] theorem State.clearDmaRequests_txBuf (s : State) : s.clearDmaRequests.txBuf = s.txBuf := rfl
@[simp] theorem State.clearDmaRequests_rxne (s : State) : s.clearDmaRequests.rxne = s.rxne := rfl
@[simp] theorem State.clearDmaRequests_rxBuf (s : State) : s.clearDmaRequests.rxBuf = s.rxBuf := rfl
@[simp] theorem State.clearDmaRequests_dmaReqTx (s : State) : s.clearDmaRequests.dmaReqTx = false := rfl
@[simp] theorem State.clearDmaRequests_dmaReqRx (s : State) : s.clearDmaRequests.dmaReqRx = false := rfl
@[simp] theorem State.clearDmaRequests_chTx (s : State) : s.clearDmaRequests.chTx = s.chTx := rfl
@[simp] theorem State.clearDmaRequests_chRx (s : State) : s.clearDmaRequests.chRx = s.chRx := rfl
@[simp] theorem State.clearDmaRequests_sink (s : State) : s.clearDmaRequests.sink = s.sink := rfl
@[simp] theorem State.clearDmaRequests_filler (s : State) : s.clearDmaRequests.filler = s.filler := rfl
@[simp] theorem State.clearDmaRequests_pollCnt (s : State) : s.clearDmaRequests.pollCnt = s.pollCnt := rfl
@[simp] theorem State.clearDmaRequests_statusLatch (s : State) : s.clearDmaRequests.statusLatch = s.statusLatch := rfl
@[simp] theorem State.clearDmaRequests_ident (s : State) : s.clearDmaRequests.ident = s.ident := rfl
@[simp] theorem State.clearDmaRequests_rspStatus (s : State) : s.clearDmaRequests.rspStatus = s.rspStatus := rfl
@[simp] theorem State.clearDmaRequests_rspFlag (s : State) : s.clearDmaRequests.rspFlag = s.rspFlag := rfl
@[simp] theorem State.clearDmaRequests_rspValid (s : State) : s.clearDmaRequests.rspValid = s.rspValid := rfl
@[simp] theorem State.clearDmaRequests_trace (s : State) : s.clearDmaRequests.trace = s.trace := rfl
@[simp] theorem State.clearDmaRequests_mem (s : State) : s.clearDmaRequests.mem = s.mem := rfl
@[simp] theorem State.clearDmaRequests_pollResult (s : State) : s.clearDmaRequests.pollResult = s.pollResult := rfl
@[simp] theorem State.clearDmaRequests_params (s : State) : s.clearDmaRequests.params = s.params := rfl
@[simp] theorem State.clearDmaRequests_inbox (s : State) : s.clearDmaRequests.inbox = s.inbox := rfl
@[simp] theorem State.clearDmaRequests_chipScript (s : State) : s.clearDmaRequests.chipScript = s.chipScript := rfl
@[simp] theorem State.clearDmaRequests_drawn (s : State) : s.clearDmaRequests.drawn = s.drawn := rfl
@[simp] theorem State.clearDmaRequests_schedule (s : State) : s.clearDmaRequests.schedule = s.schedule := rfl

/-! ### `State.driveByte` -/

@[simp] theorem State.driveByte_phase (s : State) (b : Byte) : (s.driveByte b).phase = s.phase := rfl
@[simp] theorem State.driveByte_uq (s : State) (b : Byte) : (s.driveByte b).uq = s.uq := rfl
@[simp] theorem State.driveByte_initDone (s : State) (b : Byte) : (s.driveByte b).initDone = s.initDone := rfl
@[simp] theorem State.driveByte_cfg (s : State) (b : Byte) : (s.driveByte b).cfg = s.cfg := rfl
@[simp] theorem State.driveByte_cmd (s : State) (b : Byte) : (s.driveByte b).cmd = s.cmd := rfl
@[simp] theorem State.driveByte_cs (s : State) (b : Byte) : (s.driveByte b).cs = s.cs := rfl
@[simp] theorem State.driveByte_spiEn (s : State) (b : Byte) : (s.driveByte b).spiEn = s.spiEn := rfl
@[simp] theorem State.driveByte_txe (s : State) (b : Byte) : (s.driveByte b).txe = false := rfl
@[simp] theorem State.driveByte_txBuf (s : State) (b : Byte) : (s.driveByte b).txBuf = b := rfl
@[simp] theorem State.driveByte_rxne (s : State) (b : Byte) : (s.driveByte b).rxne = s.rxne := rfl
@[simp] theorem State.driveByte_rxBuf (s : State) (b : Byte) : (s.driveByte b).rxBuf = s.rxBuf := rfl
@[simp] theorem State.driveByte_dmaReqTx (s : State) (b : Byte) : (s.driveByte b).dmaReqTx = s.dmaReqTx := rfl
@[simp] theorem State.driveByte_dmaReqRx (s : State) (b : Byte) : (s.driveByte b).dmaReqRx = s.dmaReqRx := rfl
@[simp] theorem State.driveByte_chTx (s : State) (b : Byte) : (s.driveByte b).chTx = s.chTx := rfl
@[simp] theorem State.driveByte_chRx (s : State) (b : Byte) : (s.driveByte b).chRx = s.chRx := rfl
@[simp] theorem State.driveByte_sink (s : State) (b : Byte) : (s.driveByte b).sink = s.sink := rfl
@[simp] theorem State.driveByte_filler (s : State) (b : Byte) : (s.driveByte b).filler = s.filler := rfl
@[simp] theorem State.driveByte_pollCnt (s : State) (b : Byte) : (s.driveByte b).pollCnt = s.pollCnt := rfl
@[simp] theorem State.driveByte_statusLatch (s : State) (b : Byte) : (s.driveByte b).statusLatch = s.statusLatch := rfl
@[simp] theorem State.driveByte_ident (s : State) (b : Byte) : (s.driveByte b).ident = s.ident := rfl
@[simp] theorem State.driveByte_rspStatus (s : State) (b : Byte) : (s.driveByte b).rspStatus = s.rspStatus := rfl
@[simp] theorem State.driveByte_rspFlag (s : State) (b : Byte) : (s.driveByte b).rspFlag = s.rspFlag := rfl
@[simp] theorem State.driveByte_rspValid (s : State) (b : Byte) : (s.driveByte b).rspValid = s.rspValid := rfl
@[simp] theorem State.driveByte_trace (s : State) (b : Byte) : (s.driveByte b).trace = s.trace := rfl
@[simp] theorem State.driveByte_mem (s : State) (b : Byte) : (s.driveByte b).mem = s.mem := rfl
@[simp] theorem State.driveByte_pollResult (s : State) (b : Byte) : (s.driveByte b).pollResult = s.pollResult := rfl
@[simp] theorem State.driveByte_params (s : State) (b : Byte) : (s.driveByte b).params = s.params := rfl
@[simp] theorem State.driveByte_inbox (s : State) (b : Byte) : (s.driveByte b).inbox = s.inbox := rfl
@[simp] theorem State.driveByte_chipScript (s : State) (b : Byte) : (s.driveByte b).chipScript = s.chipScript := rfl
@[simp] theorem State.driveByte_drawn (s : State) (b : Byte) : (s.driveByte b).drawn = s.drawn := rfl
@[simp] theorem State.driveByte_schedule (s : State) (b : Byte) : (s.driveByte b).schedule = s.schedule := rfl

/-! ### `State.keep` -/

@[simp] theorem State.keep_phase (s : State) (dst : Keep) (v : Byte) : (s.keep dst v).phase = s.phase := by
  cases dst with
  | id i => cases i <;> rfl
  | _ => rfl
@[simp] theorem State.keep_uq (s : State) (dst : Keep) (v : Byte) : (s.keep dst v).uq = s.uq := by
  cases dst with
  | id i => cases i <;> rfl
  | _ => rfl
@[simp] theorem State.keep_initDone (s : State) (dst : Keep) (v : Byte) : (s.keep dst v).initDone = s.initDone := by
  cases dst with
  | id i => cases i <;> rfl
  | _ => rfl
@[simp] theorem State.keep_cfg (s : State) (dst : Keep) (v : Byte) : (s.keep dst v).cfg = s.cfg := by
  cases dst with
  | id i => cases i <;> rfl
  | _ => rfl
@[simp] theorem State.keep_cmd (s : State) (dst : Keep) (v : Byte) : (s.keep dst v).cmd = s.cmd := by
  cases dst with
  | id i => cases i <;> rfl
  | _ => rfl
@[simp] theorem State.keep_cs (s : State) (dst : Keep) (v : Byte) : (s.keep dst v).cs = s.cs := by
  cases dst with
  | id i => cases i <;> rfl
  | _ => rfl
@[simp] theorem State.keep_spiEn (s : State) (dst : Keep) (v : Byte) : (s.keep dst v).spiEn = s.spiEn := by
  cases dst with
  | id i => cases i <;> rfl
  | _ => rfl
@[simp] theorem State.keep_txe (s : State) (dst : Keep) (v : Byte) : (s.keep dst v).txe = s.txe := by
  cases dst with
  | id i => cases i <;> rfl
  | _ => rfl
@[simp] theorem State.keep_txBuf (s : State) (dst : Keep) (v : Byte) : (s.keep dst v).txBuf = s.txBuf := by
  cases dst with
  | id i => cases i <;> rfl
  | _ => rfl
@[simp] theorem State.keep_rxne (s : State) (dst : Keep) (v : Byte) : (s.keep dst v).rxne = s.rxne := by
  cases dst with
  | id i => cases i <;> rfl
  | _ => rfl
@[simp] theorem State.keep_rxBuf (s : State) (dst : Keep) (v : Byte) : (s.keep dst v).rxBuf = s.rxBuf := by
  cases dst with
  | id i => cases i <;> rfl
  | _ => rfl
@[simp] theorem State.keep_dmaReqTx (s : State) (dst : Keep) (v : Byte) : (s.keep dst v).dmaReqTx = s.dmaReqTx := by
  cases dst with
  | id i => cases i <;> rfl
  | _ => rfl
@[simp] theorem State.keep_dmaReqRx (s : State) (dst : Keep) (v : Byte) : (s.keep dst v).dmaReqRx = s.dmaReqRx := by
  cases dst with
  | id i => cases i <;> rfl
  | _ => rfl
@[simp] theorem State.keep_chTx (s : State) (dst : Keep) (v : Byte) : (s.keep dst v).chTx = s.chTx := by
  cases dst with
  | id i => cases i <;> rfl
  | _ => rfl
@[simp] theorem State.keep_chRx (s : State) (dst : Keep) (v : Byte) : (s.keep dst v).chRx = s.chRx := by
  cases dst with
  | id i => cases i <;> rfl
  | _ => rfl
@[simp] theorem State.keep_sink (s : State) (dst : Keep) (v : Byte) : (s.keep dst v).sink = s.sink := by
  cases dst with
  | id i => cases i <;> rfl
  | _ => rfl
@[simp] theorem State.keep_filler (s : State) (dst : Keep) (v : Byte) : (s.keep dst v).filler = s.filler := by
  cases dst with
  | id i => cases i <;> rfl
  | _ => rfl
@[simp] theorem State.keep_pollCnt (s : State) (dst : Keep) (v : Byte) : (s.keep dst v).pollCnt = s.pollCnt := by
  cases dst with
  | id i => cases i <;> rfl
  | _ => rfl
@[simp] theorem State.keep_rspStatus (s : State) (dst : Keep) (v : Byte) : (s.keep dst v).rspStatus = s.rspStatus := by
  cases dst with
  | id i => cases i <;> rfl
  | _ => rfl
@[simp] theorem State.keep_rspFlag (s : State) (dst : Keep) (v : Byte) : (s.keep dst v).rspFlag = s.rspFlag := by
  cases dst with
  | id i => cases i <;> rfl
  | _ => rfl
@[simp] theorem State.keep_rspValid (s : State) (dst : Keep) (v : Byte) : (s.keep dst v).rspValid = s.rspValid := by
  cases dst with
  | id i => cases i <;> rfl
  | _ => rfl
@[simp] theorem State.keep_trace (s : State) (dst : Keep) (v : Byte) : (s.keep dst v).trace = s.trace := by
  cases dst with
  | id i => cases i <;> rfl
  | _ => rfl
@[simp] theorem State.keep_mem (s : State) (dst : Keep) (v : Byte) : (s.keep dst v).mem = s.mem := by
  cases dst with
  | id i => cases i <;> rfl
  | _ => rfl
@[simp] theorem State.keep_pollResult (s : State) (dst : Keep) (v : Byte) : (s.keep dst v).pollResult = s.pollResult := by
  cases dst with
  | id i => cases i <;> rfl
  | _ => rfl
@[simp] theorem State.keep_params (s : State) (dst : Keep) (v : Byte) : (s.keep dst v).params = s.params := by
  cases dst with
  | id i => cases i <;> rfl
  | _ => rfl
@[simp] theorem State.keep_inbox (s : State) (dst : Keep) (v : Byte) : (s.keep dst v).inbox = s.inbox := by
  cases dst with
  | id i => cases i <;> rfl
  | _ => rfl
@[simp] theorem State.keep_chipScript (s : State) (dst : Keep) (v : Byte) : (s.keep dst v).chipScript = s.chipScript := by
  cases dst with
  | id i => cases i <;> rfl
  | _ => rfl
@[simp] theorem State.keep_drawn (s : State) (dst : Keep) (v : Byte) : (s.keep dst v).drawn = s.drawn := by
  cases dst with
  | id i => cases i <;> rfl
  | _ => rfl
@[simp] theorem State.keep_schedule (s : State) (dst : Keep) (v : Byte) : (s.keep dst v).schedule = s.schedule := by
  cases dst with
  | id i => cases i <;> rfl
  | _ => rfl

/-! ### `State.takeByte` -/

@[simp] theorem State.takeByte_phase (s : State) (dst : Keep) : (s.takeByte dst).phase = s.phase := by
  simp [State.takeByte]
@[simp] theorem State.takeByte_uq (s : State) (dst : Keep) : (s.takeByte dst).uq = s.uq := by
  simp [State.takeByte]
@[simp] theorem State.takeByte_initDone (s : State) (dst : Keep) : (s.takeByte dst).initDone = s.initDone := by
  simp [State.takeByte]
@[simp] theorem State.takeByte_cfg (s : State) (dst : Keep) : (s.takeByte dst).cfg = s.cfg := by
  simp [State.takeByte]
@[simp] theorem State.takeByte_cmd (s : State) (dst : Keep) : (s.takeByte dst).cmd = s.cmd := by
  simp [State.takeByte]
@[simp] theorem State.takeByte_cs (s : State) (dst : Keep) : (s.takeByte dst).cs = s.cs := by
  simp [State.takeByte]
@[simp] theorem State.takeByte_spiEn (s : State) (dst : Keep) : (s.takeByte dst).spiEn = s.spiEn := by
  simp [State.takeByte]
@[simp] theorem State.takeByte_txe (s : State) (dst : Keep) : (s.takeByte dst).txe = s.txe := by
  simp [State.takeByte]
@[simp] theorem State.takeByte_txBuf (s : State) (dst : Keep) : (s.takeByte dst).txBuf = s.txBuf := by
  simp [State.takeByte]
@[simp] theorem State.takeByte_rxne (s : State) (dst : Keep) : (s.takeByte dst).rxne = false := rfl
@[simp] theorem State.takeByte_rxBuf (s : State) (dst : Keep) : (s.takeByte dst).rxBuf = s.rxBuf := by
  simp [State.takeByte]
@[simp] theorem State.takeByte_dmaReqTx (s : State) (dst : Keep) : (s.takeByte dst).dmaReqTx = s.dmaReqTx := by
  simp [State.takeByte]
@[simp] theorem State.takeByte_dmaReqRx (s : State) (dst : Keep) : (s.takeByte dst).dmaReqRx = s.dmaReqRx := by
  simp [State.takeByte]
@[simp] theorem State.takeByte_chTx (s : State) (dst : Keep) : (s.takeByte dst).chTx = s.chTx := by
  simp [State.takeByte]
@[simp] theorem State.takeByte_chRx (s : State) (dst : Keep) : (s.takeByte dst).chRx = s.chRx := by
  simp [State.takeByte]
@[simp] theorem State.takeByte_sink (s : State) (dst : Keep) : (s.takeByte dst).sink = s.sink := by
  simp [State.takeByte]
@[simp] theorem State.takeByte_filler (s : State) (dst : Keep) : (s.takeByte dst).filler = s.filler := by
  simp [State.takeByte]
@[simp] theorem State.takeByte_pollCnt (s : State) (dst : Keep) : (s.takeByte dst).pollCnt = s.pollCnt := by
  simp [State.takeByte]
@[simp] theorem State.takeByte_statusLatch (s : State) (dst : Keep) : (s.takeByte dst).statusLatch = (s.keep dst s.rxBuf).statusLatch := rfl
@[simp] theorem State.takeByte_ident (s : State) (dst : Keep) : (s.takeByte dst).ident = (s.keep dst s.rxBuf).ident := rfl
@[simp] theorem State.takeByte_rspStatus (s : State) (dst : Keep) : (s.takeByte dst).rspStatus = s.rspStatus := by
  simp [State.takeByte]
@[simp] theorem State.takeByte_rspFlag (s : State) (dst : Keep) : (s.takeByte dst).rspFlag = s.rspFlag := by
  simp [State.takeByte]
@[simp] theorem State.takeByte_rspValid (s : State) (dst : Keep) : (s.takeByte dst).rspValid = s.rspValid := by
  simp [State.takeByte]
@[simp] theorem State.takeByte_trace (s : State) (dst : Keep) : (s.takeByte dst).trace = s.trace := by
  simp [State.takeByte]
@[simp] theorem State.takeByte_mem (s : State) (dst : Keep) : (s.takeByte dst).mem = s.mem := by
  simp [State.takeByte]
@[simp] theorem State.takeByte_pollResult (s : State) (dst : Keep) : (s.takeByte dst).pollResult = s.pollResult := by
  simp [State.takeByte]
@[simp] theorem State.takeByte_params (s : State) (dst : Keep) : (s.takeByte dst).params = s.params := by
  simp [State.takeByte]
@[simp] theorem State.takeByte_inbox (s : State) (dst : Keep) : (s.takeByte dst).inbox = s.inbox := by
  simp [State.takeByte]
@[simp] theorem State.takeByte_chipScript (s : State) (dst : Keep) : (s.takeByte dst).chipScript = s.chipScript := by
  simp [State.takeByte]
@[simp] theorem State.takeByte_drawn (s : State) (dst : Keep) : (s.takeByte dst).drawn = s.drawn := by
  simp [State.takeByte]
@[simp] theorem State.takeByte_schedule (s : State) (dst : Keep) : (s.takeByte dst).schedule = s.schedule := by
  simp [State.takeByte]

/-! ### `State.shift` -/

@[simp] theorem State.shift_phase (s : State) : s.shift.phase = s.phase := rfl
@[simp] theorem State.shift_uq (s : State) : s.shift.uq = s.uq := rfl
@[simp] theorem State.shift_initDone (s : State) : s.shift.initDone = s.initDone := rfl
@[simp] theorem State.shift_cfg (s : State) : s.shift.cfg = s.cfg := rfl
@[simp] theorem State.shift_cmd (s : State) : s.shift.cmd = s.cmd := rfl
@[simp] theorem State.shift_cs (s : State) : s.shift.cs = s.cs := rfl
@[simp] theorem State.shift_spiEn (s : State) : s.shift.spiEn = s.spiEn := rfl
@[simp] theorem State.shift_txe (s : State) : s.shift.txe = true := rfl
@[simp] theorem State.shift_txBuf (s : State) : s.shift.txBuf = s.txBuf := rfl
@[simp] theorem State.shift_rxne (s : State) : s.shift.rxne = true := rfl
@[simp] theorem State.shift_rxBuf (s : State) : s.shift.rxBuf = s.chipAhead 0 := rfl
@[simp] theorem State.shift_dmaReqTx (s : State) : s.shift.dmaReqTx = s.dmaReqTx := rfl
@[simp] theorem State.shift_dmaReqRx (s : State) : s.shift.dmaReqRx = s.dmaReqRx := rfl
@[simp] theorem State.shift_chTx (s : State) : s.shift.chTx = s.chTx := rfl
@[simp] theorem State.shift_chRx (s : State) : s.shift.chRx = s.chRx := rfl
@[simp] theorem State.shift_sink (s : State) : s.shift.sink = s.sink := rfl
@[simp] theorem State.shift_filler (s : State) : s.shift.filler = s.filler := rfl
@[simp] theorem State.shift_pollCnt (s : State) : s.shift.pollCnt = s.pollCnt := rfl
@[simp] theorem State.shift_statusLatch (s : State) : s.shift.statusLatch = s.statusLatch := rfl
@[simp] theorem State.shift_ident (s : State) : s.shift.ident = s.ident := rfl
@[simp] theorem State.shift_rspStatus (s : State) : s.shift.rspStatus = s.rspStatus := rfl
@[simp] theorem State.shift_rspFlag (s : State) : s.shift.rspFlag = s.rspFlag := rfl
@[simp] theorem State.shift_rspValid (s : State) : s.shift.rspValid = s.rspValid := rfl
@[simp] theorem State.shift_trace (s : State) : s.shift.trace = s.trace ++ [.xfer s.txBuf (s.chipAhead 0)] := rfl
@[simp] theorem State.shift_mem (s : State) : s.shift.mem = s.mem := rfl
@[simp] theorem State.shift_pollResult (s : State) : s.shift.pollResult = s.pollResult := rfl
@[simp] theorem State.shift_params (s : State) : s.shift.params = s.params := rfl
@[simp] theorem State.shift_inbox (s : State) : s.shift.inbox = s.inbox := rfl
@[simp] theorem State.shift_chipScript (s : State) : s.shift.chipScript = s.chipScript.tail := rfl
@[simp] theorem State.shift_drawn (s : State) : s.shift.drawn = s.drawn + 1 := rfl
@[simp] theorem State.shift_schedule (s : State) : s.shift.schedule = s.schedule := rfl

/-! ### `State.dmaTxMove` -/

@[simp] theorem State.dmaTxMove_phase (s : State) : s.dmaTxMove.phase = s.phase := rfl
@[simp] theorem State.dmaTxMove_uq (s : State) : s.dmaTxMove.uq = s.uq := rfl
@[simp] theorem State.dmaTxMove_initDone (s : State) : s.dmaTxMove.initDone = s.initDone := rfl
@[simp] theorem State.dmaTxMove_cfg (s : State) : s.dmaTxMove.cfg = s.cfg := rfl
@[simp] theorem State.dmaTxMove_cmd (s : State) : s.dmaTxMove.cmd = s.cmd := rfl
@[simp] theorem State.dmaTxMove_cs (s : State) : s.dmaTxMove.cs = s.cs := rfl
@[simp] theorem State.dmaTxMove_spiEn (s : State) : s.dmaTxMove.spiEn = s.spiEn := rfl
@[simp] theorem State.dmaTxMove_txe (s : State) : s.dmaTxMove.txe = false := rfl
@[simp] theorem State.dmaTxMove_txBuf (s : State) : s.dmaTxMove.txBuf = s.dmaTxSource := rfl
@[simp] theorem State.dmaTxMove_rxne (s : State) : s.dmaTxMove.rxne = s.rxne := rfl
@[simp] theorem State.dmaTxMove_rxBuf (s : State) : s.dmaTxMove.rxBuf = s.rxBuf := rfl
@[simp] theorem State.dmaTxMove_dmaReqTx (s : State) : s.dmaTxMove.dmaReqTx = s.dmaReqTx := rfl
@[simp] theorem State.dmaTxMove_dmaReqRx (s : State) : s.dmaTxMove.dmaReqRx = s.dmaReqRx := rfl
@[simp] theorem State.dmaTxMove_chTx (s : State) : s.dmaTxMove.chTx = s.chTx.advance := rfl
@[simp] theorem State.dmaTxMove_chRx (s : State) : s.dmaTxMove.chRx = s.chRx := rfl
@[simp] theorem State.dmaTxMove_sink (s : State) : s.dmaTxMove.sink = s.sink := rfl
@[simp] theorem State.dmaTxMove_filler (s : State) : s.dmaTxMove.filler = s.filler := rfl
@[simp] theorem State.dmaTxMove_pollCnt (s : State) : s.dmaTxMove.pollCnt = s.pollCnt := rfl
@[simp] theorem State.dmaTxMove_statusLatch (s : State) : s.dmaTxMove.statusLatch = s.statusLatch := rfl
@[simp] theorem State.dmaTxMove_ident (s : State) : s.dmaTxMove.ident = s.ident := rfl
@[simp] theorem State.dmaTxMove_rspStatus (s : State) : s.dmaTxMove.rspStatus = s.rspStatus := rfl
@[simp] theorem State.dmaTxMove_rspFlag (s : State) : s.dmaTxMove.rspFlag = s.rspFlag := rfl
@[simp] theorem State.dmaTxMove_rspValid (s : State) : s.dmaTxMove.rspValid = s.rspValid := rfl
@[simp] theorem State.dmaTxMove_trace (s : State) : s.dmaTxMove.trace = s.trace := rfl
@[simp] theorem State.dmaTxMove_mem (s : State) : s.dmaTxMove.mem = s.mem := rfl
@[simp] theorem State.dmaTxMove_pollResult (s : State) : s.dmaTxMove.pollResult = s.pollResult := rfl
@[simp] theorem State.dmaTxMove_params (s : State) : s.dmaTxMove.params = s.params := rfl
@[simp] theorem State.dmaTxMove_inbox (s : State) : s.dmaTxMove.inbox = s.inbox := rfl
@[simp] theorem State.dmaTxMove_chipScript (s : State) : s.dmaTxMove.chipScript = s.chipScript := rfl
@[simp] theorem State.dmaTxMove_drawn (s : State) : s.dmaTxMove.drawn = s.drawn := rfl
@[simp] theorem State.dmaTxMove_schedule (s : State) : s.dmaTxMove.schedule = s.schedule := rfl

/-! ### `State.dmaRxMove` -/

@[simp] theorem State.dmaRxMove_phase (s : State) : s.dmaRxMove.phase = s.phase := by
  by_cases h : s.chRx.inc <;> simp [State.dmaRxMove, State.store, h]
@[simp] theorem State.dmaRxMove_uq (s : State) : s.dmaRxMove.uq = s.uq := by
  by_cases h : s.chRx.inc <;> simp [State.dmaRxMove, State.store, h]
@[simp] theorem State.dmaRxMove_initDone (s : State) : s.dmaRxMove.initDone = s.initDone := by
  by_cases h : s.chRx.inc <;> simp [State.dmaRxMove, State.store, h]
@[simp] theorem State.dmaRxMove_cfg (s : State) : s.dmaRxMove.cfg = s.cfg := by
  by_cases h : s.chRx.inc <;> simp [State.dmaRxMove, State.store, h]
@[simp] theorem State.dmaRxMove_cmd (s : State) : s.dmaRxMove.cmd = s.cmd := by
  by_cases h : s.chRx.inc <;> simp [State.dmaRxMove, State.store, h]
@[simp] theorem State.dmaRxMove_cs (s : State) : s.dmaRxMove.cs = s.cs := by
  by_cases h : s.chRx.inc <;> simp [State.dmaRxMove, State.store, h]
@[simp] theorem State.dmaRxMove_spiEn (s : State) : s.dmaRxMove.spiEn = s.spiEn := by
  by_cases h : s.chRx.inc <;> simp [State.dmaRxMove, State.store, h]
@[simp] theorem State.dmaRxMove_txe (s : State) : s.dmaRxMove.txe = s.txe := by
  by_cases h : s.chRx.inc <;> simp [State.dmaRxMove, State.store, h]
@[simp] theorem State.dmaRxMove_txBuf (s : State) : s.dmaRxMove.txBuf = s.txBuf := by
  by_cases h : s.chRx.inc <;> simp [State.dmaRxMove, State.store, h]
@[simp] theorem State.dmaRxMove_rxne (s : State) : s.dmaRxMove.rxne = false := by
  by_cases h : s.chRx.inc <;> simp [State.dmaRxMove, State.store, h]
@[simp] theorem State.dmaRxMove_rxBuf (s : State) : s.dmaRxMove.rxBuf = s.rxBuf := by
  by_cases h : s.chRx.inc <;> simp [State.dmaRxMove, State.store, h]
@[simp] theorem State.dmaRxMove_dmaReqTx (s : State) : s.dmaRxMove.dmaReqTx = s.dmaReqTx := by
  by_cases h : s.chRx.inc <;> simp [State.dmaRxMove, State.store, h]
@[simp] theorem State.dmaRxMove_dmaReqRx (s : State) : s.dmaRxMove.dmaReqRx = s.dmaReqRx := by
  by_cases h : s.chRx.inc <;> simp [State.dmaRxMove, State.store, h]
@[simp] theorem State.dmaRxMove_chTx (s : State) : s.dmaRxMove.chTx = s.chTx := by
  by_cases h : s.chRx.inc <;> simp [State.dmaRxMove, State.store, h]
@[simp] theorem State.dmaRxMove_chRx (s : State) : s.dmaRxMove.chRx = s.chRx.advance := by
  by_cases h : s.chRx.inc <;> simp [State.dmaRxMove, State.store, h]
@[simp] theorem State.dmaRxMove_sink (s : State) : s.dmaRxMove.sink = if s.chRx.inc then s.sink else s.rxBuf := by
  by_cases h : s.chRx.inc <;> simp [State.dmaRxMove, State.store, h]
@[simp] theorem State.dmaRxMove_filler (s : State) : s.dmaRxMove.filler = s.filler := by
  by_cases h : s.chRx.inc <;> simp [State.dmaRxMove, State.store, h]
@[simp] theorem State.dmaRxMove_pollCnt (s : State) : s.dmaRxMove.pollCnt = s.pollCnt := by
  by_cases h : s.chRx.inc <;> simp [State.dmaRxMove, State.store, h]
@[simp] theorem State.dmaRxMove_statusLatch (s : State) : s.dmaRxMove.statusLatch = s.statusLatch := by
  by_cases h : s.chRx.inc <;> simp [State.dmaRxMove, State.store, h]
@[simp] theorem State.dmaRxMove_ident (s : State) : s.dmaRxMove.ident = s.ident := by
  by_cases h : s.chRx.inc <;> simp [State.dmaRxMove, State.store, h]
@[simp] theorem State.dmaRxMove_rspStatus (s : State) : s.dmaRxMove.rspStatus = s.rspStatus := by
  by_cases h : s.chRx.inc <;> simp [State.dmaRxMove, State.store, h]
@[simp] theorem State.dmaRxMove_rspFlag (s : State) : s.dmaRxMove.rspFlag = s.rspFlag := by
  by_cases h : s.chRx.inc <;> simp [State.dmaRxMove, State.store, h]
@[simp] theorem State.dmaRxMove_rspValid (s : State) : s.dmaRxMove.rspValid = s.rspValid := by
  by_cases h : s.chRx.inc <;> simp [State.dmaRxMove, State.store, h]
@[simp] theorem State.dmaRxMove_trace (s : State) : s.dmaRxMove.trace = s.trace := by
  by_cases h : s.chRx.inc <;> simp [State.dmaRxMove, State.store, h]
@[simp] theorem State.dmaRxMove_mem (s : State) : s.dmaRxMove.mem = if s.chRx.inc then s.mem.write s.chRx.addr.toNat s.rxBuf else s.mem := by
  by_cases h : s.chRx.inc <;> simp [State.dmaRxMove, State.store, h]
@[simp] theorem State.dmaRxMove_pollResult (s : State) : s.dmaRxMove.pollResult = s.pollResult := by
  by_cases h : s.chRx.inc <;> simp [State.dmaRxMove, State.store, h]
@[simp] theorem State.dmaRxMove_params (s : State) : s.dmaRxMove.params = s.params := by
  by_cases h : s.chRx.inc <;> simp [State.dmaRxMove, State.store, h]
@[simp] theorem State.dmaRxMove_inbox (s : State) : s.dmaRxMove.inbox = s.inbox := by
  by_cases h : s.chRx.inc <;> simp [State.dmaRxMove, State.store, h]
@[simp] theorem State.dmaRxMove_chipScript (s : State) : s.dmaRxMove.chipScript = s.chipScript := by
  by_cases h : s.chRx.inc <;> simp [State.dmaRxMove, State.store, h]
@[simp] theorem State.dmaRxMove_drawn (s : State) : s.dmaRxMove.drawn = s.drawn := by
  by_cases h : s.chRx.inc <;> simp [State.dmaRxMove, State.store, h]
@[simp] theorem State.dmaRxMove_schedule (s : State) : s.dmaRxMove.schedule = s.schedule := by
  by_cases h : s.chRx.inc <;> simp [State.dmaRxMove, State.store, h]

/-! ### `State.armBulk` -/

@[simp] theorem State.armBulk_phase (s : State) (tx : Bool) (buf n : Word) : (s.armBulk tx buf n).phase = s.phase := rfl
@[simp] theorem State.armBulk_uq (s : State) (tx : Bool) (buf n : Word) : (s.armBulk tx buf n).uq = s.uq := rfl
@[simp] theorem State.armBulk_initDone (s : State) (tx : Bool) (buf n : Word) : (s.armBulk tx buf n).initDone = s.initDone := rfl
@[simp] theorem State.armBulk_cfg (s : State) (tx : Bool) (buf n : Word) : (s.armBulk tx buf n).cfg = s.cfg := rfl
@[simp] theorem State.armBulk_cmd (s : State) (tx : Bool) (buf n : Word) : (s.armBulk tx buf n).cmd = s.cmd := rfl
@[simp] theorem State.armBulk_cs (s : State) (tx : Bool) (buf n : Word) : (s.armBulk tx buf n).cs = s.cs := rfl
@[simp] theorem State.armBulk_spiEn (s : State) (tx : Bool) (buf n : Word) : (s.armBulk tx buf n).spiEn = s.spiEn := rfl
@[simp] theorem State.armBulk_txe (s : State) (tx : Bool) (buf n : Word) : (s.armBulk tx buf n).txe = s.txe := rfl
@[simp] theorem State.armBulk_txBuf (s : State) (tx : Bool) (buf n : Word) : (s.armBulk tx buf n).txBuf = s.txBuf := rfl
@[simp] theorem State.armBulk_rxne (s : State) (tx : Bool) (buf n : Word) : (s.armBulk tx buf n).rxne = s.rxne := rfl
@[simp] theorem State.armBulk_rxBuf (s : State) (tx : Bool) (buf n : Word) : (s.armBulk tx buf n).rxBuf = s.rxBuf := rfl
@[simp] theorem State.armBulk_dmaReqTx (s : State) (tx : Bool) (buf n : Word) : (s.armBulk tx buf n).dmaReqTx = true := rfl
@[simp] theorem State.armBulk_dmaReqRx (s : State) (tx : Bool) (buf n : Word) : (s.armBulk tx buf n).dmaReqRx = true := rfl
@[simp] theorem State.armBulk_chTx (s : State) (tx : Bool) (buf n : Word) : (s.armBulk tx buf n).chTx = Channel.armed tx buf n := rfl
@[simp] theorem State.armBulk_chRx (s : State) (tx : Bool) (buf n : Word) : (s.armBulk tx buf n).chRx = Channel.armed (!tx) buf n := rfl
@[simp] theorem State.armBulk_sink (s : State) (tx : Bool) (buf n : Word) : (s.armBulk tx buf n).sink = s.sink := rfl
@[simp] theorem State.armBulk_filler (s : State) (tx : Bool) (buf n : Word) : (s.armBulk tx buf n).filler = s.filler := rfl
@[simp] theorem State.armBulk_pollCnt (s : State) (tx : Bool) (buf n : Word) : (s.armBulk tx buf n).pollCnt = s.pollCnt := rfl
@[simp] theorem State.armBulk_statusLatch (s : State) (tx : Bool) (buf n : Word) : (s.armBulk tx buf n).statusLatch = s.statusLatch := rfl
@[simp] theorem State.armBulk_ident (s : State) (tx : Bool) (buf n : Word) : (s.armBulk tx buf n).ident = s.ident := rfl
@[simp] theorem State.armBulk_rspStatus (s : State) (tx : Bool) (buf n : Word) : (s.armBulk tx buf n).rspStatus = s.rspStatus := rfl
@[simp] theorem State.armBulk_rspFlag (s : State) (tx : Bool) (buf n : Word) : (s.armBulk tx buf n).rspFlag = s.rspFlag := rfl
@[simp] theorem State.armBulk_rspValid (s : State) (tx : Bool) (buf n : Word) : (s.armBulk tx buf n).rspValid = s.rspValid := rfl
@[simp] theorem State.armBulk_trace (s : State) (tx : Bool) (buf n : Word) : (s.armBulk tx buf n).trace = s.trace := rfl
@[simp] theorem State.armBulk_mem (s : State) (tx : Bool) (buf n : Word) : (s.armBulk tx buf n).mem = s.mem := rfl
@[simp] theorem State.armBulk_pollResult (s : State) (tx : Bool) (buf n : Word) : (s.armBulk tx buf n).pollResult = s.pollResult := rfl
@[simp] theorem State.armBulk_params (s : State) (tx : Bool) (buf n : Word) : (s.armBulk tx buf n).params = s.params := rfl
@[simp] theorem State.armBulk_inbox (s : State) (tx : Bool) (buf n : Word) : (s.armBulk tx buf n).inbox = s.inbox := rfl
@[simp] theorem State.armBulk_chipScript (s : State) (tx : Bool) (buf n : Word) : (s.armBulk tx buf n).chipScript = s.chipScript := rfl
@[simp] theorem State.armBulk_drawn (s : State) (tx : Bool) (buf n : Word) : (s.armBulk tx buf n).drawn = s.drawn := rfl
@[simp] theorem State.armBulk_schedule (s : State) (tx : Bool) (buf n : Word) : (s.armBulk tx buf n).schedule = s.schedule := rfl

/-! ### `State.selected` -/

@[simp] theorem State.selected_phase (s : State) : s.selected.phase = s.phase := rfl
@[simp] theorem State.selected_uq (s : State) : s.selected.uq = s.uq := rfl
@[simp] theorem State.selected_initDone (s : State) : s.selected.initDone = s.initDone := rfl
@[simp] theorem State.selected_cfg (s : State) : s.selected.cfg = s.cfg := rfl
@[simp] theorem State.selected_cmd (s : State) : s.selected.cmd = s.cmd := rfl
@[simp] theorem State.selected_cs (s : State) : s.selected.cs = true := rfl
@[simp] theorem State.selected_spiEn (s : State) : s.selected.spiEn = s.spiEn := rfl
@[simp] theorem State.selected_txe (s : State) : s.selected.txe = s.txe := rfl
@[simp] theorem State.selected_txBuf (s : State) : s.selected.txBuf = s.txBuf := rfl
@[simp] theorem State.selected_rxne (s : State) : s.selected.rxne = s.rxne := rfl
@[simp] theorem State.selected_rxBuf (s : State) : s.selected.rxBuf = s.rxBuf := rfl
@[simp] theorem State.selected_dmaReqTx (s : State) : s.selected.dmaReqTx = s.dmaReqTx := rfl
@[simp] theorem State.selected_dmaReqRx (s : State) : s.selected.dmaReqRx = s.dmaReqRx := rfl
@[simp] theorem State.selected_chTx (s : State) : s.selected.chTx = s.chTx := rfl
@[simp] theorem State.selected_chRx (s : State) : s.selected.chRx = s.chRx := rfl
@[simp] theorem State.selected_sink (s : State) : s.selected.sink = s.sink := rfl
@[simp] theorem State.selected_filler (s : State) : s.selected.filler = s.filler := rfl
@[simp] theorem State.selected_pollCnt (s : State) : s.selected.pollCnt = s.pollCnt := rfl
@[simp] theorem State.selected_statusLatch (s : State) : s.selected.statusLatch = s.statusLatch := rfl
@[simp] theorem State.selected_ident (s : State) : s.selected.ident = s.ident := rfl
@[simp] theorem State.selected_rspStatus (s : State) : s.selected.rspStatus = s.rspStatus := rfl
@[simp] theorem State.selected_rspFlag (s : State) : s.selected.rspFlag = s.rspFlag := rfl
@[simp] theorem State.selected_rspValid (s : State) : s.selected.rspValid = s.rspValid := rfl
@[simp] theorem State.selected_trace (s : State) : s.selected.trace = s.trace ++ [.sel] := rfl
@[simp] theorem State.selected_mem (s : State) : s.selected.mem = s.mem := rfl
@[simp] theorem State.selected_pollResult (s : State) : s.selected.pollResult = s.pollResult := rfl
@[simp] theorem State.selected_params (s : State) : s.selected.params = s.params := rfl
@[simp] theorem State.selected_inbox (s : State) : s.selected.inbox = s.inbox := rfl
@[simp] theorem State.selected_chipScript (s : State) : s.selected.chipScript = s.chipScript := rfl
@[simp] theorem State.selected_drawn (s : State) : s.selected.drawn = s.drawn := rfl
@[simp] theorem State.selected_schedule (s : State) : s.selected.schedule = s.schedule := rfl

/-! ### `State.deselected` -/

@[simp] theorem State.deselected_phase (s : State) : s.deselected.phase = s.phase := rfl
@[simp] theorem State.deselected_uq (s : State) : s.deselected.uq = s.uq := rfl
@[simp] theorem State.deselected_initDone (s : State) : s.deselected.initDone = s.initDone := rfl
@[simp] theorem State.deselected_cfg (s : State) : s.deselected.cfg = s.cfg := rfl
@[simp] theorem State.deselected_cmd (s : State) : s.deselected.cmd = s.cmd := rfl
@[simp] theorem State.deselected_cs (s : State) : s.deselected.cs = false := rfl
@[simp] theorem State.deselected_spiEn (s : State) : s.deselected.spiEn = s.spiEn := rfl
@[simp] theorem State.deselected_txe (s : State) : s.deselected.txe = s.txe := rfl
@[simp] theorem State.deselected_txBuf (s : State) : s.deselected.txBuf = s.txBuf := rfl
@[simp] theorem State.deselected_rxne (s : State) : s.deselected.rxne = s.rxne := rfl
@[simp] theorem State.deselected_rxBuf (s : State) : s.deselected.rxBuf = s.rxBuf := rfl
@[simp] theorem State.deselected_dmaReqTx (s : State) : s.deselected.dmaReqTx = s.dmaReqTx := rfl
@[simp] theorem State.deselected_dmaReqRx (s : State) : s.deselected.dmaReqRx = s.dmaReqRx := rfl
@[simp] theorem State.deselected_chTx (s : State) : s.deselected.chTx = s.chTx := rfl
@[simp] theorem State.deselected_chRx (s : State) : s.deselected.chRx = s.chRx := rfl
@[simp] theorem State.deselected_sink (s : State) : s.deselected.sink = s.sink := rfl
@[simp] theorem State.deselected_filler (s : State) : s.deselected.filler = s.filler := rfl
@[simp] theorem State.deselected_pollCnt (s : State) : s.deselected.pollCnt = s.pollCnt := rfl
@[simp] theorem State.deselected_statusLatch (s : State) : s.deselected.statusLatch = s.statusLatch := rfl
@[simp] theorem State.deselected_ident (s : State) : s.deselected.ident = s.ident := rfl
@[simp] theorem State.deselected_rspStatus (s : State) : s.deselected.rspStatus = s.rspStatus := rfl
@[simp] theorem State.deselected_rspFlag (s : State) : s.deselected.rspFlag = s.rspFlag := rfl
@[simp] theorem State.deselected_rspValid (s : State) : s.deselected.rspValid = s.rspValid := rfl
@[simp] theorem State.deselected_trace (s : State) : s.deselected.trace = s.trace ++ [.desel] := rfl
@[simp] theorem State.deselected_mem (s : State) : s.deselected.mem = s.mem := rfl
@[simp] theorem State.deselected_pollResult (s : State) : s.deselected.pollResult = s.pollResult := rfl
@[simp] theorem State.deselected_params (s : State) : s.deselected.params = s.params := rfl
@[simp] theorem State.deselected_inbox (s : State) : s.deselected.inbox = s.inbox := rfl
@[simp] theorem State.deselected_chipScript (s : State) : s.deselected.chipScript = s.chipScript := rfl
@[simp] theorem State.deselected_drawn (s : State) : s.deselected.drawn = s.drawn := rfl
@[simp] theorem State.deselected_schedule (s : State) : s.deselected.schedule = s.schedule := rfl

/-! ### `State.exchanged` -/

@[simp] theorem State.exchanged_phase (s : State) (b : Byte) (dst : Keep) : (s.exchanged b dst).phase = s.phase := by
  simp [State.exchanged]
@[simp] theorem State.exchanged_uq (s : State) (b : Byte) (dst : Keep) : (s.exchanged b dst).uq = s.uq := by
  simp [State.exchanged]
@[simp] theorem State.exchanged_initDone (s : State) (b : Byte) (dst : Keep) : (s.exchanged b dst).initDone = s.initDone := by
  simp [State.exchanged]
@[simp] theorem State.exchanged_cfg (s : State) (b : Byte) (dst : Keep) : (s.exchanged b dst).cfg = s.cfg := by
  simp [State.exchanged]
@[simp] theorem State.exchanged_cmd (s : State) (b : Byte) (dst : Keep) : (s.exchanged b dst).cmd = s.cmd := by
  simp [State.exchanged]
@[simp] theorem State.exchanged_cs (s : State) (b : Byte) (dst : Keep) : (s.exchanged b dst).cs = s.cs := by
  simp [State.exchanged]
@[simp] theorem State.exchanged_spiEn (s : State) (b : Byte) (dst : Keep) : (s.exchanged b dst).spiEn = s.spiEn := by
  simp [State.exchanged]
@[simp] theorem State.exchanged_txe (s : State) (b : Byte) (dst : Keep) : (s.exchanged b dst).txe = true := rfl
@[simp] theorem State.exchanged_txBuf (s : State) (b : Byte) (dst : Keep) : (s.exchanged b dst).txBuf = b := rfl
@[simp] theorem State.exchanged_rxne (s : State) (b : Byte) (dst : Keep) : (s.exchanged b dst).rxne = false := rfl
@[simp] theorem State.exchanged_rxBuf (s : State) (b : Byte) (dst : Keep) : (s.exchanged b dst).rxBuf = s.chipAhead 0 := rfl
@[simp] theorem State.exchanged_dmaReqTx (s : State) (b : Byte) (dst : Keep) : (s.exchanged b dst).dmaReqTx = false := rfl
@[simp] theorem State.exchanged_dmaReqRx (s : State) (b : Byte) (dst : Keep) : (s.exchanged b dst).dmaReqRx = false := rfl
@[simp] theorem State.exchanged_chTx (s : State) (b : Byte) (dst : Keep) : (s.exchanged b dst).chTx = s.chTx := by
  simp [State.exchanged]
@[simp] theorem State.exchanged_chRx (s : State) (b : Byte) (dst : Keep) : (s.exchanged b dst).chRx = s.chRx := by
  simp [State.exchanged]
@[simp] theorem State.exchanged_sink (s : State) (b : Byte) (dst : Keep) : (s.exchanged b dst).sink = s.sink := by
  simp [State.exchanged]
@[simp] theorem State.exchanged_filler (s : State) (b : Byte) (dst : Keep) : (s.exchanged b dst).filler = s.filler := by
  simp [State.exchanged]
@[simp] theorem State.exchanged_pollCnt (s : State) (b : Byte) (dst : Keep) : (s.exchanged b dst).pollCnt = s.pollCnt := by
  simp [State.exchanged]
@[simp] theorem State.exchanged_statusLatch (s : State) (b : Byte) (dst : Keep) : (s.exchanged b dst).statusLatch = (s.keep dst (s.chipAhead 0)).statusLatch := rfl
@[simp] theorem State.exchanged_ident (s : State) (b : Byte) (dst : Keep) : (s.exchanged b dst).ident = (s.keep dst (s.chipAhead 0)).ident := rfl
@[simp] theorem State.exchanged_rspStatus (s : State) (b : Byte) (dst : Keep) : (s.exchanged b dst).rspStatus = s.rspStatus := by
  simp [State.exchanged]
@[simp] theorem State.exchanged_rspFlag (s : State) (b : Byte) (dst : Keep) : (s.exchanged b dst).rspFlag = s.rspFlag := by
  simp [State.exchanged]
@[simp] theorem State.exchanged_rspValid (s : State) (b : Byte) (dst : Keep) : (s.exchanged b dst).rspValid = s.rspValid := by
  simp [State.exchanged]
@[simp] theorem State.exchanged_trace (s : State) (b : Byte) (dst : Keep) : (s.exchanged b dst).trace = s.trace ++ [.xfer b (s.chipAhead 0)] := rfl
@[simp] theorem State.exchanged_mem (s : State) (b : Byte) (dst : Keep) : (s.exchanged b dst).mem = s.mem := by
  simp [State.exchanged]
@[simp] theorem State.exchanged_pollResult (s : State) (b : Byte) (dst : Keep) : (s.exchanged b dst).pollResult = s.pollResult := by
  simp [State.exchanged]
@[simp] theorem State.exchanged_params (s : State) (b : Byte) (dst : Keep) : (s.exchanged b dst).params = s.params := by
  simp [State.exchanged]
@[simp] theorem State.exchanged_inbox (s : State) (b : Byte) (dst : Keep) : (s.exchanged b dst).inbox = s.inbox := by
  simp [State.exchanged]
@[simp] theorem State.exchanged_chipScript (s : State) (b : Byte) (dst : Keep) : (s.exchanged b dst).chipScript = s.chipScript.tail := rfl
@[simp] theorem State.exchanged_drawn (s : State) (b : Byte) (dst : Keep) : (s.exchanged b dst).drawn = s.drawn + 1 := rfl
@[simp] theorem State.exchanged_schedule (s : State) (b : Byte) (dst : Keep) : (s.exchanged b dst).schedule = s.schedule := by
  simp [State.exchanged]

/-! ### `State.disarm` -/

@[simp] theorem State.disarm_phase (s : State) : s.disarm.phase = s.phase := rfl
@[simp] theorem State.disarm_uq (s : State) : s.disarm.uq = s.uq := rfl
@[simp] theorem State.disarm_initDone (s : State) : s.disarm.initDone = s.initDone := rfl
@[simp] theorem State.disarm_cfg (s : State) : s.disarm.cfg = s.cfg := rfl
@[simp] theorem State.disarm_cmd (s : State) : s.disarm.cmd = s.cmd := rfl
@[simp] theorem State.disarm_cs (s : State) : s.disarm.cs = s.cs := rfl
@[simp] theorem State.disarm_spiEn (s : State) : s.disarm.spiEn = s.spiEn := rfl
@[simp] theorem State.disarm_txe (s : State) : s.disarm.txe = s.txe := rfl
@[simp] theorem State.disarm_txBuf (s : State) : s.disarm.txBuf = s.txBuf := rfl
@[simp] theorem State.disarm_rxne (s : State) : s.disarm.rxne = s.rxne := rfl
@[simp] theorem State.disarm_rxBuf (s : State) : s.disarm.rxBuf = s.rxBuf := rfl
@[simp] theorem State.disarm_dmaReqTx (s : State) : s.disarm.dmaReqTx = s.dmaReqTx := rfl
@[simp] theorem State.disarm_dmaReqRx (s : State) : s.disarm.dmaReqRx = s.dmaReqRx := rfl
@[simp] theorem State.disarm_chTx (s : State) : s.disarm.chTx = s.chTx.disarm := rfl
@[simp] theorem State.disarm_chRx (s : State) : s.disarm.chRx = s.chRx.disarm := rfl
@[simp] theorem State.disarm_sink (s : State) : s.disarm.sink = s.sink := rfl
@[simp] theorem State.disarm_filler (s : State) : s.disarm.filler = s.filler := rfl
@[simp] theorem State.disarm_pollCnt (s : State) : s.disarm.pollCnt = s.pollCnt := rfl
@[simp] theorem State.disarm_statusLatch (s : State) : s.disarm.statusLatch = s.statusLatch := rfl
@[simp] theorem State.disarm_ident (s : State) : s.disarm.ident = s.ident := rfl
@[simp] theorem State.disarm_rspStatus (s : State) : s.disarm.rspStatus = s.rspStatus := rfl
@[simp] theorem State.disarm_rspFlag (s : State) : s.disarm.rspFlag = s.rspFlag := rfl
@[simp] theorem State.disarm_rspValid (s : State) : s.disarm.rspValid = s.rspValid := rfl
@[simp] theorem State.disarm_trace (s : State) : s.disarm.trace = s.trace := rfl
@[simp] theorem State.disarm_mem (s : State) : s.disarm.mem = s.mem := rfl
@[simp] theorem State.disarm_pollResult (s : State) : s.disarm.pollResult = s.pollResult := rfl
@[simp] theorem State.disarm_params (s : State) : s.disarm.params = s.params := rfl
@[simp] theorem State.disarm_inbox (s : State) : s.disarm.inbox = s.inbox := rfl
@[simp] theorem State.disarm_chipScript (s : State) : s.disarm.chipScript = s.chipScript := rfl
@[simp] theorem State.disarm_drawn (s : State) : s.disarm.drawn = s.drawn := rfl
@[simp] theorem State.disarm_schedule (s : State) : s.disarm.schedule = s.schedule := rfl

/-! ### Channels -/

@[simp] theorem Channel.advance_en (c : Channel) : c.advance.en = c.en := rfl
@[simp] theorem Channel.advance_inc (c : Channel) : c.advance.inc = c.inc := rfl
@[simp] theorem Channel.advance_cnt (c : Channel) : c.advance.cnt = c.cnt - 1 := rfl
@[simp] theorem Channel.disarm_en (c : Channel) : c.disarm.en = false := rfl
@[simp] theorem Channel.disarm_tc (c : Channel) : c.disarm.tc = false := rfl
@[simp] theorem Channel.disarm_cnt (c : Channel) : c.disarm.cnt = c.cnt := rfl
@[simp] theorem Channel.disarm_addr (c : Channel) : c.disarm.addr = c.addr := rfl
@[simp] theorem Channel.disarm_inc (c : Channel) : c.disarm.inc = c.inc := rfl
@[simp] theorem Channel.armed_en (i : Bool) (a n : Word) : (Channel.armed i a n).en = true := rfl
@[simp] theorem Channel.armed_inc (i : Bool) (a n : Word) : (Channel.armed i a n).inc = i := rfl
@[simp] theorem Channel.armed_addr (i : Bool) (a n : Word) : (Channel.armed i a n).addr = a := rfl
@[simp] theorem Channel.armed_cnt (i : Bool) (a n : Word) : (Channel.armed i a n).cnt = n := rfl
@[simp] theorem Channel.armed_tc (i : Bool) (a n : Word) : (Channel.armed i a n).tc = false := rfl

/-! ### Chip's answers -/

/-- After one exchange every later answer comes one exchange sooner (20_memory R77). -/
@[simp] theorem State.chipAhead_shift (s : State) (k : Nat) : s.shift.chipAhead k = s.chipAhead (k + 1) := by
  simp only [State.chipAhead, State.shift_chipScript, State.shift_drawn, List.getElem?_tail]
  cases s.chipScript[k + 1]? with
  | some b => rfl
  | none => simp only [Nat.add_assoc, Nat.add_comm 1 k]

@[simp] theorem State.chipAhead_dmaTxMove (s : State) (k : Nat) : s.dmaTxMove.chipAhead k = s.chipAhead k := rfl
@[simp] theorem State.chipAhead_armBulk (s : State) (tx : Bool) (buf n : Word) (k : Nat) :
    (s.armBulk tx buf n).chipAhead k = s.chipAhead k := rfl

@[simp] theorem State.chipAhead_setUq (s : State) (q : List MicroOp) (k : Nat) : (s.setUq q).chipAhead k = s.chipAhead k := rfl
@[simp] theorem State.chipAhead_selected (s : State) (k : Nat) : s.selected.chipAhead k = s.chipAhead k := rfl
@[simp] theorem State.chipAhead_deselected (s : State) (k : Nat) : s.deselected.chipAhead k = s.chipAhead k := rfl
@[simp] theorem State.chipAhead_accept (s : State) (d : Descriptor) (k : Nat) : (s.accept d).chipAhead k = s.chipAhead k := rfl
@[simp] theorem State.chipAhead_exchanged (s : State) (b : Byte) (dst : Keep) (k : Nat) :
    (s.exchanged b dst).chipAhead k = s.chipAhead (k + 1) :=
  State.chipAhead_shift s k

@[simp] theorem State.keep_discard (s : State) (v : Byte) : s.keep .discard v = s := rfl
@[simp] theorem State.keep_statusLatch_latch (s : State) (v : Byte) : (s.keep .statusLatch v).statusLatch = v := rfl
@[simp] theorem State.keep_statusLatch_ident (s : State) (v : Byte) : (s.keep .statusLatch v).ident = s.ident := rfl
@[simp] theorem State.keep_id_latch (s : State) (i : IdByte) (v : Byte) : (s.keep (.id i) v).statusLatch = s.statusLatch := by
  cases i <;> rfl
@[simp] theorem State.keep_maker (s : State) (v : Byte) : (s.keep (.id .maker) v).ident = { s.ident with maker := v } := rfl
@[simp] theorem State.keep_device (s : State) (v : Byte) : (s.keep (.id .device) v).ident = { s.ident with device := v } := rfl
@[simp] theorem State.keep_third (s : State) (v : Byte) : (s.keep (.id .third) v).ident = { s.ident with third := v } := rfl
@[simp] theorem State.keep_fourth (s : State) (v : Byte) : (s.keep (.id .fourth) v).ident = { s.ident with fourth := v } := rfl
@[simp] theorem State.keep_fifth (s : State) (v : Byte) : (s.keep (.id .fifth) v).ident = { s.ident with fifth := v } := rfl
@[simp] theorem State.keep_sixth (s : State) (v : Byte) : (s.keep (.id .sixth) v).ident = { s.ident with sixth := v } := rfl

/-- Chip's answers depend on nothing else in the state. -/
theorem State.chipAhead_congr {s t : State} (h : t.chipScript = s.chipScript) (h' : t.drawn = s.drawn) (k : Nat) :
    t.chipAhead k = s.chipAhead k := by
  simp only [State.chipAhead, h, h']

end Sys2Proof.Machine
end

