-- ==== Sys2Proof/Laws/Sequencer.lean ====
section
/-! SUPPORT. What the scheduler picks, that every atomic step lowers `State.work`, and that `drive` is therefore the whole run of
the agents from any state: its fuel never runs out. -/

namespace Sys2Proof.Machine

/-! ### Scheduling -/

/-- The agent picked is one that was offered; only `schedule` moves on. -/
theorem pickAgent_some {as : List Agent} {s t : State} {a : Agent} (h : pickAgent as s = some (a, t)) :
    a ∈ as ∧ ∃ ks, t = { s with schedule := ks } := by
  match as, h with
  | [x], h =>
    simp only [pickAgent, Option.some.injEq, Prod.mk.injEq] at h
    exact ⟨by simp [h.1], s.schedule, h.2.symm⟩
  | x :: y :: rest, h =>
    simp only [pickAgent] at h
    split at h
    · simp only [Option.some.injEq, Prod.mk.injEq] at h
      exact ⟨by simp [h.1], s.schedule, h.2.symm⟩
    · rename_i k ks _
      simp only [Option.some.injEq, Prod.mk.injEq] at h
      refine ⟨?_, ks, h.2.symm⟩
      have hk : k % (rest.length + 2) < (x :: y :: rest).length := Nat.mod_lt k (Nat.succ_pos _)
      rw [← h.1, List.getD_eq_getElem _ _ hk]
      exact List.getElem_mem hk

theorem pickAgent_none {as : List Agent} {s : State} : pickAgent as s = none ↔ as = [] := by
  match as with
  | [] => simp [pickAgent]
  | [x] => simp [pickAgent]
  | x :: y :: rest => cases h : s.schedule <;> simp [pickAgent, h]

theorem mem_enabledAgents {s : State} {a : Agent} : a ∈ s.enabledAgents ↔ s.enabled a = true := by
  cases a <;> simp [State.enabledAgents]

/-- An atomic step is a step of one enabled agent; only `schedule` may have moved on before it. -/
theorem atomicStep_cases (s : State) :
    (s.enabledAgents = [] ∧ atomicStep s = .fault .holdForever) ∨
    ∃ a ks, s.enabled a = true ∧ atomicStep s = agentStep a { s with schedule := ks } := by
  unfold atomicStep
  split
  · exact .inl ⟨pickAgent_none.1 ‹_›, rfl⟩
  · rename_i a t h
    obtain ⟨ha, ks, rfl⟩ := pickAgent_some h
    exact .inr ⟨a, ks, mem_enabledAgents.1 ha, rfl⟩

/-- With exactly one agent enabled there is no choice, and `schedule` is not read. -/
theorem atomicStep_single {s : State} {a : Agent} (h : s.enabledAgents = [a]) : atomicStep s = agentStep a s := by
  simp [atomicStep, h, pickAgent]

/-! ### Every atomic step lowers the work left -/

theorem uqWork_mono {budget c c' : Nat} (q : List MicroOp) (h : c ≤ c') : uqWork budget c q ≤ uqWork budget c' q := by
  induction q with
  | nil => simp [uqWork]
  | cons m q ih =>
    cases m <;> simp only [uqWork] <;> first
      | omega
      | (have := Nat.mul_le_mul_right pollIterationWork h; omega)
      | (have := Nat.mul_le_mul_right pollIterationWork (Nat.sub_le_sub_right h 1); omega)

theorem uqWork_le_top {budget : Nat} (c : Word) (q : List MicroOp) :
    uqWork budget c.toNat q ≤ uqWork budget (2 ^ 32) q :=
  uqWork_mono q (Nat.le_of_lt c.isLt)

theorem uqWork_pos {budget c : Nat} {q : List MicroOp} (h : q ≠ []) : 0 < uqWork budget c q := by
  cases q with
  | nil => exact absurd rfl h
  | cons m q => cases m <;> simp only [uqWork] <;> omega

@[simp] theorem work_schedule (s : State) (ks : List Nat) : ({ s with schedule := ks } : State).work = s.work := rfl

theorem shift_work_lt {s : State} (h : s.shifterReady = true) : s.shift.work < s.work := by
  simp only [State.shifterReady, Bool.and_eq_true, Bool.not_eq_true'] at h
  simp [State.work, h.1.2, h.2]

theorem pred_toNat {c : Word} (h : c ≠ 0) : (c - 1).toNat + 1 = c.toNat := by
  have : c.toNat ≠ 0 := fun h' => h (BitVec.eq_of_toNat_eq h')
  have := c.isLt
  have h1 : (1 : Word).toNat = 1 := rfl
  rw [BitVec.toNat_sub, h1]
  omega

theorem dmaTxMove_work_lt {s : State} (h : s.dmaTxReady = true) : s.dmaTxMove.work < s.work := by
  simp only [State.dmaTxReady, Bool.and_eq_true, decide_eq_true_eq] at h
  have := pred_toNat h.2
  simp only [State.work, State.dmaTxMove_params, State.dmaTxMove_pollCnt, State.dmaTxMove_uq, State.dmaTxMove_txe,
    State.dmaTxMove_rxne, State.dmaTxMove_chTx, State.dmaTxMove_chRx, Channel.advance_cnt, h.1.2, Bool.not_true,
    Bool.not_false, Bool.toNat_true, Bool.toNat_false]
  omega

theorem dmaRxMove_work_lt {s : State} (h : s.dmaRxReady = true) : s.dmaRxMove.work < s.work := by
  simp only [State.dmaRxReady, Bool.and_eq_true, decide_eq_true_eq] at h
  have := pred_toNat h.2
  simp only [State.work, State.dmaRxMove_params, State.dmaRxMove_pollCnt, State.dmaRxMove_uq, State.dmaRxMove_txe,
    State.dmaRxMove_rxne, State.dmaRxMove_chTx, State.dmaRxMove_chRx, Channel.advance_cnt, h.1.2, Bool.toNat_true,
    Bool.toNat_false]
  omega

theorem respond_next {r : Reply} {s t : State} (h : respond r s = .next t) :
    ∃ st b, t = ({ s with rspStatus := st, rspFlag := b } : State).finish := by
  cases r <;> simp only [respond] at h
  case decoded =>
    split at h
    · exact ⟨_, _, by simpa using h.symm⟩
    · cases h
  all_goals exact ⟨_, _, by simpa using h.symm⟩

theorem finish_work_lt {s : State} (q : s.uq ≠ []) (st : FlashStatus) (b : Bool) :
    (({ s with rspStatus := st, rspFlag := b } : State).finish).work < s.work := by
  have := uqWork_pos (budget := s.params.pollBudget.toNat) (c := s.pollCnt.toNat) q
  simp only [State.work, State.finish_params, State.finish_pollCnt, State.finish_uq, State.finish_txe, State.finish_rxne,
    State.finish_chTx, State.finish_chRx, uqWork]
  omega

theorem pollDecrement_toNat (c : Word) : (pollDecrement c).toNat = c.toNat - 1 := by
  unfold pollDecrement
  split
  · subst_vars; rfl
  · have := pred_toNat ‹_›; omega

theorem seqStep_work_lt {s t : State} (hr : s.seqReady = true) (h : seqStep s = .next t) : t.work < s.work := by
  unfold seqStep at h
  split at h
  case h_1 => cases h
  case h_2 q hq =>
    split at h
    · cases h
    · cases h
      simp [State.work, State.emit, hq, uqWork]
  case h_3 q hq =>
    split at h
    · cases h
      simp [State.work, State.emit, hq, uqWork]
    · cases h
  case h_4 b q hq => cases h; simp [State.work, hq, uqWork]
  case h_5 b dst q hq => cases h; simp [State.work, hq, uqWork]
  case h_6 b dst q hq =>
    cases h
    simp only [State.seqReady, hq, Bool.and_eq_true, decide_eq_true_eq] at hr
    simp [State.work, hq, uqWork, hr.2]
  case h_7 dst q hq =>
    cases h
    simp [State.work, hq, uqWork]
    omega
  case h_8 buf n q hq =>
    cases h
    simp [State.work, hq, uqWork]
    omega
  case h_9 buf n q hq =>
    cases h
    simp [State.work, hq, uqWork]
    omega
  case h_10 q hq => cases h; simp [State.work, hq, uqWork]
  case h_11 q hq => cases h; simp [State.work, hq, uqWork]
  case h_12 q hq =>
    split at h
    · cases h
      have := uqWork_le_top (budget := s.params.pollBudget.toNat) s.pollCnt q
      simp only [State.work, hq, uqWork]
      omega
    · cases h
      rename_i hc
      have : s.pollCnt.toNat ≠ 0 := fun h' => hc (BitVec.eq_of_toNat_eq h')
      simp only [State.work, State.setUq_params, State.setUq_pollCnt, State.setUq_uq, State.setUq_txe, State.setUq_rxne,
        State.setUq_chTx, State.setUq_chRx, hq, uqWork, statusFrame, List.cons_append, List.nil_append, pollIterationWork]
      omega
  case h_13 q hq =>
    split at h
    · cases h
    · cases h
      have := uqWork_le_top (budget := s.params.pollBudget.toNat) s.pollCnt q
      simp only [State.work, hq, uqWork]
      omega
    · cases h
      simp only [State.work, hq, uqWork, pollDecrement_toNat]
      omega
  case h_14 r q hq =>
    obtain ⟨st, b, rfl⟩ := respond_next h
    exact finish_work_lt (by simp [hq]) st b
  case h_15 q hq =>
    cases h
    have := uqWork_pos (budget := s.params.pollBudget.toNat) (c := s.pollCnt.toNat) (q := s.uq) (by simp [hq])
    simp only [State.work, uqWork]
    omega

/-- Every atomic step lowers the work left. -/
theorem atomicStep_work_lt {s t : State} (h : atomicStep s = .next t) : t.work < s.work := by
  obtain ⟨-, h'⟩ | ⟨a, ks, ha, h'⟩ := atomicStep_cases s
  · rw [h'] at h; cases h
  · rw [h'] at h
    have e : ({ s with schedule := ks } : State).work = s.work := rfl
    rw [← e]
    cases a with
    | seq => exact seqStep_work_lt (s := { s with schedule := ks }) ha h
    | shifter => cases h; exact shift_work_lt (s := { s with schedule := ks }) ha
    | dmaTx => cases h; exact dmaTxMove_work_lt (s := { s with schedule := ks }) ha
    | dmaRx => cases h; exact dmaRxMove_work_lt (s := { s with schedule := ks }) ha

/-! ### `drive` is the whole run -/

/-- An atomic step is refused only at the head of a queue that is not empty. -/
theorem atomicStep_refused {s : State} {r : Refusal} (h : atomicStep s = .refused r) : s.uq ≠ [] := by
  obtain ⟨-, h'⟩ | ⟨a, ks, -, h'⟩ := atomicStep_cases s
  · rw [h'] at h; cases h
  · rw [h'] at h
    intro hq
    cases a <;> simp [agentStep, seqStep, hq] at h

theorem fault_eq (f g : Fault) : f = g := by cases f; cases g; rfl

theorem runToIdle_fuel {fuel : Nat} {s : State} (h : s.work ≤ fuel) : runToIdle fuel s = runToIdle s.work s := by
  induction fuel using Nat.strong_induction_on generalizing s with
  | _ fuel ih =>
    by_cases hp : s.phase = .idle
    · cases fuel <;> cases s.work <;> simp [runToIdle, hp]
    · cases fuel with
      | zero => rw [Nat.le_zero.1 h]
      | succ k =>
        cases hw : s.work with
        | zero =>
          simp only [runToIdle, hp, if_false]
          cases ha : atomicStep s with
          | next t => have := atomicStep_work_lt ha; omega
          | fault f => rw [fault_eq f .holdForever]
          | refused r =>
            have := uqWork_pos (budget := s.params.pollBudget.toNat) (c := s.pollCnt.toNat) (atomicStep_refused ha)
            simp only [State.work] at hw
            omega
        | succ w =>
          simp only [runToIdle, hp, if_false]
          cases ha : atomicStep s with
          | next t =>
            have := atomicStep_work_lt ha
            simp only
            rw [ih k (by omega) (by omega), ih w (by omega) (by omega)]
          | fault f => rfl
          | refused r => rfl

/-- An idle state is left as it is. -/
theorem drive_idle {s : State} (h : s.phase = .idle) : drive s = .next s := by
  unfold drive
  cases s.work <;> simp [runToIdle, h]

/-- In phase RUN, `drive` takes one atomic step and goes on: the fuel is never felt. -/
theorem drive_run {s : State} (h : s.phase = .run) :
    drive s = match atomicStep s with
      | .next t => drive t
      | .fault f => .fault f
      | .refused r => .refused r := by
  have hn : s.phase ≠ .idle := by simp [h]
  have e : drive s = runToIdle (s.work + 1) s := (runToIdle_fuel (Nat.le_succ _)).symm
  rw [e, runToIdle, if_neg hn]
  cases ha : atomicStep s with
  | next t =>
    have := atomicStep_work_lt ha
    exact runToIdle_fuel (by omega)
  | fault f => rfl
  | refused r => rfl

theorem drive_next {s t : State} (h : s.phase = .run) (ha : atomicStep s = .next t) : drive s = drive t := by
  rw [drive_run h, ha]

/-- What holds before a run and is kept by every atomic step holds after it. -/
theorem drive_induction {P : State → Prop} (hs : ∀ s t, s.phase = .run → P s → atomicStep s = .next t → P t)
    {s t : State} (h : P s) (hd : drive s = .next t) : P t ∧ t.phase = .idle := by
  generalize hw : s.work = w
  induction w using Nat.strong_induction_on generalizing s with
  | _ w ih =>
    cases hp : s.phase with
    | idle =>
      rw [drive_idle hp] at hd
      cases hd
      exact ⟨h, hp⟩
    | run =>
      rw [drive_run hp] at hd
      cases ha : atomicStep s with
      | next u =>
        rw [ha] at hd
        have := atomicStep_work_lt ha
        exact ih u.work (by omega) (hs s u hp h ha) hd rfl
      | fault f => rw [ha] at hd; cases hd
      | refused r => rw [ha] at hd; cases hd

end Sys2Proof.Machine
end

