-- ==== Sys2Proof/Laws/Transport.lean ====
section
/-! SUPPORT. The net effect of the micro-operations, from states with no exchange in progress: SEL, DESEL, TX8, RX8 (42 R200 to
R202, 41 R161, R162) and the bulk transfers under every schedule (42 R212). -/

namespace Sys2Proof.Machine

/-- A command in flight between two micro-operations (42 R211). -/
structure State.Quiet (s : State) : Prop where
  running : s.phase = .run
  powered : s.spiEn = true
  empty : s.txe = true
  drained : s.rxne = false
  txOff : s.chTx.en = false
  rxOff : s.chRx.en = false

theorem enabledAgents_seq {s : State} (h1 : s.seqReady = true) (h2 : s.shifterReady = false) (h3 : s.dmaTxReady = false)
    (h4 : s.dmaRxReady = false) : s.enabledAgents = [.seq] := by
  simp [State.enabledAgents, State.enabled, h1, h2, h3, h4]

theorem enabledAgents_shifter {s : State} (h1 : s.seqReady = false) (h2 : s.shifterReady = true) (h3 : s.dmaTxReady = false)
    (h4 : s.dmaRxReady = false) : s.enabledAgents = [.shifter] := by
  simp [State.enabledAgents, State.enabled, h1, h2, h3, h4]

/-- With the channels off and no exchange pending only `Seq` may step. -/
theorem State.Quiet.seqOnly {s : State} (h : s.Quiet) (hr : s.seqReady = true) : s.enabledAgents = [.seq] :=
  enabledAgents_seq hr (by simp [State.shifterReady, h.empty]) (by simp [State.dmaTxReady, h.txOff])
    (by simp [State.dmaRxReady, h.rxOff])

theorem State.Quiet.setUq {s : State} (h : s.Quiet) (q : List MicroOp) : (s.setUq q).Quiet :=
  ⟨h.running, h.powered, h.empty, h.drained, h.txOff, h.rxOff⟩

theorem drive_quiet {s t : State} (h : s.Quiet) (hr : s.seqReady = true) (hs : seqStep s = .next t) : drive s = drive t :=
  drive_next h.running ((atomicStep_single (h.seqOnly hr)).trans hs)

/-! ### SEL and DESEL -/

theorem drive_sel {s : State} {q : List MicroOp} (h : s.Quiet) (hc : s.cs = false) :
    drive (s.setUq (.sel :: q)) = drive (s.selected.setUq q) :=
  drive_quiet (h.setUq _) (by simp [State.seqReady, h.running]) (by simp [seqStep, hc]; rfl)

theorem drive_desel {s : State} {q : List MicroOp} (h : s.Quiet) (hc : s.cs = true) :
    drive (s.setUq (.desel :: q)) = drive (s.deselected.setUq q) :=
  drive_quiet (h.setUq _) (by simp [State.seqReady, h.running]) (if_pos (by
    simp [State.busQuiet, hc, h.empty, h.drained, h.txOff, h.rxOff]))

theorem State.Quiet.selected {s : State} (h : s.Quiet) : s.selected.Quiet :=
  ⟨h.running, h.powered, h.empty, h.drained, h.txOff, h.rxOff⟩

theorem State.Quiet.deselected {s : State} (h : s.Quiet) : s.deselected.Quiet :=
  ⟨h.running, h.powered, h.empty, h.drained, h.txOff, h.rxOff⟩

/-! ### The byte transport -/

/-- Steps 2 and 3 of `Xchg(b)` with `Shifter`'s exchange between them. -/
theorem drive_xchgDrive {s : State} {b : Byte} {dst : Keep} {q : List MicroOp} (h : s.Quiet) :
    drive (s.clearDmaRequests.setUq (.xchgDrive b dst :: q)) = drive ((s.exchanged b dst).setUq q) := by
  have e1 : drive (s.clearDmaRequests.setUq (.xchgDrive b dst :: q)) =
      drive ((s.clearDmaRequests.driveByte b).setUq (.xchgTake dst :: q)) :=
    drive_quiet ⟨h.running, h.powered, h.empty, h.drained, h.txOff, h.rxOff⟩
      (by simp [State.seqReady, h.running, h.empty]) rfl
  have e2 : drive ((s.clearDmaRequests.driveByte b).setUq (.xchgTake dst :: q)) =
      drive ((s.clearDmaRequests.driveByte b).setUq (.xchgTake dst :: q)).shift := by
    refine drive_next h.running (atomicStep_single (enabledAgents_shifter ?_ ?_ ?_ ?_))
    · simp [State.seqReady, h.drained]
    · simp [State.shifterReady, h.powered, h.drained]
    · simp [State.dmaTxReady]
    · simp [State.dmaRxReady]
  have e3 : drive ((s.clearDmaRequests.driveByte b).setUq (.xchgTake dst :: q)).shift =
      drive ((((s.clearDmaRequests.driveByte b).setUq (.xchgTake dst :: q)).shift.takeByte dst).setUq q) := by
    refine drive_next h.running ((atomicStep_single (enabledAgents_seq ?_ ?_ ?_ ?_)).trans rfl)
    · simp [State.seqReady, h.running]
    · simp [State.shifterReady]
    · simp [State.dmaTxReady]
    · simp [State.dmaRxReady]
  rw [e1, e2, e3]
  congr 1
  cases dst with
  | id i => cases i <;> rfl
  | _ => rfl

/-- `TX8(b)` (42 R201). -/
theorem drive_tx8 {s : State} {b : Byte} {q : List MicroOp} (h : s.Quiet) :
    drive (s.setUq (.tx8 b :: q)) = drive ((s.exchanged b .discard).setUq q) :=
  (drive_quiet (h.setUq _) (by simp [State.seqReady, h.running]) rfl).trans (drive_xchgDrive h)

/-- `RX8(dst)`, `b` the byte driven out (42 R202). -/
theorem drive_rx8 {s : State} {b : Byte} {dst : Keep} {q : List MicroOp} (h : s.Quiet) :
    drive (s.setUq (.rx8 b dst :: q)) = drive ((s.exchanged b dst).setUq q) :=
  (drive_quiet (h.setUq _) (by simp [State.seqReady, h.running]) rfl).trans (drive_xchgDrive h)

theorem State.Quiet.exchanged {s : State} (h : s.Quiet) (b : Byte) (dst : Keep) : (s.exchanged b dst).Quiet :=
  ⟨by simp [State.exchanged, h.running], by simp [State.exchanged, h.powered], rfl, rfl, by simp [State.exchanged, h.txOff],
    by simp [State.exchanged, h.rxOff]⟩

/-! ### The end of a command -/

theorem drive_respond {s : State} {r : Reply} {q : List MicroOp} (h : s.phase = .run) (h1 : s.shifterReady = false)
    (h2 : s.chTx.en = false) (h3 : s.chRx.en = false) :
    drive (s.setUq (.respond r :: q)) = respond r (s.setUq (.respond r :: q)) := by
  have ha : atomicStep (s.setUq (.respond r :: q)) = respond r (s.setUq (.respond r :: q)) := by
    refine (atomicStep_single (enabledAgents_seq ?_ ?_ ?_ ?_)).trans rfl
    · simp [State.seqReady, h]
    · simpa [State.shifterReady] using h1
    · simp [State.dmaTxReady, h2]
    · simp [State.dmaRxReady, h3]
  rw [drive_run (s := s.setUq (.respond r :: q)) h, ha]
  cases hr : respond r (s.setUq (.respond r :: q)) with
  | next t =>
    obtain ⟨st, b, rfl⟩ := respond_next hr
    exact drive_idle rfl
  | fault f => rfl
  | refused x => rfl

theorem drive_release {s : State} {q : List MicroOp} (h : s.Quiet) :
    drive (s.setUq (.release :: q)) = .next { s with phase := .idle, uq := [] } :=
  (drive_quiet (h.setUq _) (by simp [State.seqReady, h.running]) rfl).trans (drive_idle rfl)

/-! ### Bulk transfers -/

/-- One byte moved by the three agents one after another: `DmaTx`, `Shifter`, `DmaRx`. -/
def State.bulkByte (s : State) : State := s.dmaTxMove.shift.dmaRxMove

/-- `n` bytes moved so. -/
def State.bulkBytes : Nat → State → State
  | 0, s => s
  | n + 1, s => State.bulkBytes n s.bulkByte

/-- Inside a bulk transfer, whatever the schedule has done so far: the counts agree (as in `State.bulkOk`) and only one channel
faces the caller's buffer. -/
structure State.InBulk (s : State) (q : List MicroOp) : Prop where
  running : s.phase = .run
  powered : s.spiEn = true
  waiting : s.uq = .bulkWait :: q
  counts : s.bulkOk = true
  oneBuffer : s.chRx.inc = !s.chTx.inc

/-- What a bulk transfer comes to from any of its in-flight states: the byte received is taken, the byte handed out is
exchanged and taken, and the rest follow. -/
def State.bulkRest (s : State) : State :=
  let s1 := if s.rxne then s.dmaRxMove else s
  let s2 := if s1.txe then s1 else s1.shift.dmaRxMove
  State.bulkBytes s2.chTx.cnt.toNat s2

theorem bulkOk_iff {s : State} : s.bulkOk = true ↔
    s.chTx.en = true ∧ s.chRx.en = true ∧ s.dmaReqTx = true ∧ s.dmaReqRx = true ∧
    s.chRx.cnt.toNat = s.chTx.cnt.toNat + (!s.txe).toNat + s.rxne.toNat ∧
    s.chTx.tc = decide (s.chTx.cnt = 0) ∧ s.chRx.tc = decide (s.chRx.cnt = 0) := by
  simp only [State.bulkOk, Bool.and_eq_true, decide_eq_true_eq, and_assoc]

theorem toNat_eq_zero {c : Word} : c = 0 ↔ c.toNat = 0 :=
  ⟨fun h => by rw [h]; rfl, fun h => BitVec.eq_of_toNat_eq h⟩

theorem advance_tc {c : Channel} (h : c.tc = decide (c.cnt = 0)) (h0 : c.cnt ≠ 0) :
    c.advance.tc = decide (c.advance.cnt = 0) := by
  have : c.tc = false := h.trans (decide_eq_false h0)
  simp only [Channel.advance, this]
  by_cases h1 : c.cnt - 1 = 0 <;> simp

theorem bulkOk_shift {s : State} (h : s.bulkOk = true) (hr : s.shifterReady = true) : s.shift.bulkOk = true := by
  rw [bulkOk_iff] at h ⊢
  simp only [State.shifterReady, Bool.and_eq_true, Bool.not_eq_true'] at hr
  obtain ⟨h1, h2, h3, h4, h5, h6, h7⟩ := h
  refine ⟨h1, h2, h3, h4, ?_, h6, h7⟩
  simpa [hr.1.2, hr.2] using h5

theorem bulkOk_dmaTxMove {s : State} (h : s.bulkOk = true) (hr : s.dmaTxReady = true) : s.dmaTxMove.bulkOk = true := by
  rw [bulkOk_iff] at h ⊢
  simp only [State.dmaTxReady, Bool.and_eq_true, decide_eq_true_eq] at hr
  obtain ⟨h1, h2, h3, h4, h5, h6, h7⟩ := h
  refine ⟨h1, h2, h3, h4, ?_, advance_tc h6 hr.2, h7⟩
  have := pred_toNat hr.2
  simp only [hr.1.2, Bool.not_true, Bool.toNat_false] at h5
  simp only [State.dmaTxMove_chRx, State.dmaTxMove_chTx, State.dmaTxMove_txe, State.dmaTxMove_rxne, Channel.advance_cnt,
    Bool.not_false, Bool.toNat_true]
  omega

theorem bulkOk_dmaRxMove {s : State} (h : s.bulkOk = true) (hr : s.dmaRxReady = true) : s.dmaRxMove.bulkOk = true := by
  rw [bulkOk_iff] at h ⊢
  simp only [State.dmaRxReady, Bool.and_eq_true, decide_eq_true_eq] at hr
  obtain ⟨h1, h2, h3, h4, h5, h6, h7⟩ := h
  simp only [State.dmaRxMove_chTx, State.dmaRxMove_chRx, State.dmaRxMove_dmaReqTx, State.dmaRxMove_dmaReqRx,
    State.dmaRxMove_txe, State.dmaRxMove_rxne, Channel.advance_en, Channel.advance_cnt]
  refine ⟨h1, h2, h3, h4, ?_, h6, advance_tc h7 hr.2⟩
  have := pred_toNat hr.2
  simp only [hr.1.2, Bool.toNat_true] at h5
  simp only [Bool.toNat_false]
  omega

theorem State.InBulk.shift {s : State} {q : List MicroOp} (h : s.InBulk q) (hr : s.shifterReady = true) : s.shift.InBulk q :=
  ⟨h.running, h.powered, h.waiting, bulkOk_shift h.counts hr, h.oneBuffer⟩

theorem State.InBulk.dmaTxMove {s : State} {q : List MicroOp} (h : s.InBulk q) (hr : s.dmaTxReady = true) :
    s.dmaTxMove.InBulk q :=
  ⟨h.running, h.powered, h.waiting, bulkOk_dmaTxMove h.counts hr, h.oneBuffer⟩

theorem State.InBulk.dmaRxMove {s : State} {q : List MicroOp} (h : s.InBulk q) (hr : s.dmaRxReady = true) :
    s.dmaRxMove.InBulk q :=
  ⟨by simp [h.running], by simp [h.powered], by simp [h.waiting], bulkOk_dmaRxMove h.counts hr, by simp [h.oneBuffer]⟩

theorem State.InBulk.schedule {s : State} {q : List MicroOp} (h : s.InBulk q) (ks : List Nat) :
    ({ s with schedule := ks } : State).InBulk q :=
  ⟨h.running, h.powered, h.waiting, h.counts, h.oneBuffer⟩

/-- The two channels do not disturb each other: one of them does not touch host memory (42 R212, 20_memory R81 item 4). -/
theorem dma_commute {s : State} (h : s.chRx.inc = !s.chTx.inc) : s.dmaTxMove.dmaRxMove = s.dmaRxMove.dmaTxMove := by
  cases hi : s.chTx.inc <;> rw [hi] at h <;>
    simp [State.dmaRxMove, State.dmaTxMove, State.dmaTxSource, h, hi, State.store, State.load]

theorem bulkRest_shift {s : State} (hr : s.shifterReady = true) : s.shift.bulkRest = s.bulkRest := by
  simp only [State.shifterReady, Bool.and_eq_true, Bool.not_eq_true'] at hr
  simp [State.bulkRest, hr.1.2, hr.2]

theorem bulkRest_dmaRxMove {s : State} (hr : s.dmaRxReady = true) : s.dmaRxMove.bulkRest = s.bulkRest := by
  simp only [State.dmaRxReady, Bool.and_eq_true] at hr
  simp [State.bulkRest, hr.1.2]

theorem bulkBytes_pos {s : State} {n m : Nat} (h : n = m + 1) : State.bulkBytes n s = State.bulkBytes m s.bulkByte := by
  rw [h]; rfl

theorem bulkRest_dmaTxMove {s : State} (hr : s.dmaTxReady = true) (hi : s.chRx.inc = !s.chTx.inc) :
    s.dmaTxMove.bulkRest = s.bulkRest := by
  simp only [State.dmaTxReady, Bool.and_eq_true, decide_eq_true_eq] at hr
  have hc := (pred_toNat hr.2).symm
  cases hx : s.rxne with
  | false =>
    simp only [State.bulkRest, hx, State.dmaTxMove_rxne, State.dmaTxMove_txe, hr.1.2, if_true, Bool.false_eq_true, if_false,
      bulkBytes_pos hc]
    simp [State.bulkByte]
  | true =>
    simp only [State.bulkRest, hx, State.dmaTxMove_rxne, State.dmaRxMove_txe, State.dmaTxMove_txe, hr.1.2, if_true,
      Bool.false_eq_true, if_false, State.dmaRxMove_chTx, bulkBytes_pos hc, dma_commute hi]
    simp [State.bulkByte, ← dma_commute hi]

theorem dmaRxMove_setSchedule (s : State) (ks : List Nat) :
    ({ s with schedule := ks } : State).dmaRxMove = { s.dmaRxMove with schedule := ks } := by
  simp only [State.dmaRxMove]
  split <;> rfl

theorem bulkBytes_setSchedule (s : State) (n : Nat) (ks : List Nat) :
    State.bulkBytes n { s with schedule := ks } = { State.bulkBytes n s with schedule := ks } := by
  induction n generalizing s with
  | zero => rfl
  | succ n ih => exact (congrArg (State.bulkBytes n) (dmaRxMove_setSchedule s.dmaTxMove.shift ks)).trans (ih _)

theorem bulkRest_setSchedule (s : State) (ks : List Nat) :
    ({ s with schedule := ks } : State).bulkRest = { s.bulkRest with schedule := ks } := by
  have h1 : (if s.rxne then ({ s with schedule := ks } : State).dmaRxMove else { s with schedule := ks }) =
      ({ (if s.rxne then s.dmaRxMove else s) with schedule := ks } : State) := by
    rw [dmaRxMove_setSchedule]
    split <;> rfl
  simp only [State.bulkRest, h1]
  generalize (if s.rxne then s.dmaRxMove else s) = u
  have h2 : (if u.txe then ({ u with schedule := ks } : State)
      else ({ u with schedule := ks } : State).shift.dmaRxMove) =
      ({ (if u.txe then u else u.shift.dmaRxMove) with schedule := ks } : State) := by
    split
    · rfl
    · exact dmaRxMove_setSchedule u.shift ks
  rw [h2]
  exact bulkBytes_setSchedule _ _ _

/-- Once `ch_rx.tc = 1` nothing is left to move (42 R206, 20_memory R83). -/
theorem bulkRest_done {s : State} (h : s.bulkOk = true) (hd : s.chRx.tc = true) : s.bulkRest = s := by
  obtain ⟨-, -, -, -, h5, -, h7⟩ := bulkOk_iff.1 h
  rw [hd, eq_comm, decide_eq_true_eq] at h7
  rw [toNat_eq_zero.1 h7] at h5
  have hx : s.rxne = false := by cases hx : s.rxne <;> simp [hx] at h5 ⊢
  have ht : s.txe = true := by cases ht : s.txe <;> simp [ht] at h5 ⊢; omega
  have hc : s.chTx.cnt.toNat = 0 := by omega
  simp [State.bulkRest, hx, ht, hc, State.bulkBytes]

/-- Inside a bulk transfer some agent may always step (70 R312). -/
theorem bulk_progress {s : State} {q : List MicroOp} (h : s.InBulk q) : s.enabledAgents ≠ [] := by
  obtain ⟨h1, h2, h3, h4, h5, h6, h7⟩ := bulkOk_iff.1 h.counts
  intro he
  have hn : ∀ a, s.enabled a = false := fun a => by
    cases ha : s.enabled a with
    | false => rfl
    | true =>
      have := mem_enabledAgents.2 ha
      rw [he] at this
      cases this
  have e1 : s.seqReady = false := hn .seq
  have e2 : s.shifterReady = false := hn .shifter
  have e3 : s.dmaTxReady = false := hn .dmaTx
  have e4 : s.dmaRxReady = false := hn .dmaRx
  simp only [State.seqReady, h.running, h.waiting, h7, decide_true, Bool.true_and, decide_eq_false_iff_not] at e1
  have hc := fun h0 => e1 (toNat_eq_zero.2 h0)
  simp only [State.shifterReady, h.powered, Bool.true_and] at e2
  simp only [State.dmaTxReady, h1, h3, Bool.true_and] at e3
  simp only [State.dmaRxReady, h2, h4, Bool.true_and] at e4
  cases hx : s.rxne with
  | true => simp [hx] at e4; exact e1 e4
  | false =>
    cases ht : s.txe with
    | false => simp [hx, ht] at e2
    | true =>
      simp only [ht, Bool.true_and, ne_eq, decide_not, Bool.not_eq_false', decide_eq_true_eq] at e3
      simp only [hx, ht, toNat_eq_zero.1 e3] at h5
      exact hc h5

/-- A bulk transfer comes to the same whatever the schedule (42 R212): `drive` goes on from `bulkRest`, disarmed. -/
theorem drive_bulk {s : State} {q : List MicroOp} (h : s.InBulk q) :
    ∃ ks, drive s = drive { s.bulkRest.disarm.setUq q with schedule := ks } := by
  generalize hw : s.work = w
  induction w using Nat.strong_induction_on generalizing s with
  | _ w ih =>
    obtain ⟨he, -⟩ | ⟨a, ks, ha, hstep⟩ := atomicStep_cases s
    · exact absurd he (bulk_progress h)
    have hk := h.schedule ks
    have go : ∀ t : State, agentStep a { s with schedule := ks } = .next t → t.InBulk q →
        t.bulkRest = { s.bulkRest with schedule := ks } →
        ∃ ks, drive s = drive { s.bulkRest.disarm.setUq q with schedule := ks } := by
      intro t ht hb hr
      have hlt := atomicStep_work_lt (hstep.trans ht)
      obtain ⟨ks', hd⟩ := ih t.work (by omega) hb rfl
      refine ⟨ks', ?_⟩
      rw [drive_next h.running (hstep.trans ht), hd, hr]
      rfl
    cases a with
    | seq =>
      have htc : s.chRx.tc = true := by
        simpa [State.enabled, State.seqReady, h.running, h.waiting] using ha
      refine ⟨ks, ?_⟩
      rw [bulkRest_done h.counts htc]
      refine drive_next h.running (hstep.trans ?_)
      simp only [agentStep, seqStep, h.waiting]
      rfl
    | shifter =>
      exact go _ rfl (hk.shift ha) ((bulkRest_shift (s := { s with schedule := ks }) ha).trans (bulkRest_setSchedule s ks))
    | dmaTx =>
      exact go _ rfl (hk.dmaTxMove ha)
        ((bulkRest_dmaTxMove (s := { s with schedule := ks }) ha h.oneBuffer).trans (bulkRest_setSchedule s ks))
    | dmaRx =>
      exact go _ rfl (hk.dmaRxMove ha)
        ((bulkRest_dmaRxMove (s := { s with schedule := ks }) ha).trans (bulkRest_setSchedule s ks))

end Sys2Proof.Machine
end

