-- ==== Sys2Proof/Laws/Bulk.lean ====
section
/-! SUPPORT. The effect of BULK_RX and BULK_TX in closed form (42 R212), for every schedule. -/

namespace Sys2Proof.Machine

theorem Memory.writeAll_append (m : Memory) (a : Nat) (bs : List Byte) (b : Byte) :
    Memory.writeAll m a (bs ++ [b]) = (Memory.writeAll m a bs).write (a + bs.length) b := by
  induction bs generalizing m a with
  | nil => rfl
  | cons c bs ih =>
    rw [List.cons_append, Memory.writeAll, Memory.writeAll, ih, List.length_cons]
    congr 1
    omega

/-- A channel after `n` bytes. -/
def Channel.advanceAll : Nat → Channel → Channel
  | 0, c => c
  | n + 1, c => (Channel.advanceAll n c).advance

@[simp] theorem Channel.advanceAll_en (n : Nat) (c : Channel) : (Channel.advanceAll n c).en = c.en := by
  induction n with
  | zero => rfl
  | succ n ih => exact ih

@[simp] theorem Channel.advanceAll_inc (n : Nat) (c : Channel) : (Channel.advanceAll n c).inc = c.inc := by
  induction n with
  | zero => rfl
  | succ n ih => exact ih

theorem Channel.advanceAll_cnt (n : Nat) (c : Channel) : (Channel.advanceAll n c).cnt = c.cnt - BitVec.ofNat 32 n := by
  induction n with
  | zero => simp [Channel.advanceAll]
  | succ n ih =>
    rw [Channel.advanceAll, Channel.advance_cnt, ih, BitVec.sub_sub]
    congr 1
    exact (BitVec.ofNat_add n 1).symm

theorem Channel.advanceAll_addr (n : Nat) (c : Channel) :
    (Channel.advanceAll n c).addr = if c.inc then c.addr + BitVec.ofNat 32 n else c.addr := by
  induction n with
  | zero => simp [Channel.advanceAll]
  | succ n ih =>
    have : (Channel.advanceAll (n + 1) c).addr =
        if (Channel.advanceAll n c).inc then (Channel.advanceAll n c).addr + 1 else (Channel.advanceAll n c).addr := rfl
    rw [this, ih, Channel.advanceAll_inc]
    split
    · rw [BitVec.add_assoc]
      congr 1
      exact (BitVec.ofNat_add n 1).symm
    · rfl

/-- An armed channel that has moved all its bytes, disarmed. -/
theorem Channel.disarm_advanceAll (i : Bool) (a n : Word) :
    (Channel.advanceAll n.toNat (Channel.armed i a n)).disarm =
      { en := false, addr := if i then a + n else a, inc := i, cnt := 0, tc := false } := by
  apply Channel.ext
  · rfl
  · simp [Channel.advanceAll_addr]
  · simp
  · simp [Channel.advanceAll_cnt]
  · rfl

theorem addr_toNat {a : Word} {n i : Nat} (h : a.toNat + n ≤ Config.hostSpace) (hi : i < n) :
    (a + BitVec.ofNat 32 i).toNat = a.toNat + i := by
  simp only [Config.hostSpace] at h
  rw [BitVec.toNat_add, BitVec.toNat_ofNat]
  omega

/-- What `n` bytes of a bulk receive leave. -/
def State.received (s : State) (n : Nat) : State :=
  { s with
    trace := s.trace ++ (List.range n).map (fun i => .xfer s.filler (s.chipAhead i)),
    mem := s.mem.writeAll s.chRx.addr.toNat ((List.range n).map s.chipAhead),
    txBuf := s.filler, rxBuf := s.chipAhead (n - 1), txe := true, rxne := false,
    chTx := Channel.advanceAll n s.chTx, chRx := Channel.advanceAll n s.chRx,
    chipScript := s.chipScript.drop n, drawn := s.drawn + n }

/-- What `n` bytes of a bulk transmit leave. -/
def State.transmitted (s : State) (n : Nat) : State :=
  { s with
    trace := s.trace ++ (List.range n).map (fun i => .xfer (s.mem.read (s.chTx.addr.toNat + i)) (s.chipAhead i)),
    txBuf := s.mem.read (s.chTx.addr.toNat + (n - 1)), rxBuf := s.chipAhead (n - 1), txe := true, rxne := false,
    sink := s.chipAhead (n - 1),
    chTx := Channel.advanceAll n s.chTx, chRx := Channel.advanceAll n s.chRx,
    chipScript := s.chipScript.drop n, drawn := s.drawn + n }

theorem bulkBytes_last (s : State) (n : Nat) : State.bulkBytes (n + 1) s = (State.bulkBytes n s).bulkByte := by
  induction n generalizing s with
  | zero => rfl
  | succ n ih => exact ih s.bulkByte

theorem chipAhead_drop {s t : State} {n : Nat} (h : t.chipScript = s.chipScript.drop n) (h' : t.drawn = s.drawn + n)
    (k : Nat) : t.chipAhead k = s.chipAhead (n + k) := by
  simp only [State.chipAhead, h, h', List.getElem?_drop, Nat.add_assoc]

theorem bulkByte_receive {s : State} (hr : s.chRx.inc = true) (ht : s.chTx.inc = false) :
    s.bulkByte =
      { s with
        trace := s.trace ++ [.xfer s.filler (s.chipAhead 0)], mem := s.mem.write s.chRx.addr.toNat (s.chipAhead 0),
        txBuf := s.filler, rxBuf := s.chipAhead 0, txe := true, rxne := false, chTx := s.chTx.advance,
        chRx := s.chRx.advance, chipScript := s.chipScript.tail, drawn := s.drawn + 1 } := by
  apply State.ext <;> simp [State.bulkByte, State.dmaTxSource, hr, ht]

theorem bulkByte_transmit {s : State} (hr : s.chRx.inc = false) (ht : s.chTx.inc = true) :
    s.bulkByte =
      { s with
        trace := s.trace ++ [.xfer (s.mem.read s.chTx.addr.toNat) (s.chipAhead 0)],
        txBuf := s.mem.read s.chTx.addr.toNat, rxBuf := s.chipAhead 0, txe := true, rxne := false, sink := s.chipAhead 0,
        chTx := s.chTx.advance, chRx := s.chRx.advance, chipScript := s.chipScript.tail, drawn := s.drawn + 1 } := by
  apply State.ext <;> simp [State.bulkByte, State.dmaTxSource, State.load, hr, ht]

theorem bulkBytes_receive {s : State} {n : Nat} (hr : s.chRx.inc = true) (ht : s.chTx.inc = false)
    (hf : s.chRx.addr.toNat + (n + 1) ≤ Config.hostSpace) : State.bulkBytes (n + 1) s = s.received (n + 1) := by
  induction n with
  | zero =>
    rw [State.bulkBytes, State.bulkBytes, bulkByte_receive hr ht]
    apply State.ext <;> simp [State.received, Channel.advanceAll, Memory.writeAll]
  | succ n ih =>
    have hc : (s.received (n + 1)).chipAhead 0 = s.chipAhead (n + 1) := chipAhead_drop rfl rfl 0
    have ha : (Channel.advanceAll n s.chRx).advance.addr.toNat = s.chRx.addr.toNat + (n + 1) := by
      rw [← Channel.advanceAll, Channel.advanceAll_addr, if_pos hr]
      exact addr_toNat hf (Nat.lt_succ_self _)
    rw [bulkBytes_last, ih (by omega), bulkByte_receive (by simp [State.received, hr]) (by simp [State.received, ht]), hc]
    apply State.ext <;>
      simp [State.received, List.range_succ (n := n + 1), Memory.writeAll_append, ha, Channel.advanceAll, Nat.add_assoc]

theorem bulkBytes_transmit {s : State} {n : Nat} (hr : s.chRx.inc = false) (ht : s.chTx.inc = true)
    (hf : s.chTx.addr.toNat + (n + 1) ≤ Config.hostSpace) : State.bulkBytes (n + 1) s = s.transmitted (n + 1) := by
  induction n with
  | zero =>
    rw [State.bulkBytes, State.bulkBytes, bulkByte_transmit hr ht]
    apply State.ext <;> simp [State.transmitted, Channel.advanceAll]
  | succ n ih =>
    have hc : (s.transmitted (n + 1)).chipAhead 0 = s.chipAhead (n + 1) := chipAhead_drop rfl rfl 0
    have ha : (Channel.advanceAll n s.chTx).advance.addr.toNat = s.chTx.addr.toNat + (n + 1) := by
      rw [← Channel.advanceAll, Channel.advanceAll_addr, if_pos ht]
      exact addr_toNat hf (Nat.lt_succ_self _)
    rw [bulkBytes_last, ih (by omega), bulkByte_transmit (by simp [State.transmitted, hr])
      (by simp [State.transmitted, ht]), hc]
    apply State.ext <;>
      simp [State.transmitted, List.range_succ (n := n + 1), ha, Channel.advanceAll, Nat.add_assoc]

/-- The state after `BULK_RX(buf, n)` (42 R212): `n` filler bytes exchanged, the answers in the buffer, both channels off. -/
def State.bulkReceived (s : State) (buf n : Word) : State :=
  { s with
    trace := s.trace ++ (List.range n.toNat).map (fun i => .xfer s.filler (s.chipAhead i)),
    mem := s.mem.writeAll buf.toNat ((List.range n.toNat).map s.chipAhead),
    txBuf := s.filler, rxBuf := s.chipAhead (n.toNat - 1), txe := true, rxne := false, dmaReqTx := true, dmaReqRx := true,
    chTx := { en := false, addr := buf, inc := false, cnt := 0, tc := false },
    chRx := { en := false, addr := buf + n, inc := true, cnt := 0, tc := false },
    chipScript := s.chipScript.drop n.toNat, drawn := s.drawn + n.toNat }

/-- The state after `BULK_TX(buf, n)` (42 R212): the `n` bytes of the buffer exchanged, the last answer in `sink`. -/
def State.bulkTransmitted (s : State) (buf n : Word) : State :=
  { s with
    trace := s.trace ++ (List.range n.toNat).map (fun i => .xfer (s.mem.read (buf.toNat + i)) (s.chipAhead i)),
    txBuf := s.mem.read (buf.toNat + (n.toNat - 1)), rxBuf := s.chipAhead (n.toNat - 1), txe := true, rxne := false,
    sink := s.chipAhead (n.toNat - 1), dmaReqTx := true, dmaReqRx := true,
    chTx := { en := false, addr := buf + n, inc := true, cnt := 0, tc := false },
    chRx := { en := false, addr := buf, inc := false, cnt := 0, tc := false },
    chipScript := s.chipScript.drop n.toNat, drawn := s.drawn + n.toNat }

theorem bulkOk_armed {s : State} {n : Word} (h : s.Quiet) (hn : n ≠ 0) (tx : Bool) (buf : Word) :
    (s.armBulk tx buf n).bulkOk = true := by
  have hd : decide (n = 0) = false := decide_eq_false hn
  exact bulkOk_iff.2 ⟨rfl, rfl, rfl, rfl, by simp [h.empty, h.drained], hd.symm, hd.symm⟩

theorem drive_bulk_start {s : State} {tx : Bool} {buf n : Word} {q : List MicroOp} (h : s.Quiet) (hn : n ≠ 0) :
    ∃ ks, drive ((s.armBulk tx buf n).setUq (.bulkWait :: q)) =
      drive { ((State.bulkBytes n.toNat (s.armBulk tx buf n)).disarm.setUq q) with schedule := ks } := by
  have hb : ((s.armBulk tx buf n).setUq (.bulkWait :: q)).InBulk q :=
    ⟨h.running, h.powered, rfl, bulkOk_armed h hn tx buf, rfl⟩
  obtain ⟨ks, hk⟩ := drive_bulk hb
  refine ⟨ks, hk.trans ?_⟩
  have hr : ∀ (m : Nat) (t : State) (p : List MicroOp),
      (State.bulkBytes m (t.setUq p)) = (State.bulkBytes m t).setUq p := by
    intro m
    induction m with
    | zero => intro t p; rfl
    | succ m ih =>
      intro t p
      have hx : (t.setUq p).bulkByte = t.bulkByte.setUq p := by
        simp only [State.bulkByte, State.dmaRxMove]
        by_cases hi : t.chRx.inc
        · rw [if_pos (by exact hi), if_pos (by exact hi)]; rfl
        · rw [if_neg (by exact hi), if_neg (by exact hi)]; rfl
      rw [State.bulkBytes, hx, ih]
      rfl
  have hrest : ((s.armBulk tx buf n).setUq (.bulkWait :: q)).bulkRest =
      (State.bulkBytes n.toNat (s.armBulk tx buf n)).setUq (.bulkWait :: q) := by
    rw [← hr]
    simp [State.bulkRest, h.empty, h.drained]
  rw [hrest]
  rfl

/-- `BULK_RX(buf, n)` under every schedule (42 R209, R212). -/
theorem drive_bulkRx {s : State} {buf n : Word} {q : List MicroOp} (h : s.Quiet) (hn : n ≠ 0)
    (hf : buf.toNat + n.toNat ≤ Config.hostSpace) :
    ∃ ks, drive (s.setUq (.bulkRx buf n :: q)) = drive { (s.bulkReceived buf n).setUq q with schedule := ks } := by
  obtain ⟨ks, hk⟩ := drive_bulk_start (tx := false) (buf := buf) (q := q) h hn
  refine ⟨ks, ((drive_quiet (h.setUq _) (by simp [State.seqReady, h.running]) rfl).trans hk).trans ?_⟩
  obtain ⟨m, hm⟩ : ∃ m, n.toNat = m + 1 := ⟨n.toNat - 1, by have := mt toNat_eq_zero.2 hn; omega⟩
  congr 1
  have hB : State.bulkBytes n.toNat (s.armBulk false buf n) = (s.armBulk false buf n).received n.toNat := by
    rw [hm]
    exact bulkBytes_receive (s := s.armBulk false buf n) (n := m) rfl rfl (hm ▸ hf)
  rw [hB]
  have e1 := Channel.disarm_advanceAll false buf n
  have e2 := Channel.disarm_advanceAll true buf n
  have e3 : (s.armBulk false buf n).chipAhead = s.chipAhead := rfl
  apply State.ext <;> simp [State.received, State.bulkReceived, e1, e2, e3]

/-- `BULK_TX(buf, n)` under every schedule (42 R208, R212). -/
theorem drive_bulkTx {s : State} {buf n : Word} {q : List MicroOp} (h : s.Quiet) (hn : n ≠ 0)
    (hf : buf.toNat + n.toNat ≤ Config.hostSpace) :
    ∃ ks, drive (s.setUq (.bulkTx buf n :: q)) = drive { (s.bulkTransmitted buf n).setUq q with schedule := ks } := by
  obtain ⟨ks, hk⟩ := drive_bulk_start (tx := true) (buf := buf) (q := q) h hn
  refine ⟨ks, ((drive_quiet (h.setUq _) (by simp [State.seqReady, h.running]) rfl).trans hk).trans ?_⟩
  obtain ⟨m, hm⟩ : ∃ m, n.toNat = m + 1 := ⟨n.toNat - 1, by have := mt toNat_eq_zero.2 hn; omega⟩
  congr 1
  have hB : State.bulkBytes n.toNat (s.armBulk true buf n) = (s.armBulk true buf n).transmitted n.toNat := by
    rw [hm]
    exact bulkBytes_transmit (s := s.armBulk true buf n) (n := m) rfl rfl (hm ▸ hf)
  rw [hB]
  have e1 := Channel.disarm_advanceAll false buf n
  have e2 := Channel.disarm_advanceAll true buf n
  apply State.ext <;> simp [State.transmitted, State.bulkTransmitted, e1, e2]

theorem State.Quiet.bulkReceived {s : State} (h : s.Quiet) (buf n : Word) (ks : List Nat) :
    ({ s.bulkReceived buf n with schedule := ks } : State).Quiet :=
  ⟨h.running, h.powered, rfl, rfl, rfl, rfl⟩

theorem State.Quiet.bulkTransmitted {s : State} (h : s.Quiet) (buf n : Word) (ks : List Nat) :
    ({ s.bulkTransmitted buf n with schedule := ks } : State).Quiet :=
  ⟨h.running, h.powered, rfl, rfl, rfl, rfl⟩

end Sys2Proof.Machine
end

