-- ==== Sys2Proof/Laws/Encoding.lean ====
section
/-! SUPPORT. Taking apart and putting together the fields of a descriptor and the bytes of a frame (30_encoding R103, R111). -/

namespace Sys2Proof

/-- A field that lies in the low part. -/
theorem extract_append_low {n m : Nat} (x : BitVec n) (y : BitVec m) (i k : Nat) (h : i + k ≤ m) :
    (x ++ y).extractLsb' i k = y.extractLsb' i k := by
  apply BitVec.eq_of_getLsbD_eq
  intro j hj
  simp only [BitVec.getLsbD_extractLsb', BitVec.getLsbD_append]
  rw [if_pos (by omega)]

/-- A field that lies in the high part. -/
theorem extract_append_high {n m : Nat} (x : BitVec n) (y : BitVec m) (i k : Nat) (h : m ≤ i) :
    (x ++ y).extractLsb' i k = x.extractLsb' (i - m) k := by
  apply BitVec.eq_of_getLsbD_eq
  intro j hj
  simp only [BitVec.getLsbD_extractLsb', BitVec.getLsbD_append]
  rw [if_neg (by omega), Nat.sub_add_comm h]

/-- Two fields that meet. -/
theorem append_extract {n : Nat} (x : BitVec n) (i k l : Nat) :
    x.extractLsb' (i + k) l ++ x.extractLsb' i k = (x.extractLsb' i (k + l)).cast (Nat.add_comm k l) := by
  apply BitVec.eq_of_getLsbD_eq
  intro j hj
  simp only [BitVec.getLsbD_extractLsb', BitVec.getLsbD_append, BitVec.getLsbD_cast]
  by_cases h : j < k
  · rw [if_pos h]; simp [h]; omega
  · rw [if_neg h]
    have e : i + k + (j - k) = i + j := by omega
    have e2 : decide (j - k < l) = decide (j < k + l) := decide_eq_decide.2 (by omega)
    rw [e, e2]

/-- The operand fields of a packed descriptor (R103). -/
theorem operands_pack (op : BitVec 4) (x : Operands) : descriptorOperands (packDescriptor op x) = x := by
  obtain ⟨p, o, s, b⟩ := x
  simp only [descriptorOperands, packDescriptor, Operands.mk.injEq]
  refine ⟨?_, ?_, ?_, ?_⟩
  · rw [extract_append_high _ _ _ _ (by decide), extract_append_high _ _ _ _ (by decide),
      extract_append_high _ _ _ _ (by decide), extract_append_low _ _ _ _ (by decide)]
    exact BitVec.extractLsb'_eq_self
  · rw [extract_append_high _ _ _ _ (by decide), extract_append_high _ _ _ _ (by decide),
      extract_append_low _ _ _ _ (by decide)]
    exact BitVec.extractLsb'_eq_self
  · rw [extract_append_high _ _ _ _ (by decide), extract_append_low _ _ _ _ (by decide)]
    exact BitVec.extractLsb'_eq_self
  · rw [extract_append_low _ _ _ _ (by decide)]
    exact BitVec.extractLsb'_eq_self

/-- The command bits of a packed descriptor (R103). -/
theorem opBit_pack (op : BitVec 4) (x : Operands) (i : Nat) :
    (packDescriptor op x).getLsbD (i + 128) = op.getLsbD i := by
  simp only [packDescriptor, BitVec.getLsbD_append]
  rw [if_neg (by omega), if_neg (by omega), if_neg (by omega), if_neg (by omega)]
  exact congrArg op.getLsbD (by omega)

/-- A packed descriptor decodes by its command code alone (R101, R103). -/
theorem decodeDescriptor_pack (op : BitVec 4) (x : Operands) :
    decodeDescriptor (packDescriptor op x) =
      match op.getLsbD 3, op.getLsbD 2, op.getLsbD 1, op.getLsbD 0 with
      | false, false, false, false => .init x
      | false, false, false, true => .uninit x
      | false, false, true, false => .readId x
      | false, false, true, true => .eraseBlock x
      | false, true, false, false => .readPage x
      | false, true, false, true => .readSpareData x
      | false, true, true, false => .writePageAsync x
      | false, true, true, true => .readStatus x
      | true, false, false, false => .isBadBlockSupported x
      | true, false, false, true => .waitReady x
      | true, false, true, false => .reservedA x
      | true, false, true, true => .reservedB x
      | true, true, false, false => .reservedC x
      | true, true, false, true => .reservedD x
      | true, true, true, false => .reservedE x
      | true, true, true, true => .reservedF x := by
  simp only [decodeDescriptor, operands_pack, opBit_pack op x 3, opBit_pack op x 2, opBit_pack op x 1,
    opBit_pack op x 0] <;> rfl

/-- The three bytes of an address make it up (20_memory R75 item 1). -/
theorem join_addr (a : WireAddr) : joinAddr (a.extractLsb' 16 8) (a.extractLsb' 8 8) (a.extractLsb' 0 8) = a := by
  simp only [joinAddr]
  rw [append_extract a 8 8 8, BitVec.cast_eq, append_extract a 0 8 16, BitVec.cast_eq]
  exact BitVec.extractLsb'_eq_self

/-- The six bytes of the dummy field make it up (R111). -/
theorem join_dummies (d : BitVec 48) :
    joinDummies (d.extractLsb' 40 8) (d.extractLsb' 32 8) (d.extractLsb' 24 8) (d.extractLsb' 16 8) (d.extractLsb' 8 8)
      (d.extractLsb' 0 8) = d := by
  simp only [joinDummies]
  rw [append_extract d 32 8 8, BitVec.cast_eq, append_extract d 24 8 16, BitVec.cast_eq, append_extract d 16 8 24, BitVec.cast_eq,
    append_extract d 8 8 32, BitVec.cast_eq, append_extract d 0 8 40, BitVec.cast_eq]
  exact BitVec.extractLsb'_eq_self

theorem addrBytes_join (b2 b1 b0 : Byte) : addrBytes (joinAddr b2 b1 b0) = [b2, b1, b0] := by
  simp only [addrBytes, joinAddr]
  rw [extract_append_high _ _ _ _ (by decide), extract_append_high _ _ _ _ (by decide),
    extract_append_high _ _ _ _ (by decide), extract_append_low _ _ _ _ (by decide), extract_append_low _ _ _ _ (by decide)]
  simp [BitVec.extractLsb'_eq_self]

theorem dummyBytes_join (d0 d1 d2 d3 d4 d5 : Byte) :
    dummyBytes (joinDummies d0 d1 d2 d3 d4 d5) = [d0, d1, d2, d3, d4, d5] := by
  simp only [dummyBytes, joinDummies]
  simp (disch := decide) only [extract_append_high, extract_append_low, Nat.reduceSub]
  simp [BitVec.extractLsb'_eq_self]

/-- A descriptor is made up of its fields (R103). -/
theorem pack_operands (op : BitVec 4) (d : DescriptorWord) (h : ∀ i < 4, op.getLsbD i = d.getLsbD (i + 128)) :
    packDescriptor op (descriptorOperands d) = d := by
  have e : op = d.extractLsb' 128 4 := by
    apply BitVec.eq_of_getLsbD_eq
    intro j hj
    rw [h j hj, BitVec.getLsbD_extractLsb']; simp [hj, Nat.add_comm]
  subst e
  simp only [packDescriptor, descriptorOperands]
  rw [append_extract d 96 32 4, BitVec.cast_eq, append_extract d 64 32 36, BitVec.cast_eq, append_extract d 32 32 68,
    BitVec.cast_eq, append_extract d 0 32 100, BitVec.cast_eq]
  exact BitVec.extractLsb'_eq_self

end Sys2Proof
end

