-- ==== Sys2Proof/Laws/Poll.lean ====
section
/-! SUPPORT. The bounded wait in closed form (43 R230, R231). -/

namespace Sys2Proof.Machine

/-- The events of one status frame whose opcode draws answer `k` (41 R175). -/
def statusEvents (s : State) (k : Nat) : List BusEvent :=
  [.sel, .xfer s.cfg.statusCmd (s.chipAhead k), .xfer s.params.dummyByte (s.chipAhead (k + 1)), .desel]

/-- The state after `n` status frames from a deselected, quiet state (41 R175). -/
def State.statusReads (s : State) : Nat → State
  | 0 => s
  | n + 1 =>
    { s with
      cs := false, dmaReqTx := false, dmaReqRx := false, txBuf := s.params.dummyByte, txe := true,
      rxBuf := s.chipAhead (2 * n + 1), rxne := false, statusLatch := s.chipAhead (2 * n + 1),
      trace := s.trace ++ (List.range (n + 1)).flatMap (fun i => statusEvents s (2 * i)),
      chipScript := s.chipScript.drop (2 * n + 2), drawn := s.drawn + (2 * n + 2) }

/-- The state after `k` status reads that decoded `Busy`, inside `Poll()` (43 R230). -/
def State.polledBusy (s : State) (k : Nat) : State :=
  { s.statusReads k with pollCnt := s.pollCnt - BitVec.ofNat 32 k }

theorem State.Quiet.statusReads {s : State} (h : s.Quiet) (n : Nat) : (s.statusReads n).Quiet := by
  cases n with
  | zero => exact h
  | succ n => exact ⟨h.running, h.powered, rfl, rfl, h.txOff, h.rxOff⟩

theorem State.Quiet.polledBusy {s : State} (h : s.Quiet) (k : Nat) : (s.polledBusy k).Quiet :=
  let h' := h.statusReads k
  ⟨h'.running, h'.powered, h'.empty, h'.drained, h'.txOff, h'.rxOff⟩

theorem State.statusReads_cs {s : State} (h : s.cs = false) (n : Nat) : (s.statusReads n).cs = false := by
  cases n with
  | zero => exact h
  | succ n => rfl

@[simp] theorem State.statusReads_cfg (s : State) (n : Nat) : (s.statusReads n).cfg = s.cfg := by cases n <;> rfl
@[simp] theorem State.statusReads_params (s : State) (n : Nat) : (s.statusReads n).params = s.params := by cases n <;> rfl
@[simp] theorem State.statusReads_cmd (s : State) (n : Nat) : (s.statusReads n).cmd = s.cmd := by cases n <;> rfl

theorem State.statusReads_chipAhead (s : State) (n k : Nat) :
    (s.statusReads n).chipAhead k = s.chipAhead (2 * n + k) := by
  cases n with
  | zero => simp [State.statusReads]
  | succ n => exact chipAhead_drop rfl rfl k

/-- One status frame (41 R175). -/
theorem drive_statusFrame {s : State} {q : List MicroOp} (h : s.Quiet) (hc : s.cs = false) :
    drive (s.setUq (statusFrame s.cfg.statusCmd s.params.dummyByte ++ q)) = drive ((s.statusReads 1).setUq q) := by
  simp only [statusFrame, List.cons_append, List.nil_append]
  rw [drive_sel h hc, drive_tx8 h.selected, drive_rx8 (h.selected.exchanged _ _),
    drive_desel ((h.selected.exchanged _ _).exchanged _ _) rfl]
  congr 1
  apply State.ext <;> simp [State.statusReads, statusEvents, ← List.drop_one]

theorem drive_pollTest_zero {s : State} {q : List MicroOp} (h : s.Quiet) (h0 : s.pollCnt = 0) :
    drive (s.setUq (.pollTest :: q)) = drive (({ s with pollResult := .timeout } : State).setUq q) :=
  drive_quiet (h.setUq _) (by simp [State.seqReady, h.running]) (if_pos h0)

/-- One iteration of `Poll()` up to the decode. -/
theorem drive_pollTest {s : State} {q : List MicroOp} (h : s.Quiet) (hc : s.cs = false) (h0 : s.pollCnt ≠ 0) :
    drive (s.setUq (.pollTest :: q)) = drive ((s.statusReads 1).setUq (.pollDecide :: q)) :=
  (drive_quiet (s := s.setUq (.pollTest :: q))
    (t := s.setUq (statusFrame s.cfg.statusCmd s.params.dummyByte ++ .pollDecide :: q)) (h.setUq _)
    (by simp [State.seqReady, h.running]) (if_neg h0)).trans (drive_statusFrame h hc)

theorem drive_pollDecide_busy {s : State} {q : List MicroOp} (h : s.Quiet)
    (hd : decodeStatus s.cfg s.statusLatch = some .busy) :
    drive (s.setUq (.pollDecide :: q)) =
      drive (({ s with pollCnt := pollDecrement s.pollCnt } : State).setUq (.pollTest :: q)) := by
  refine drive_quiet (h.setUq _) (by simp [State.seqReady, h.running]) ?_
  simp only [seqStep, State.setUq_uq, State.setUq_cfg, State.setUq_statusLatch, hd]
  rfl

theorem drive_pollDecide_ready {s : State} {q : List MicroOp} (h : s.Quiet)
    (hd : decodeStatus s.cfg s.statusLatch = some .ready) :
    drive (s.setUq (.pollDecide :: q)) = drive (({ s with pollResult := .ready } : State).setUq q) := by
  refine drive_quiet (h.setUq _) (by simp [State.seqReady, h.running]) ?_
  simp only [seqStep, State.setUq_uq, State.setUq_cfg, State.setUq_statusLatch, hd]
  rfl

theorem drive_pollDecide_refused {s : State} {q : List MicroOp} (h : s.Quiet)
    (hd : decodeStatus s.cfg s.statusLatch = none) : drive (s.setUq (.pollDecide :: q)) = .refused .busyFields := by
  have ha : atomicStep (s.setUq (.pollDecide :: q)) = .refused .busyFields := by
    refine (atomicStep_single ((h.setUq _).seqOnly (by simp [State.seqReady, h.running]))).trans ?_
    simp only [agentStep, seqStep, State.setUq_uq, State.setUq_cfg, State.setUq_statusLatch, hd]
  rw [drive_run (s := s.setUq (.pollDecide :: q)) h.running, ha]

/-- One more status frame. -/
theorem statusReads_succ (s : State) (n : Nat) : (s.statusReads n).statusReads 1 = s.statusReads (n + 1) := by
  cases n with
  | zero => rfl
  | succ n =>
    have hc := State.statusReads_chipAhead s (n + 1)
    have e : statusEvents (s.statusReads (n + 1)) 0 = statusEvents s (2 * (n + 1)) := by
      simp [statusEvents, hc]
    have e2 : (s.statusReads (n + 1)).statusReads 1 =
      { s.statusReads (n + 1) with
        cs := false, dmaReqTx := false, dmaReqRx := false, txBuf := s.params.dummyByte, txe := true,
        rxBuf := (s.statusReads (n + 1)).chipAhead 1, rxne := false,
        statusLatch := (s.statusReads (n + 1)).chipAhead 1,
        trace := (s.statusReads (n + 1)).trace ++ statusEvents (s.statusReads (n + 1)) 0,
        chipScript := (s.statusReads (n + 1)).chipScript.drop 2, drawn := (s.statusReads (n + 1)).drawn + 2 } := by
      apply State.ext <;> simp [State.statusReads]
    rw [e2, hc, e]
    apply State.ext <;> simp [State.statusReads, List.range_succ (n := n + 1), Nat.mul_add, Nat.add_assoc]

theorem polledBusy_cnt {s : State} {k : Nat} (h : k ≤ s.pollCnt.toNat) :
    (s.pollCnt - BitVec.ofNat 32 k).toNat = s.pollCnt.toNat - k := by
  have := s.pollCnt.isLt
  rw [BitVec.toNat_sub, BitVec.toNat_ofNat]
  omega

/-- `k` status reads that all decode `Busy` (43 R230). -/
theorem drive_pollBusy {s : State} {q : List MicroOp} {k : Nat} (h : s.Quiet) (hc : s.cs = false)
    (hk : k ≤ s.pollCnt.toNat) (hb : ∀ i < k, decodeStatus s.cfg (s.chipAhead (2 * i + 1)) = some .busy) :
    drive (s.setUq (.pollTest :: q)) = drive ((s.polledBusy k).setUq (.pollTest :: q)) := by
  induction k with
  | zero =>
    congr 1
    apply State.ext <;> simp [State.polledBusy, State.statusReads]
  | succ k ih =>
    rw [ih (by omega) (fun i hi => hb i (by omega))]
    have hq := h.polledBusy k
    have hcs : (s.polledBusy k).cs = false := State.statusReads_cs hc k
    have hcnt : (s.polledBusy k).pollCnt.toNat = s.pollCnt.toNat - k := polledBusy_cnt (by omega)
    have h0 : (s.polledBusy k).pollCnt ≠ 0 := fun h0 => by
      have := toNat_eq_zero.1 h0
      omega
    rw [drive_pollTest hq hcs h0]
    have e : (s.polledBusy k).statusReads 1 = { s.statusReads (k + 1) with pollCnt := (s.polledBusy k).pollCnt } := by
      have : (s.polledBusy k).statusReads 1 =
          { (s.statusReads k).statusReads 1 with pollCnt := (s.polledBusy k).pollCnt } := rfl
      rw [this, statusReads_succ]
    have hl : ((s.polledBusy k).statusReads 1).statusLatch = s.chipAhead (2 * k + 1) := by rw [e]; rfl
    have hcfg : ((s.polledBusy k).statusReads 1).cfg = s.cfg := by simp [State.polledBusy]
    rw [drive_pollDecide_busy (hq.statusReads 1) (by rw [hl, hcfg]; exact hb k (by omega)), e]
    congr 2
    simp only [State.polledBusy, State.mk.injEq, and_true, true_and]
    show pollDecrement (s.polledBusy k).pollCnt = _
    rw [pollDecrement, if_neg h0]
    show s.pollCnt - BitVec.ofNat 32 k - 1 = _
    rw [BitVec.sub_sub]
    congr 1
    exact (BitVec.ofNat_add k 1).symm

/-- The state `Poll()` starts its loop in: the full budget loaded (43 R230). -/
def State.pollLoaded (s : State) : State := { s with pollCnt := s.params.pollBudget }

theorem drive_poll {s : State} {q : List MicroOp} (h : s.Quiet) :
    drive (s.setUq (.poll :: q)) = drive (s.pollLoaded.setUq (.pollTest :: q)) :=
  drive_quiet (h.setUq _) (by simp [State.seqReady, h.running]) rfl

theorem State.Quiet.pollLoaded {s : State} (h : s.Quiet) : s.pollLoaded.Quiet :=
  ⟨h.running, h.powered, h.empty, h.drained, h.txOff, h.rxOff⟩

theorem pollLoaded_statusReads (s : State) (n : Nat) :
    s.pollLoaded.statusReads n = { s.statusReads n with pollCnt := s.params.pollBudget } := by
  cases n <;> rfl

/-- The state after `Poll()` with `n` status frames, the counter left at `c` and the result `r`. -/
def State.pollEnded (s : State) (n : Nat) (c : Word) (r : FlashStatus) : State :=
  { s.statusReads n with pollCnt := c, pollResult := r }

theorem State.Quiet.pollEnded {s : State} (h : s.Quiet) (n : Nat) (c : Word) (r : FlashStatus) : (s.pollEnded n c r).Quiet :=
  let h' := h.statusReads n
  ⟨h'.running, h'.powered, h'.empty, h'.drained, h'.txOff, h'.rxOff⟩

/-- `Poll()` answers `Ready` after `k + 1` status frames when the first `Ready` is read number `k`, inside the budget
(43 R230, R231). -/
theorem drive_poll_ready {s : State} {q : List MicroOp} {k : Nat} (h : s.Quiet) (hc : s.cs = false)
    (hk : k < s.params.pollBudget.toNat)
    (hb : ∀ i < k, decodeStatus s.cfg (s.chipAhead (2 * i + 1)) = some .busy)
    (hr : decodeStatus s.cfg (s.chipAhead (2 * k + 1)) = some .ready) :
    drive (s.setUq (.poll :: q)) =
      drive ((s.pollEnded (k + 1) (s.params.pollBudget - BitVec.ofNat 32 k) .ready).setUq q) := by
  have hl := h.pollLoaded
  rw [drive_poll h, drive_pollBusy (k := k) hl hc (Nat.le_of_lt hk) hb]
  have hq := hl.polledBusy k
  have hcs : (s.pollLoaded.polledBusy k).cs = false := State.statusReads_cs (s := s.pollLoaded) hc k
  have hcnt : (s.pollLoaded.polledBusy k).pollCnt.toNat = s.params.pollBudget.toNat - k :=
    polledBusy_cnt (s := s.pollLoaded) (Nat.le_of_lt hk)
  have h0 : (s.pollLoaded.polledBusy k).pollCnt ≠ 0 := fun h0 => by
    have := toNat_eq_zero.1 h0
    omega
  have e : (s.pollLoaded.polledBusy k).statusReads 1 =
      { s.statusReads (k + 1) with pollCnt := s.params.pollBudget - BitVec.ofNat 32 k } := by
    have : (s.pollLoaded.polledBusy k).statusReads 1 =
        { (s.pollLoaded.statusReads k).statusReads 1 with pollCnt := s.params.pollBudget - BitVec.ofNat 32 k } := rfl
    rw [this, statusReads_succ, pollLoaded_statusReads]
  have hl' : ((s.pollLoaded.polledBusy k).statusReads 1).statusLatch = s.chipAhead (2 * k + 1) := by rw [e]; rfl
  have hcfg : ((s.pollLoaded.polledBusy k).statusReads 1).cfg = s.cfg := by rw [e]; rfl
  rw [drive_pollTest hq hcs h0, drive_pollDecide_ready (hq.statusReads 1) (by rw [hl', hcfg]; exact hr), e]
  rfl

/-- `Poll()` answers `Timeout` after the whole budget when every read decodes `Busy` (43 R230, R231). -/
theorem drive_poll_timeout {s : State} {q : List MicroOp} (h : s.Quiet) (hc : s.cs = false)
    (hb : ∀ i < s.params.pollBudget.toNat, decodeStatus s.cfg (s.chipAhead (2 * i + 1)) = some .busy) :
    drive (s.setUq (.poll :: q)) =
      drive ((s.pollEnded s.params.pollBudget.toNat 0 .timeout).setUq q) := by
  have hl := h.pollLoaded
  rw [drive_poll h, drive_pollBusy (k := s.params.pollBudget.toNat) hl hc le_rfl hb]
  have h0 : (s.pollLoaded.polledBusy s.params.pollBudget.toNat).pollCnt = 0 := by
    show s.params.pollBudget - BitVec.ofNat 32 s.params.pollBudget.toNat = 0
    simp
  rw [drive_pollTest_zero (hl.polledBusy _) h0]
  congr 2
  rw [State.mk.injEq]
  simp only [State.pollEnded, State.polledBusy, pollLoaded_statusReads, true_and, and_true]
  exact h0

/-- `Poll()` has no meaning when the first read of a budget that is not zero cannot be decoded (41 R177). -/
theorem drive_poll_refused {s : State} {q : List MicroOp} (h : s.Quiet) (hc : s.cs = false)
    (h0 : s.params.pollBudget ≠ 0) (hd : ∀ st, decodeStatus s.cfg st = none) :
    drive (s.setUq (.poll :: q)) = .refused .busyFields := by
  have hl := h.pollLoaded
  rw [drive_poll h, drive_pollTest hl hc h0]
  exact drive_pollDecide_refused (hl.statusReads 1) (by rw [State.statusReads_cfg]; exact hd _)

/-- Whether a status decode has a meaning depends on the configuration alone (41 R177). -/
theorem decodeStatus_cases (cfg : ChipConfig) :
    (∀ st, decodeStatus cfg st = none) ∨ ∀ st, decodeStatus cfg st = some .busy ∨ decodeStatus cfg st = some .ready := by
  by_cases h : cfg.busyBit.toNat ≤ 7 ∧ cfg.busyState.toNat ≤ 1
  · refine .inr fun st => ?_
    simp only [decodeStatus, if_pos h]
    split <;> simp
  · exact .inl fun st => if_neg h

/-- What `Poll()` comes to: `Ready` at the first read that decodes so, `Timeout` when none of the budget does, no meaning when the
busy fields have none (43 R231). -/
theorem poll_cases (s : State) :
    (s.params.pollBudget ≠ 0 ∧ ∀ st, decodeStatus s.cfg st = none) ∨
    (∃ k, k < s.params.pollBudget.toNat ∧ (∀ i < k, decodeStatus s.cfg (s.chipAhead (2 * i + 1)) = some .busy) ∧
      decodeStatus s.cfg (s.chipAhead (2 * k + 1)) = some .ready) ∨
    ∀ i < s.params.pollBudget.toNat, decodeStatus s.cfg (s.chipAhead (2 * i + 1)) = some .busy := by
  by_cases h0 : s.params.pollBudget = 0
  · refine .inr (.inr fun i hi => ?_)
    rw [h0] at hi
    exact absurd hi (Nat.not_lt_zero i)
  obtain hn | hd := decodeStatus_cases s.cfg
  · exact .inl ⟨h0, hn⟩
  by_cases he : ∃ k, k < s.params.pollBudget.toNat ∧ decodeStatus s.cfg (s.chipAhead (2 * k + 1)) = some .ready
  · classical
    refine .inr (.inl ⟨Nat.find he, (Nat.find_spec he).1, fun i hi => ?_, (Nat.find_spec he).2⟩)
    have := Nat.find_min he hi
    obtain hb | hr := hd (s.chipAhead (2 * i + 1))
    · exact hb
    · exact absurd ⟨hi.trans (Nat.find_spec he).1, hr⟩ this
  · refine .inr (.inr fun i hi => ?_)
    obtain hb | hr := hd (s.chipAhead (2 * i + 1))
    · exact hb
    · exact absurd ⟨i, hi, hr⟩ he

end Sys2Proof.Machine
end

