-- ==== Sys2Proof/Laws/Frames.lean ====
section
/-! SUPPORT. The write-enable frame and the head of an addressed frame in closed form (41 R167, R170), and how a command and a frame
start. -/

namespace Sys2Proof.Machine

/-! ### How a command and a frame start -/

/-- An idle block accepts the command (10_state R36). -/
theorem onAccept_idle {op : BitVec 4} {x : Operands} {s : State} {rule : State → Host.Outcome State Fault Refusal}
    (h : s.phase = .idle) : onAccept op x s rule = rule (s.accept (descriptorOf op x)) := by
  simp [onAccept, h]

/-- A running block accepts nothing (10_state R36). -/
theorem onAccept_run {op : BitVec 4} {x : Operands} {s : State} {rule : State → Host.Outcome State Fault Refusal}
    (h : s.phase = .run) : onAccept op x s rule = .refused .presentedWhileRunning := by
  simp [onAccept, h]

theorem whenInitialised_true {s : State} {rule : State → Host.Outcome State Fault Refusal} (h : s.initDone = true) :
    whenInitialised rule s = rule s := by
  simp [whenInitialised, h]

theorem whenInitialised_false {s : State} {rule : State → Host.Outcome State Fault Refusal} (h : s.initDone = false) :
    whenInitialised rule s = .refused .notInitialised := by
  simp [whenInitialised, h]

/-- The operand check of the bulk commands (40 R150). -/
theorem bulkOperandsOk_iff (s : State) (buf n : Word) : bulkOperandsOk s.params buf n = true ↔ s.BulkFits buf n := by
  simp only [bulkOperandsOk, State.BulkFits, rangeFits, and_assoc, Bool.and_eq_true, decide_eq_true_eq]
  exact Iff.rfl

theorem whenBulkOk_true {s : State} {rule : State → Host.Outcome State Fault Refusal} (h : s.BulkFits s.cmd.buf s.cmd.size) :
    whenBulkOk rule s = rule s :=
  if_pos ((bulkOperandsOk_iff s _ _).2 h)

theorem whenBulkOk_false {s : State} {rule : State → Host.Outcome State Fault Refusal}
    (h : ¬ s.BulkFits s.cmd.buf s.cmd.size) : whenBulkOk rule s = .refused .bulkOperands :=
  if_neg fun h' => h ((bulkOperandsOk_iff s _ _).1 h')

/-- A frame run by itself starts from a Ready block in phase RUN (notes/assumptions/8). -/
theorem onFrame_ready {s : State} {rule : State → Host.Outcome State Fault Refusal} (h : s.Ready) :
    onFrame s rule = rule s.startFrame := by
  simp [onFrame, h.idle, whenInitialised_true h.initialised]

theorem State.Ready.quietAccept {s : State} (h : s.Ready) (d : Descriptor) : (s.accept d).Quiet :=
  ⟨rfl, h.powered, h.empty, h.drained, h.txOff, h.rxOff⟩

theorem State.Ready.quietFrame {s : State} (h : s.Ready) : s.startFrame.Quiet :=
  ⟨rfl, h.powered, h.empty, h.drained, h.txOff, h.rxOff⟩

/-- A quiet command ends with its response (10_state R57). -/
theorem drive_reply {s : State} {r : Reply} {q : List MicroOp} (h : s.Quiet) :
    drive (s.setUq (.respond r :: q)) = respond r (s.setUq (.respond r :: q)) :=
  drive_respond h.running (by simp [State.shifterReady, h.empty]) h.txOff h.rxOff

/-! ### The write-enable frame (41 R170) -/

theorem wrenFrame_sentinel : wrenFrame 0xFF#8 = [] := rfl

theorem wrenFrame_of_ne {o : Byte} (h : o ≠ 0xFF#8) : wrenFrame o = [.sel, .tx8 o, .desel] := if_neg h

/-- One exchange framed by itself. -/
def State.oneByteFrame (s : State) (o : Byte) : State :=
  { s with
    cs := false, dmaReqTx := false, dmaReqRx := false, txBuf := o, txe := true, rxBuf := s.chipAhead 0, rxne := false,
    trace := s.trace ++ [.sel, .xfer o (s.chipAhead 0), .desel], chipScript := s.chipScript.drop 1, drawn := s.drawn + 1 }

/-- The state after `WriteEnable()` with opcode `o`: untouched for the sentinel (41 R170). -/
def State.writeEnabled (s : State) (o : Byte) : State := if o = 0xFF#8 then s else s.oneByteFrame o

theorem drive_wren {s : State} {o : Byte} {q : List MicroOp} (h : s.Quiet) (hc : s.cs = false) :
    drive (s.setUq (wrenFrame o ++ q)) = drive ((s.writeEnabled o).setUq q) := by
  by_cases ho : o = 0xFF#8
  · subst ho
    rfl
  · rw [wrenFrame_of_ne ho, State.writeEnabled, if_neg ho]
    simp only [List.cons_append, List.nil_append]
    rw [drive_sel h hc, drive_tx8 h.selected, drive_desel (h.selected.exchanged _ _) rfl]
    refine congrArg drive ?_
    apply State.ext <;> simp [State.oneByteFrame]

theorem State.Quiet.writeEnabled {s : State} (h : s.Quiet) (o : Byte) : (s.writeEnabled o).Quiet := by
  unfold State.writeEnabled
  split
  · exact h
  · exact ⟨h.running, h.powered, rfl, rfl, h.txOff, h.rxOff⟩

theorem State.writeEnabled_cs {s : State} (h : s.cs = false) (o : Byte) : (s.writeEnabled o).cs = false := by
  unfold State.writeEnabled
  split
  · exact h
  · rfl

theorem State.writeEnabled_chipAhead (s : State) (o : Byte) (k : Nat) :
    (s.writeEnabled o).chipAhead k = s.chipAhead ((if o = 0xFF#8 then 0 else 1) + k) := by
  unfold State.writeEnabled
  split
  · rw [Nat.zero_add]
  · exact chipAhead_drop rfl rfl k

/-! ### Reading the identity and the status (41 R171, R175) -/

/-- The state after an F_RDID frame. -/
def State.identified (s : State) (o d0 d1 d2 d3 d4 d5 : Byte) : State :=
  { s with
    cs := false, dmaReqTx := false, dmaReqRx := false, txBuf := d5, txe := true, rxBuf := s.chipAhead 6, rxne := false,
    ident := ⟨s.chipAhead 1, s.chipAhead 2, s.chipAhead 3, s.chipAhead 4, s.chipAhead 5, s.chipAhead 6⟩,
    trace := s.trace ++ [.sel, .xfer o (s.chipAhead 0), .xfer d0 (s.chipAhead 1), .xfer d1 (s.chipAhead 2),
      .xfer d2 (s.chipAhead 3), .xfer d3 (s.chipAhead 4), .xfer d4 (s.chipAhead 5), .xfer d5 (s.chipAhead 6), .desel],
    chipScript := s.chipScript.drop 7, drawn := s.drawn + 7 }

theorem drive_rdid {s : State} {o d0 d1 d2 d3 d4 d5 : Byte} {q : List MicroOp} (h : s.Quiet) (hc : s.cs = false) :
    drive (s.setUq (rdidFrame o d0 d1 d2 d3 d4 d5 ++ q)) = drive ((s.identified o d0 d1 d2 d3 d4 d5).setUq q) := by
  simp only [rdidFrame, List.cons_append, List.nil_append]
  have h1 := h.selected.exchanged o .discard
  have h2 := h1.exchanged d0 (.id .maker)
  have h3 := h2.exchanged d1 (.id .device)
  have h4 := h3.exchanged d2 (.id .third)
  have h5 := h4.exchanged d3 (.id .fourth)
  have h6 := h5.exchanged d4 (.id .fifth)
  have h7 := h6.exchanged d5 (.id .sixth)
  rw [drive_sel h hc, drive_tx8 h.selected, drive_rx8 h1, drive_rx8 h2, drive_rx8 h3, drive_rx8 h4, drive_rx8 h5,
    drive_rx8 h6, drive_desel h7 (by simp)]
  refine congrArg drive ?_
  apply State.ext <;> simp [State.identified, State.keep, ← List.drop_one]

theorem State.Quiet.identified {s : State} (h : s.Quiet) (o d0 d1 d2 d3 d4 d5 : Byte) :
    (s.identified o d0 d1 d2 d3 d4 d5).Quiet :=
  ⟨h.running, h.powered, rfl, rfl, h.txOff, h.rxOff⟩

/-- The state after an F_STATUS frame. -/
def State.statusRead (s : State) (o d : Byte) : State :=
  { s with
    cs := false, dmaReqTx := false, dmaReqRx := false, txBuf := d, txe := true, rxBuf := s.chipAhead 1, rxne := false,
    statusLatch := s.chipAhead 1, trace := s.trace ++ [.sel, .xfer o (s.chipAhead 0), .xfer d (s.chipAhead 1), .desel],
    chipScript := s.chipScript.drop 2, drawn := s.drawn + 2 }

theorem drive_status {s : State} {o d : Byte} {q : List MicroOp} (h : s.Quiet) (hc : s.cs = false) :
    drive (s.setUq (statusFrame o d ++ q)) = drive ((s.statusRead o d).setUq q) := by
  simp only [statusFrame, List.cons_append, List.nil_append]
  have h1 := h.selected.exchanged o .discard
  rw [drive_sel h hc, drive_tx8 h.selected, drive_rx8 h1, drive_desel (h1.exchanged d .statusLatch) (by simp)]
  refine congrArg drive ?_
  apply State.ext <;> simp [State.statusRead, State.keep, ← List.drop_one]

theorem State.Quiet.statusRead {s : State} (h : s.Quiet) (o d : Byte) : (s.statusRead o d).Quiet :=
  ⟨h.running, h.powered, rfl, rfl, h.txOff, h.rxOff⟩

/-! ### The head of an addressed frame (41 R160, R164, R167) -/

/-- The state after `SEL`, the opcode and the three address bytes. -/
def State.addressed (s : State) (o : Byte) (a : WireAddr) : State :=
  { s with
    cs := true, dmaReqTx := false, dmaReqRx := false, txBuf := a.extractLsb' 0 8, txe := true, rxBuf := s.chipAhead 3,
    rxne := false,
    trace := s.trace ++ [.sel, .xfer o (s.chipAhead 0), .xfer (a.extractLsb' 16 8) (s.chipAhead 1),
      .xfer (a.extractLsb' 8 8) (s.chipAhead 2), .xfer (a.extractLsb' 0 8) (s.chipAhead 3)],
    chipScript := s.chipScript.drop 4, drawn := s.drawn + 4 }

theorem drive_head {s : State} {o : Byte} {a : WireAddr} {q : List MicroOp} (h : s.Quiet) (hc : s.cs = false) :
    drive (s.setUq ([.sel, .tx8 o] ++ (addressPhase a ++ q))) = drive ((s.addressed o a).setUq q) := by
  simp only [addressPhase, addrBytes, List.map_cons, List.map_nil, List.cons_append, List.nil_append]
  have h1 := h.selected.exchanged o .discard
  have h2 := h1.exchanged (a.extractLsb' 16 8) .discard
  have h3 := h2.exchanged (a.extractLsb' 8 8) .discard
  rw [drive_sel h hc, drive_tx8 h.selected, drive_tx8 h1, drive_tx8 h2, drive_tx8 h3]
  refine congrArg drive ?_
  apply State.ext <;> simp [State.addressed, State.keep, ← List.drop_one]

theorem State.Quiet.addressed {s : State} (h : s.Quiet) (o : Byte) (a : WireAddr) : (s.addressed o a).Quiet :=
  ⟨h.running, h.powered, rfl, rfl, h.txOff, h.rxOff⟩

theorem State.addressed_chipAhead (s : State) (o : Byte) (a : WireAddr) (k : Nat) :
    (s.addressed o a).chipAhead k = s.chipAhead (4 + k) :=
  chipAhead_drop rfl rfl k

end Sys2Proof.Machine
end

