-- ==== Sys2Proof/Laws/Exec.lean ====
section
/-! SUPPORT. What every completed instruction comes to: the state it starts in, the micro-operations it loads, and `drive`
(10_state R36, 30_encoding R113). Whole-machine rules are proved from this one case split. -/

namespace Sys2Proof.Machine

/-- The state in which an accepted instruction starts its micro-operations. -/
def beginState : Instr → State → State
  | .init x, s =>
    if configSizeOk x.size then (s.accept (descriptorOf 0x0#4 x)).latchConfig else s.accept (descriptorOf 0x0#4 x)
  | .uninit x, s => (s.accept (descriptorOf 0x1#4 x)).releaseBlock
  | .readId x, s => s.accept (descriptorOf 0x2#4 x)
  | .eraseBlock x, s => s.accept (descriptorOf 0x3#4 x)
  | .readPage x, s => s.accept (descriptorOf 0x4#4 x)
  | .readSpareData x, s => s.accept (descriptorOf 0x5#4 x)
  | .writePageAsync x, s => s.accept (descriptorOf 0x6#4 x)
  | .readStatus x, s => s.accept (descriptorOf 0x7#4 x)
  | .isBadBlockSupported x, s => s.accept (descriptorOf 0x8#4 x)
  | .waitReady x, s => s.accept (descriptorOf 0x9#4 x)
  | .reservedA x, s => s.accept (descriptorOf 0xA#4 x)
  | .reservedB x, s => s.accept (descriptorOf 0xB#4 x)
  | .reservedC x, s => s.accept (descriptorOf 0xC#4 x)
  | .reservedD x, s => s.accept (descriptorOf 0xD#4 x)
  | .reservedE x, s => s.accept (descriptorOf 0xE#4 x)
  | .reservedF x, s => s.accept (descriptorOf 0xF#4 x)
  | .fWren _, s | .fRdid _ _, s | .fErase _ _, s | .fRead _ _ _, s | .fWrite _ _, s | .fStatus _ _, s => s.startFrame

/-- The micro-operations an instruction loads, its response last, in the state it starts in. -/
def opsOf : Instr → State → List MicroOp
  | .init x, _ => [.respond (.flag (configSizeOk x.size))]
  | .uninit _, _ => [.respond .void]
  | .readId _, a => readIdOps a
  | .eraseBlock _, a => eraseBlockOps a
  | .readPage _, a => readPageOps a
  | .readSpareData _, _ => [.respond (.status .invalidCommand)]
  | .writePageAsync _, a => writePageOps a
  | .readStatus _, a => readStatusOps a
  | .isBadBlockSupported _, _ => [.respond (.flag false)]
  | .waitReady _, _ => waitReadyOps
  | .reservedA _, _ | .reservedB _, _ | .reservedC _, _ | .reservedD _, _ | .reservedE _, _ | .reservedF _, _ =>
    [.respond (.status .invalidCommand)]
  | .fWren o, _ => wrenFrame o ++ [.release]
  | .fRdid o d, _ =>
    rdidFrame o (d.extractLsb' 40 8) (d.extractLsb' 32 8) (d.extractLsb' 24 8) (d.extractLsb' 16 8) (d.extractLsb' 8 8)
      (d.extractLsb' 0 8) ++ [.release]
  | .fErase o a, _ => eraseFrame o a ++ [.release]
  | .fRead o a d, s => readFrame o a d s.cmd.buf s.cmd.size ++ [.release]
  | .fWrite o a, s => writeFrame o a s.cmd.buf s.cmd.size ++ [.release]
  | .fStatus o d, _ => statusFrame o d ++ [.release]

/-- An instruction that may run only after a successful INIT (40 R142; for the frames notes/assumptions/8). -/
def needsInit : Instr → Bool
  | .init _ | .reservedA _ | .reservedB _ | .reservedC _ | .reservedD _ | .reservedE _ | .reservedF _ => false
  | .uninit _ | .readId _ | .eraseBlock _ | .readPage _ | .readSpareData _ | .writePageAsync _ | .readStatus _
  | .isBadBlockSupported _ | .waitReady _ | .fWren _ | .fRdid _ _ | .fErase _ _ | .fRead _ _ _ | .fWrite _ _
  | .fStatus _ _ => true

/-- The operands of a bulk instruction have a meaning (40 R150); true for every other instruction. -/
def operandsFit : Instr → State → Prop
  | .readPage x, s | .writePageAsync x, s => s.BulkFits x.buf x.size
  | .fRead _ _ _, s | .fWrite _ _, s => s.BulkFits s.cmd.buf s.cmd.size
  | .init x, _ => configSizeOk x.size = true → rangeFits x.buf Config.cfgSize = true
  | .uninit _, _ | .readId _, _ | .eraseBlock _, _ | .readSpareData _, _ | .readStatus _, _ | .isBadBlockSupported _, _
  | .waitReady _, _ | .reservedA _, _ | .reservedB _, _ | .reservedC _, _ | .reservedD _, _ | .reservedE _, _
  | .reservedF _, _ | .fWren _, _ | .fRdid _ _, _ | .fErase _ _, _ | .fStatus _ _, _ => True

theorem onFrame_idle {s : State} {rule : State → Host.Outcome State Fault Refusal} (h : s.phase = .idle) :
    onFrame s rule = whenInitialised (fun t => rule t.startFrame) s := by
  simp [onFrame, h]

/-- An instruction that is not refused is `drive` from the state it starts in. -/
theorem exec_accepted {i : Instr} {s : State} (hp : s.phase = .idle) (hi : needsInit i = true → s.initDone = true)
    (hf : operandsFit i s) : exec i s = drive ((beginState i s).setUq (opsOf i (beginState i s))) := by
  cases i with
  | init x =>
    simp only [exec, execInit, onAccept_idle hp, beginState, opsOf]
    by_cases hc : configSizeOk x.size = true
    · rw [if_pos (by exact hc), if_pos (by exact hf hc), if_pos hc, hc]
      rfl
    · rw [if_neg (by exact hc), if_neg hc, Bool.eq_false_iff.2 hc]
      rfl
  | readPage x =>
    simp only [exec, execReadPage, onAccept_idle hp]
    rw [whenInitialised_true (by exact hi rfl), whenBulkOk_true (by exact hf)]
    rfl
  | writePageAsync x =>
    simp only [exec, execWritePageAsync, onAccept_idle hp]
    rw [whenInitialised_true (by exact hi rfl), whenBulkOk_true (by exact hf)]
    rfl
  | fRead o a d =>
    simp only [exec, execFRead, onFrame_idle hp]
    rw [whenInitialised_true (by exact hi rfl), whenBulkOk_true (by exact hf)]
    rfl
  | fWrite o a =>
    simp only [exec, execFWrite, onFrame_idle hp]
    rw [whenInitialised_true (by exact hi rfl), whenBulkOk_true (by exact hf)]
    rfl
  | uninit x =>
    simp only [exec, execUninit, onAccept_idle hp]
    exact whenInitialised_true (by exact hi rfl)
  | readId x =>
    simp only [exec, execReadId, onAccept_idle hp]
    exact whenInitialised_true (by exact hi rfl)
  | eraseBlock x =>
    simp only [exec, execEraseBlock, onAccept_idle hp]
    exact whenInitialised_true (by exact hi rfl)
  | readSpareData x =>
    simp only [exec, execReadSpareData, onAccept_idle hp]
    exact whenInitialised_true (by exact hi rfl)
  | readStatus x =>
    simp only [exec, execReadStatus, onAccept_idle hp]
    exact whenInitialised_true (by exact hi rfl)
  | isBadBlockSupported x =>
    simp only [exec, execIsBadBlockSupported, onAccept_idle hp]
    exact whenInitialised_true (by exact hi rfl)
  | waitReady x =>
    simp only [exec, execWaitReady, onAccept_idle hp]
    exact whenInitialised_true (by exact hi rfl)
  | reservedA x => exact onAccept_idle hp
  | reservedB x => exact onAccept_idle hp
  | reservedC x => exact onAccept_idle hp
  | reservedD x => exact onAccept_idle hp
  | reservedE x => exact onAccept_idle hp
  | reservedF x => exact onAccept_idle hp
  | fWren o =>
    simp only [exec, execFWren, runFrame, onFrame_idle hp]
    exact whenInitialised_true (by exact hi rfl)
  | fRdid o d =>
    simp only [exec, execFRdid, runFrame, onFrame_idle hp]
    exact whenInitialised_true (by exact hi rfl)
  | fErase o a =>
    simp only [exec, execFErase, runFrame, onFrame_idle hp]
    exact whenInitialised_true (by exact hi rfl)
  | fStatus o d =>
    simp only [exec, execFStatus, runFrame, onFrame_idle hp]
    exact whenInitialised_true (by exact hi rfl)

theorem whenInitialised_next {s t : State} {rule : State → Host.Outcome State Fault Refusal}
    (h : whenInitialised rule s = .next t) : s.initDone = true ∧ rule s = .next t := by
  unfold whenInitialised at h
  split at h
  · exact ⟨‹_›, h⟩
  · cases h

theorem whenBulkOk_next {s t : State} {rule : State → Host.Outcome State Fault Refusal} (h : whenBulkOk rule s = .next t) :
    s.BulkFits s.cmd.buf s.cmd.size ∧ rule s = .next t := by
  unfold whenBulkOk at h
  split at h
  · exact ⟨(bulkOperandsOk_iff s _ _).1 ‹_›, h⟩
  · cases h

theorem onAccept_next {op : BitVec 4} {x : Operands} {s t : State} {rule : State → Host.Outcome State Fault Refusal}
    (h : onAccept op x s rule = .next t) : s.phase = .idle ∧ rule (s.accept (descriptorOf op x)) = .next t := by
  cases hp : s.phase with
  | idle => exact ⟨rfl, (onAccept_idle hp).symm.trans h⟩
  | run => rw [onAccept_run hp] at h; cases h

theorem onFrame_next {s t : State} {rule : State → Host.Outcome State Fault Refusal} (h : onFrame s rule = .next t) :
    s.phase = .idle ∧ s.initDone = true ∧ rule s.startFrame = .next t := by
  unfold onFrame at h
  cases hp : s.phase with
  | idle =>
    rw [hp, if_neg (by simp)] at h
    exact ⟨rfl, whenInitialised_next h⟩
  | run => rw [hp, if_pos rfl] at h; cases h

/-- A completed instruction was accepted. -/
theorem exec_next {i : Instr} {s t : State} (h : exec i s = .next t) :
    s.phase = .idle ∧ (needsInit i = true → s.initDone = true) ∧ operandsFit i s ∧
      drive ((beginState i s).setUq (opsOf i (beginState i s))) = .next t := by
  have key : s.phase = .idle ∧ (needsInit i = true → s.initDone = true) ∧ operandsFit i s := by
    cases i with
    | init x =>
      simp only [exec, execInit] at h
      obtain ⟨hp, h⟩ := onAccept_next h
      refine ⟨hp, nofun, fun hc => ?_⟩
      rw [if_pos (by exact hc)] at h
      split at h
      · assumption
      · cases h
    | readPage x =>
      obtain ⟨hp, h⟩ := onAccept_next h
      obtain ⟨hi, h⟩ := whenInitialised_next h
      exact ⟨hp, fun _ => hi, (whenBulkOk_next h).1⟩
    | writePageAsync x =>
      obtain ⟨hp, h⟩ := onAccept_next h
      obtain ⟨hi, h⟩ := whenInitialised_next h
      exact ⟨hp, fun _ => hi, (whenBulkOk_next h).1⟩
    | fRead o a d =>
      obtain ⟨hp, hi, h⟩ := onFrame_next h
      exact ⟨hp, fun _ => hi, (whenBulkOk_next h).1⟩
    | fWrite o a =>
      obtain ⟨hp, hi, h⟩ := onFrame_next h
      exact ⟨hp, fun _ => hi, (whenBulkOk_next h).1⟩
    | reservedA x | reservedB x | reservedC x | reservedD x | reservedE x | reservedF x =>
      exact ⟨(onAccept_next h).1, nofun, trivial⟩
    | fWren o | fRdid o d | fErase o a | fStatus o d =>
      obtain ⟨hp, hi, h⟩ := onFrame_next h
      exact ⟨hp, fun _ => hi, trivial⟩
    | uninit x | readId x | eraseBlock x | readSpareData x | readStatus x | isBadBlockSupported x | waitReady x =>
      obtain ⟨hp, h⟩ := onAccept_next h
      exact ⟨hp, fun _ => (whenInitialised_next h).1, trivial⟩
  exact ⟨key.1, key.2.1, key.2.2, (exec_accepted key.1 key.2.1 key.2.2).symm.trans h⟩

end Sys2Proof.Machine
end

