-- ==== Sys2Proof/Laws/PerInstr.lean ====
section
/-! SUPPORT. One lemma per instruction: its encoded word carries its row's command code (30_encoding R101, R103) or has its row's
number of bytes (R111). -/

namespace Sys2Proof

/-- The command code of a packed descriptor (R103: bits 131:128). -/
theorem code_pack (op : BitVec 4) (x : Operands) : (packDescriptor op x).extractLsb' 128 4 = op := by
  simp (disch := decide) only [packDescriptor, extract_append_high, Nat.reduceSub]
  exact BitVec.extractLsb'_eq_self

/-- The command code of each row of R101; the frames have none. -/
def rowCode : Instr → Option (BitVec 4)
  | .init _ => some 0x0
  | .uninit _ => some 0x1
  | .readId _ => some 0x2
  | .eraseBlock _ => some 0x3
  | .readPage _ => some 0x4
  | .readSpareData _ => some 0x5
  | .writePageAsync _ => some 0x6
  | .readStatus _ => some 0x7
  | .isBadBlockSupported _ => some 0x8
  | .waitReady _ => some 0x9
  | .reservedA _ => some 0xA
  | .reservedB _ => some 0xB
  | .reservedC _ => some 0xC
  | .reservedD _ => some 0xD
  | .reservedE _ => some 0xE
  | .reservedF _ => some 0xF
  | .fWren _ | .fRdid _ _ | .fErase _ _ | .fRead _ _ _ | .fWrite _ _ | .fStatus _ _ => none

/-- The number of bits each row of spec/opcode_table.json names. -/
def rowBits : Instr → Nat
  | .init _ | .uninit _ | .readId _ | .eraseBlock _ | .readPage _ | .readSpareData _ | .writePageAsync _ | .readStatus _
  | .isBadBlockSupported _ | .waitReady _ | .reservedA _ | .reservedB _ | .reservedC _ | .reservedD _ | .reservedE _
  | .reservedF _ => 132
  | .fWren _ => 8
  | .fRdid _ _ => 56
  | .fErase _ _ => 32
  | .fRead _ _ _ => 40
  | .fWrite _ _ => 32
  | .fStatus _ _ => 16

namespace Laws.Row

/-- The word of an instruction is its row's: a descriptor with the row's code, or a frame of the row's length. -/
def Statement (i : Instr) : Prop :=
  match encode i with
  | .descriptor d => rowCode i = some (d.extractLsb' 128 4) ∧ rowBits i = 132
  | .frame _ bytes => rowCode i = none ∧ rowBits i = 8 * bytes.length

theorem init (x : Operands) : Statement (.init x) := ⟨congrArg some (code_pack 0x0#4 x).symm, rfl⟩
theorem uninit (x : Operands) : Statement (.uninit x) := ⟨congrArg some (code_pack 0x1#4 x).symm, rfl⟩
theorem readId (x : Operands) : Statement (.readId x) := ⟨congrArg some (code_pack 0x2#4 x).symm, rfl⟩
theorem eraseBlock (x : Operands) : Statement (.eraseBlock x) := ⟨congrArg some (code_pack 0x3#4 x).symm, rfl⟩
theorem readPage (x : Operands) : Statement (.readPage x) := ⟨congrArg some (code_pack 0x4#4 x).symm, rfl⟩
theorem readSpareData (x : Operands) : Statement (.readSpareData x) := ⟨congrArg some (code_pack 0x5#4 x).symm, rfl⟩
theorem writePageAsync (x : Operands) : Statement (.writePageAsync x) := ⟨congrArg some (code_pack 0x6#4 x).symm, rfl⟩
theorem readStatus (x : Operands) : Statement (.readStatus x) := ⟨congrArg some (code_pack 0x7#4 x).symm, rfl⟩
theorem isBadBlockSupported (x : Operands) : Statement (.isBadBlockSupported x) :=
  ⟨congrArg some (code_pack 0x8#4 x).symm, rfl⟩
theorem waitReady (x : Operands) : Statement (.waitReady x) := ⟨congrArg some (code_pack 0x9#4 x).symm, rfl⟩
theorem reservedA (x : Operands) : Statement (.reservedA x) := ⟨congrArg some (code_pack 0xA#4 x).symm, rfl⟩
theorem reservedB (x : Operands) : Statement (.reservedB x) := ⟨congrArg some (code_pack 0xB#4 x).symm, rfl⟩
theorem reservedC (x : Operands) : Statement (.reservedC x) := ⟨congrArg some (code_pack 0xC#4 x).symm, rfl⟩
theorem reservedD (x : Operands) : Statement (.reservedD x) := ⟨congrArg some (code_pack 0xD#4 x).symm, rfl⟩
theorem reservedE (x : Operands) : Statement (.reservedE x) := ⟨congrArg some (code_pack 0xE#4 x).symm, rfl⟩
theorem reservedF (x : Operands) : Statement (.reservedF x) := ⟨congrArg some (code_pack 0xF#4 x).symm, rfl⟩
theorem fWren (o : Byte) : Statement (.fWren o) := ⟨rfl, rfl⟩
theorem fRdid (o : Byte) (d : BitVec 48) : Statement (.fRdid o d) := ⟨rfl, rfl⟩
theorem fErase (o : Byte) (a : WireAddr) : Statement (.fErase o a) := ⟨rfl, rfl⟩
theorem fRead (o : Byte) (a : WireAddr) (d : Byte) : Statement (.fRead o a d) := ⟨rfl, rfl⟩
theorem fWrite (o : Byte) (a : WireAddr) : Statement (.fWrite o a) := ⟨rfl, rfl⟩
theorem fStatus (o d : Byte) : Statement (.fStatus o d) := ⟨rfl, rfl⟩

end Laws.Row

end Sys2Proof
end

