-- ==== Sys2Proof/Tests/Slice0.lean ====
section
/-! SUPPORT. The model's own tests: written-out words, one-step executions with results from 95_test_vectors, and for every
obligation with hypotheses a concrete state that meets them. -/

namespace Sys2Proof.Tests

open Sys2Proof Sys2Proof.Machine Sys2Proof.Claims

/-! ### Well-formedness -/

theorem test_wf_refuses_unequal_dummies :
    (Instr.fRdid 0x9F 0xA5A5A5A5A500#48).wf = false ∧
    decode (.frame .rdid [0x9F, 0xA5, 0xA5, 0xA5, 0xA5, 0xA5, 0x00]) = .error .dummyBytesDiffer := by
  constructor <;> rfl

theorem test_decode_refuses_other_lengths :
    decode (.frame .wren []) = .error .frameLength ∧ decode (.frame .erase [0xD8, 0, 0]) = .error .frameLength := by
  constructor <;> rfl

/-! ### One written-out word for every constructor (95_test_vectors 2.2; the frame rows: P1 to P4) -/

theorem test_word_init :
    decodeDescriptor 0x0000000000000000000000000D20000000#132 = .init ⟨0, 0, 13, 0x20000000⟩ := by
  simp [decodeDescriptor, descriptorOperands]

theorem test_word_uninit : decodeDescriptor 0x100000000000000000000000000000000#132 = .uninit ⟨0, 0, 0, 0⟩ := by
  simp [decodeDescriptor, descriptorOperands]

theorem test_word_read_id : decodeDescriptor 0x200000000000000000000000000000000#132 = .readId ⟨0, 0, 0, 0⟩ := by
  simp [decodeDescriptor, descriptorOperands]

theorem test_word_erase_block :
    decodeDescriptor 0x300000100000000000000000000000000#132 = .eraseBlock ⟨0x100, 0, 0, 0⟩ := by
  simp [decodeDescriptor, descriptorOperands]

theorem test_word_read_page :
    decodeDescriptor 0x400000002000000000000000420000110#132 = .readPage ⟨2, 0, 4, 0x20000110⟩ := by
  simp [decodeDescriptor, descriptorOperands]

theorem test_word_read_spare_data :
    decodeDescriptor 0x500000003000002000000001020000300#132 = .readSpareData ⟨3, 0x200, 16, 0x20000300⟩ := by
  simp [decodeDescriptor, descriptorOperands]

theorem test_word_write_page_async :
    decodeDescriptor 0x600000002000000000000000420000100#132 = .writePageAsync ⟨2, 0, 4, 0x20000100⟩ := by
  simp [decodeDescriptor, descriptorOperands]

theorem test_word_read_status : decodeDescriptor 0x700000000000000000000000000000000#132 = .readStatus ⟨0, 0, 0, 0⟩ := by
  simp [decodeDescriptor, descriptorOperands]

theorem test_word_is_bad_block_supported :
    decodeDescriptor 0x800000000000000000000000000000000#132 = .isBadBlockSupported ⟨0, 0, 0, 0⟩ := by
  simp [decodeDescriptor, descriptorOperands]

theorem test_word_wait_ready : decodeDescriptor 0x900000000000000000000000000000000#132 = .waitReady ⟨0, 0, 0, 0⟩ := by
  simp [decodeDescriptor, descriptorOperands]

theorem test_word_reserved :
    decodeDescriptor 0xA00000000000000000000000000000000#132 = .reservedA ⟨0, 0, 0, 0⟩ ∧
    decodeDescriptor 0xB00000000000000000000000000000000#132 = .reservedB ⟨0, 0, 0, 0⟩ ∧
    decodeDescriptor 0xC00000000000000000000000000000000#132 = .reservedC ⟨0, 0, 0, 0⟩ ∧
    decodeDescriptor 0xD00000000000000000000000000000000#132 = .reservedD ⟨0, 0, 0, 0⟩ ∧
    decodeDescriptor 0xE00000000000000000000000000000000#132 = .reservedE ⟨0, 0, 0, 0⟩ ∧
    decodeDescriptor 0xF00000000000000000000000000000001#132 = .reservedF ⟨0, 0, 0, 1⟩ := by
  simp [decodeDescriptor, descriptorOperands]

theorem test_word_frames :
    decode (.frame .wren [0x06]) = .ok (.fWren 0x06) ∧
    decode (.frame .rdid [0x9F, 0xA5, 0xA5, 0xA5, 0xA5, 0xA5, 0xA5]) = .ok (.fRdid 0x9F 0xA5A5A5A5A5A5) ∧
    decode (.frame .erase [0xD8, 0x01, 0x02, 0x03]) = .ok (.fErase 0xD8 0x010203) ∧
    decode (.frame .read [0x0B, 0x00, 0x02, 0x00, 0xA5]) = .ok (.fRead 0x0B 0x000200 0xA5) ∧
    decode (.frame .write [0x02, 0x00, 0x02, 0x00]) = .ok (.fWrite 0x02 0x000200) ∧
    decode (.frame .status [0x05, 0xA5]) = .ok (.fStatus 0x05 0xA5) := by
  refine ⟨rfl, rfl, rfl, rfl, rfl, rfl⟩

theorem test_table_word_status : decodeTableWord 16 0xA505 = some (.fStatus 0x05 0xA5) := by rfl

/-! ### States -/

/-- Record A of 95_test_vectors 2.3. -/
def recordA : ChipConfig :=
  { pageOffset := 0x08, readCmd := 0x0B, readIdCmd := 0x9F, writeCmd := 0x02, writeEnCmd := 0x06, eraseCmd := 0xD8,
    statusCmd := 0x05, busyBit := 0, busyState := 1, freq := 0x0112A880 }

/-- The example parameters of 95_test_vectors, `POLL_BUDGET = n`. -/
def exampleParams (n : Word) : Params := { pollBudget := n, dummyByte := 0xA5, fillerByte := 0xFF, xferMax := 65535 }

/-- Right after reset, with the example parameters. -/
def fresh : State := { State.reset with params := exampleParams 4, filler := 0xFF }

/-- A Ready block under record A that Chip will answer with `bytes`. -/
def ready (bytes : List Byte) : State :=
  { fresh with initDone := true, spiEn := true, cfg := recordA, chipScript := bytes }

/-- A Ready block with a budget and a memory of its own. -/
def readyWith (n : Word) (m : Memory) (bytes : List Byte) : State :=
  { ready bytes with params := exampleParams n, mem := m }

/-- A block in flight with what is left of a command, the bus standing after `tr`. -/
def running (q : List MicroOp) (tr : List BusEvent) : State :=
  { ready [0x00, 0x5A] with phase := .run, uq := q, cs := !tr.isEmpty, trace := tr }

/-- What is asked of the next state. -/
def seen {α : Type} (o : Host.Outcome State Fault Refusal) (f : State → α) : Option α :=
  match o with
  | .next t => some (f t)
  | .fault _ => none
  | .refused _ => none

/-- Why there is none. -/
def whyNot (o : Host.Outcome State Fault Refusal) : Option Refusal :=
  match o with
  | .refused r => some r
  | .next _ => none
  | .fault _ => none

/-- Record A in host memory at address 0x100. -/
def recordMemory : Memory :=
  [(0x100, 0x08), (0x101, 0x0B), (0x102, 0x9F), (0x103, 0x02), (0x104, 0x06), (0x105, 0xD8), (0x106, 0x05), (0x108, 0x01),
    (0x109, 0x80), (0x10A, 0xA8), (0x10B, 0x12), (0x10C, 0x01)]

/-- No operands. -/
def none4 : Operands := ⟨0, 0, 0, 0⟩

/-! ### Executions (expected results: 95_test_vectors 2.3 to 2.7) -/

theorem test_init_record_a :
    seen (exec (.init ⟨0, 0, 13, 0x100⟩) { fresh with mem := recordMemory })
      (fun t => (t.cfg, t.initDone, t.spiEn, t.rspFlag, t.trace)) = some (recordA, true, true, true, []) := by
  decide

theorem test_init_too_small :
    seen (exec (.init ⟨0, 0, 12, 0x100⟩) { fresh with mem := recordMemory })
      (fun t => (t.initDone, t.spiEn, t.rspFlag, t.rspValid)) = some (false, false, false, true) := by
  decide

theorem test_init_past_the_top : whyNot (exec (.init ⟨0, 0, 13, 0xFFFFFFF8⟩) fresh) = some .recordRange := by
  decide

theorem test_uninit : seen (exec (.uninit none4) (ready [])) (fun t => (t.initDone, t.spiEn, t.cfg)) =
    some (false, false, recordA) := by
  decide

theorem test_read_id :
    seen (exec (.readId none4) (ready [0x00, 0xEF, 0x40, 0x18, 0x01, 0x02, 0x03])) (fun t => (t.ident, t.trace)) =
      some (⟨0xEF, 0x40, 0x18, 0x01, 0x02, 0x03⟩,
        [.sel, .xfer 0x9F 0x00, .xfer 0xA5 0xEF, .xfer 0xA5 0x40, .xfer 0xA5 0x18, .xfer 0xA5 0x01, .xfer 0xA5 0x02,
          .xfer 0xA5 0x03, .desel]) := by
  rfl

theorem test_read_status_busy :
    seen (exec (.readStatus none4) (ready [0x00, 0x03])) (fun t => (t.rspStatus, t.trace)) =
      some (.busy, [.sel, .xfer 0x05 0x00, .xfer 0xA5 0x03, .desel]) := by
  rfl

theorem test_read_status_ready : seen (exec (.readStatus none4) (ready [0x00, 0x02])) State.rspStatus = some .ready := by
  rfl

theorem test_erase_block :
    seen (exec (.eraseBlock ⟨0x100, 0, 0, 0⟩) (ready [0, 0, 0, 0, 0, 0, 0])) (fun t => (t.rspStatus, t.trace)) =
      some (.ready, [.sel, .xfer 0x06 0, .desel, .sel, .xfer 0xD8 0, .xfer 0x01 0, .xfer 0 0, .xfer 0 0, .desel,
        .sel, .xfer 0x05 0, .xfer 0xA5 0, .desel]) := by
  rfl

theorem test_wait_ready_on_the_last_read :
    seen (exec (.waitReady none4) (ready [0, 1, 0, 1, 0, 1, 0, 0])) (fun t => (t.rspStatus, t.pollCnt, t.drawn)) =
      some (.ready, 1, 8) := by
  rfl

theorem test_wait_ready_timeout :
    seen (exec (.waitReady none4) (ready [0, 1, 0, 1, 0, 1, 0, 1, 0, 0])) (fun t => (t.rspStatus, t.pollCnt, t.drawn)) =
      some (.timeout, 0, 8) := by
  rfl

theorem test_wait_ready_without_budget :
    seen (exec (.waitReady none4) (readyWith 0 [] [])) (fun t => (t.rspStatus, t.trace)) = some (.timeout, []) := by
  rfl

theorem test_read_page :
    seen (exec (.readPage ⟨0xFFFF, 0, 1, 0x40⟩) (ready [0, 0, 0, 0, 0, 0x5A])) (fun t => (t.mem, t.rspStatus, t.trace)) =
      some ([(0x40, 0x5A)], .ready, [.sel, .xfer 0x0B 0, .xfer 0xFF 0, .xfer 0xFF 0, .xfer 0 0, .xfer 0xA5 0,
        .xfer 0xFF 0x5A, .desel]) := by
  rfl

theorem test_write_page_async :
    seen (exec (.writePageAsync ⟨0x10000, 0, 2, 0x40⟩) (readyWith 4 [(0x40, 0x11), (0x41, 0x22)] [0, 0, 0, 0, 0, 0, 7]))
      (fun t => (t.sink, t.trace)) =
      some (7, [.sel, .xfer 0x06 0, .desel, .sel, .xfer 0x02 0, .xfer 0 0, .xfer 0 0, .xfer 0 0, .xfer 0x11 0,
        .xfer 0x22 7, .desel]) := by
  rfl

theorem test_bulk_sizes_refused :
    whyNot (exec (.readPage ⟨0, 0, 0, 0⟩) (ready [])) = some .bulkOperands ∧
    whyNot (exec (.readPage ⟨0, 0, 65536, 0⟩) (ready [])) = some .bulkOperands := by
  decide

theorem test_read_spare_data :
    seen (exec (.readSpareData ⟨0xFFFFFFFF, 0xFFFFFFFF, 0xFFFFFFFF, 0xFFFFFFFF⟩) (ready [])) (fun t => (t.rspStatus, t.trace)) =
      some (.invalidCommand, []) := by
  decide

theorem test_bad_block_query :
    seen (exec (.isBadBlockSupported none4) { ready [] with rspFlag := true }) State.rspFlag = some false := by
  decide

theorem test_reserved_codes_uninitialised :
    seen (exec (.reservedA none4) fresh) State.rspStatus = some .invalidCommand ∧
    seen (exec (.reservedF none4) fresh) State.rspStatus = some .invalidCommand := by
  decide

theorem test_read_status_uninitialised : whyNot (exec (.readStatus none4) fresh) = some .notInitialised := by
  decide

theorem test_first_step_after_reset :
    seen (step (State.reset.withFetchWord 136 0xA00000000000000000000000000000000)) State.rspStatus = some .invalidCommand := by
  decide

theorem test_frame_wren_sentinel : seen (exec (.fWren 0xFF) (ready [])) State.trace = some [] := by
  decide

theorem test_frame_read :
    seen (exec (.fRead 0x0B 0x000200 0xA5) { ready [0, 0, 0, 0, 0, 0x77] with cmd := ⟨0, 0, 0, 1, 0x40⟩ }) State.mem =
      some [(0x40, 0x77)] := by
  rfl

theorem test_status_decode_polarity :
    decodeStatus { recordA with busyBit := 7, busyState := 0 } 0x7F = some .busy ∧
    decodeStatus { recordA with busyBit := 8 } 0x7F = none ∧ decodeStatus { recordA with busyState := 2 } 0x7F = none := by
  decide

theorem test_address_vectors :
    wireAddress (linearAddress 0x12345 8 0) = 0x234500 ∧ wireAddress (linearAddress 0xFFFFFFFF 16 0xFFFFFFFF) = 0xFEFFFF ∧
    wireAddress (linearAddress 0xFFFFFFFF 32 0) = 0 := by
  decide

/-! ### Witnesses: concrete states and operands that meet the hypotheses of the obligations -/

theorem witness_ready : (ready []).Ready :=
  { idle := rfl, queue := rfl, empty := rfl, drained := rfl, txOff := rfl, rxOff := rfl, initialised := rfl, powered := rfl,
    deselected := rfl }

theorem witness_at_rest_uninitialised : fresh.AtRest ∧ fresh.initDone = false :=
  ⟨{ idle := rfl, queue := rfl, empty := rfl, drained := rfl, txOff := rfl, rxOff := rfl }, rfl⟩

theorem witness_ready_for_bulk :
    (ready []).Ready ∧ (ready []).mem.wf = true ∧ (ready []).BulkFits 0xFFFFFFFF 1 ∧ (ready []).BulkFits 0 65535 :=
  ⟨witness_ready, rfl, by simp [State.BulkFits, ready, fresh, exampleParams], by simp [State.BulkFits, ready, fresh, exampleParams]⟩

theorem witness_not_bulk :
    ¬ (ready []).BulkFits 0 0 ∧ ¬ (ready []).BulkFits 0 65536 ∧ ¬ (ready []).BulkFits 0xFFFFFFFF 2 := by
  simp [State.BulkFits, ready, fresh, exampleParams]

/-- READ_FRAME, WRITE_FRAME and the frames' refusals read the latched descriptor. -/
theorem witness_frame_bulk :
    ({ ready [] with cmd := ⟨0, 0, 0, 4, 0x40⟩ } : State).Ready ∧
    ({ ready [] with cmd := ⟨0, 0, 0, 4, 0x40⟩ } : State).BulkFits 0x40 4 ∧ ¬ (ready []).BulkFits (ready []).cmd.buf (ready []).cmd.size :=
  ⟨{ idle := rfl, queue := rfl, empty := rfl, drained := rfl, txOff := rfl, rxOff := rfl, initialised := rfl, powered := rfl,
      deselected := rfl },
    by simp [State.BulkFits, ready, fresh, exampleParams], by simp [State.BulkFits, ready, fresh, State.reset]⟩

theorem witness_busy_fields :
    (ready []).cfg.busyFieldsOk = true ∧
    ({ ready [] with cfg := { recordA with busyBit := 8 } } : State).cfg.busyFieldsOk = false ∧
    ({ ready [] with cfg := { recordA with busyBit := 8 } } : State).params.pollBudget ≠ 0 := by
  decide

/-- No budget and busy fields without a meaning: WAIT_READY and ERASE_BLOCK still complete (43 R230, corner case `N = 0`). -/
def readyWithoutBudget : State := { readyWith 0 [] [] with cfg := { recordA with busyBit := 8 } }

theorem witness_no_budget :
    readyWithoutBudget.Ready ∧ readyWithoutBudget.params.pollBudget = 0 ∧ readyWithoutBudget.cfg.busyFieldsOk = false :=
  ⟨{ idle := rfl, queue := rfl, empty := rfl, drained := rfl, txOff := rfl, rxOff := rfl, initialised := rfl, powered := rfl,
      deselected := rfl }, rfl, by decide⟩

theorem test_no_budget_illegal_busy_fields :
    seen (exec (.waitReady none4) readyWithoutBudget) (fun t => (t.rspStatus, t.trace)) = some (.timeout, []) ∧
    seen (exec (.eraseBlock none4) readyWithoutBudget) State.rspStatus = some .timeout := by
  exact ⟨rfl, rfl⟩

/-- WAIT_READY's first clause at the last budgeted read, and its second clause. -/
theorem witness_poll_clauses :
    (∀ i < 3, pollBusy (ready [0, 1, 0, 1, 0, 1, 0, 0]) 0 i = true) ∧ pollBusy (ready [0, 1, 0, 1, 0, 1, 0, 0]) 0 3 = false ∧
    ∀ i < 4, pollBusy (ready [0, 1, 0, 1, 0, 1, 0, 1]) 0 i = true := by
  decide

/-- ERASE_BLOCK's clauses: Ready at the first read, and busy for the whole budget, five answers drawn before. -/
theorem witness_erase_clauses :
    wrenDraws (ready []).cfg.writeEnCmd = 1 ∧ pollBusy (ready [0, 0, 0, 0, 0, 0, 0]) 5 0 = false ∧
    ∀ i < 4, pollBusy (ready [0, 0, 0, 0, 0, 0, 1, 0, 1, 0, 1, 0, 1]) 5 i = true := by
  decide

theorem witness_init_ranges :
    (13 : Nat) ≤ (13 : Word).toNat ∧ (0xFFFFFFF3 : Word).toNat + 13 ≤ 2 ^ 32 ∧ 2 ^ 32 < (0xFFFFFFF4 : Word).toNat + 13 ∧
    (12 : Word).toNat < 13 := by
  decide

theorem witness_well_formed : (Instr.fRdid 0x9F 0xA5A5A5A5A5A5#48).wf = true ∧ (Instr.waitReady none4).wf = true := by
  decide

theorem witness_decoded : ∃ i, decode (.frame .status [0x05, 0xA5]) = .ok i ∧ decodeTableWord 16 0xA505 = some i :=
  ⟨_, rfl, rfl⟩

theorem witness_presented :
    ({ fresh with inbox := [.present (.frame .status [0x05])] } : State).phase = .idle ∧
    decode (.frame .status [0x05]) = .error .frameLength ∧ ∃ i, decode (.frame .status [0x05, 0xA5]) = .ok i :=
  ⟨rfl, rfl, _, rfl⟩

theorem witness_host_write :
    ({ fresh with inbox := [.write 0xFFFFFFFF 1] } : State).phase = .idle ∧
    ({ fresh with inbox := [.write 0xFFFFFFFF 1] } : State).mem.wf = true :=
  ⟨rfl, rfl⟩

theorem witness_inv_idle : (ready []).Inv :=
  { memory := rfl, filler := rfl, xferMax := by decide, power := rfl, channels := rfl,
    control := ⟨.between, rfl, rfl, rfl⟩ }

theorem witness_idle_steps : ∃ t, step (ready []) = .next t := ⟨_, rfl⟩

/-- In flight, deselected, at the head of a status frame. -/
theorem witness_inv_run : (running (statusFrame 0x05 0xA5 ++ [.respond .decoded]) []).Inv :=
  { memory := rfl, filler := rfl, xferMax := by decide, power := rfl, channels := rfl,
    control := ⟨.between, rfl, rfl, rfl⟩ }

theorem witness_run_not_bulk (q : List MicroOp) :
    (running (statusFrame 0x05 0xA5 ++ [.respond .decoded]) []).uq ≠ .bulkWait :: q := by
  intro h
  cases h

theorem witness_run_steps : ∃ t, step (running (statusFrame 0x05 0xA5 ++ [.respond .decoded]) []) = .next t :=
  ⟨_, rfl⟩

/-- Inside a bulk receive of one byte, nothing moved yet. -/
def bulkRunning : State :=
  (running [.bulkWait, .desel, .respond .void] [.sel, .xfer 0x0B 0]).armBulk false 0x40 1

/-- The same receive, its byte taken in. -/
def bulkDone : State :=
  { bulkRunning with
    chTx := ⟨true, 0x40, false, 0, true⟩, chRx := ⟨true, 0x41, true, 0, true⟩,
    trace := [.sel, .xfer 0x0B 0, .xfer 0xFF 0], mem := [] }

theorem witness_inv_bulk : bulkRunning.Inv :=
  { memory := rfl, filler := rfl, xferMax := by decide, power := rfl, channels := rfl,
    control := ⟨.talking, rfl, rfl, rfl⟩ }

theorem witness_bulk_done :
    bulkDone.Inv ∧ bulkDone.phase = .run ∧ bulkDone.uq = .bulkWait :: [.desel, .respond .void] ∧ bulkDone.chRx.tc = true :=
  ⟨{ memory := rfl, filler := rfl, xferMax := by decide, power := rfl, channels := rfl,
      control := ⟨.talking, rfl, rfl, rfl⟩ }, rfl, rfl, rfl⟩

/-- SEL and DESEL: the hypotheses of each clause, and of the clauses outside their preconditions. -/
theorem witness_sel_desel :
    (running [.sel] []).cs = false ∧ (running [.desel] [.sel]).cs = true ∧ (running [.sel] []).busQuiet = true ∧
    (running [.sel] [.sel]).enabledAgents = [.seq] ∧ (running [.desel] []).enabledAgents = [.seq] ∧
    ({ running [.desel] [.sel] with rxne := true } : State).enabledAgents = [.seq] ∧
    ({ running [.desel] [.sel] with chTx := Channel.armed true 0 0 } : State).enabledAgents = [.seq] := by
  decide

/-- TX8 and RX8 about to start, the latter with its last destination, `id[5]`. -/
theorem witness_byte_transport :
    (running [.tx8 0x9F] [.sel]).phase = .run ∧ (running [.tx8 0x9F] [.sel]).spiEn = true ∧
    (running [.tx8 0x9F] [.sel]).busQuiet = true ∧
    (running [.rx8 0xA5 (.id .sixth)] [.sel]).phase = .run ∧ (running [.rx8 0xA5 (.id .sixth)] [.sel]).spiEn = true ∧
    (running [.rx8 0xA5 (.id .sixth)] [.sel]).busQuiet = true := by
  decide

/-- 42 R202: step 3 of `RX8(id[5])` keeps the byte received. -/
theorem test_rx8_takes_the_byte :
    seen (step { running [.xchgTake (.id .sixth)] [.sel] with rxne := true, rxBuf := 0x5A }) (fun t => (t.ident.sixth, t.rxne)) =
      some (0x5A, false) := by
  decide

theorem witness_agents :
    ({ running [.xchgTake .discard] [.sel] with txe := false } : State).enabledAgents = [.shifter] ∧
    bulkRunning.enabledAgents = [.dmaTx] ∧
    ({ bulkRunning with txe := true, rxne := true, chTx := ⟨true, 0x40, false, 0, true⟩ } : State).enabledAgents = [.dmaRx] ∧
    (running [.bulkTx 0x40 1] [.sel, .xfer 0x02 0]).enabledAgents = [.seq] ∧ bulkDone.enabledAgents = [.seq] := by
  decide

theorem witness_poll_counter :
    ∃ t, atomicStep { running [.pollDecide, .respond .polled] [] with pollCnt := 1, statusLatch := 1 } = .next t ∧
      t.pollCnt = 0 :=
  ⟨_, rfl, rfl⟩

/-- A completed instruction of each kind: a command, a frame, INIT. -/
theorem witness_completed :
    (∃ t, exec (.readStatus none4) (ready [0, 0]) = .next t) ∧ (∃ t, exec (.fStatus 0x05 0xA5) (ready [0, 0]) = .next t) ∧
    ∃ t, exec (.init ⟨0, 0, 13, 0x100⟩) { fresh with mem := recordMemory } = .next t :=
  ⟨⟨_, rfl⟩, ⟨_, rfl⟩, ⟨_, rfl⟩⟩

/-- An uninitialised block at rest in which INIT, failed or not, and a reserved code complete. -/
theorem witness_uninitialised_completed :
    fresh.AtRest ∧ fresh.initDone = false ∧ (∃ t, exec (.init ⟨0, 0, 13, 0x100⟩) fresh = .next t) ∧
    (∃ t, exec (.init none4) fresh = .next t) ∧ ∃ t, exec (.reservedA none4) fresh = .next t :=
  ⟨witness_at_rest_uninitialised.1, rfl, ⟨_, rfl⟩, ⟨_, rfl⟩, ⟨_, rfl⟩⟩

/-- Memory outside the buffer: a completed READ_PAGE from an invariant state, an address on either side. -/
theorem witness_outside_the_buffer :
    (ready [0, 0, 0, 0, 0, 0x5A]).Inv ∧ seen (exec (.readPage ⟨0, 0, 1, 0x40⟩) (ready [0, 0, 0, 0, 0, 0x5A]))
      (fun t => (t.mem.read 0x3F, t.mem.read 0x40, t.mem.read 0x41)) = some (0, 0x5A, 0) :=
  ⟨{ memory := rfl, filler := rfl, xferMax := by decide, power := rfl, channels := rfl,
      control := ⟨.between, rfl, rfl, rfl⟩ }, rfl⟩

theorem witness_uninitialised_refusal :
    fresh.phase = .idle ∧ fresh.initDone = false ∧
    ∀ x, Instr.readId none4 ≠ .init x ∧ Instr.readId none4 ≠ .reservedA x ∧ Instr.readId none4 ≠ .reservedB x ∧
      Instr.readId none4 ≠ .reservedC x ∧ Instr.readId none4 ≠ .reservedD x ∧ Instr.readId none4 ≠ .reservedE x ∧
      Instr.readId none4 ≠ .reservedF x := by
  refine ⟨rfl, rfl, fun x => ?_⟩
  refine ⟨?_, ?_, ?_, ?_, ?_, ?_, ?_⟩ <;> intro h <;> cases h

theorem witness_other_commands (x : Operands) (o : Byte) (d : BitVec 48) :
    Instr.readStatus none4 ≠ .init x ∧ Instr.readStatus none4 ≠ .uninit x ∧ Instr.readStatus none4 ≠ .readId x ∧
    Instr.readStatus none4 ≠ .fRdid o d ∧ Instr.readStatus none4 ≠ .isBadBlockSupported x := by
  refine ⟨?_, ?_, ?_, ?_, ?_⟩ <;> intro h <;> cases h

/-- Pages 0x10000 and 0 alias under a shift of 8, and every page is 0 under a shift of 24. -/
theorem witness_aliases :
    (0x10000 : Word).toNat * 2 ^ (8 : Byte).toNat = (0 : Word).toNat * 2 ^ (8 : Byte).toNat + 1 * 2 ^ 24 ∧
    24 ≤ (24 : Byte).toNat := by
  decide

theorem witness_boot_selector : (0 : Byte) = 0 ∧ (0xFF : Byte) ≠ 0 := by
  decide

end Sys2Proof.Tests
end

/-! PROOFS. The family 10_state: what every completed instruction leaves unchanged, who writes a result, and that what reset leaves
without a value is never read. -/

namespace Sys2Proof.Machine

/-! ### What the entries of `uq` are there to write -/

/-- What an entry of `uq` leaves behind when it is done, besides its effect on the bus. -/
inductive Product where
  | nothing | identity | status | flag | release

/-- What a received byte is kept as (42 R201, R202). -/
def Keep.product : Keep → Product
  | .id _ => .identity
  | .discard | .statusLatch => .nothing

/-- The response field a reply writes (10_state R57). -/
def Reply.product : Reply → Product
  | .void => .nothing
  | .flag _ => .flag
  | .status _ | .polled | .decoded => .status

/-- What an entry of `uq` writes when it, or what is left of it, is done. -/
def MicroOp.product : MicroOp → Product
  | .rx8 _ dst | .xchgDrive _ dst | .xchgTake dst => dst.product
  | .respond r => r.product
  | .release => .release
  | .sel | .desel | .tx8 _ | .bulkTx _ _ | .bulkRx _ _ | .poll | .bulkWait | .pollTest | .pollDecide => .nothing

/-- Some entry of `uq` is still to write `p`. -/
def State.Owes (s : State) (p : Product) : Prop := ∃ m ∈ s.uq, m.product = p

/-- The head of `uq` gives way to entries that owe no more than it did. -/
theorem State.Owes.of_head {s t : State} {m : MicroOp} {ms q : List MicroOp} (hs : s.uq = m :: q) (ht : t.uq = ms ++ q)
    (hm : ∀ x ∈ ms, x.product = .nothing ∨ x.product = m.product) {p : Product} (hp : p ≠ .nothing) (h : t.Owes p) :
    s.Owes p := by
  obtain ⟨x, hx, rfl⟩ := h
  rw [ht, List.mem_append] at hx
  obtain hx | hx := hx
  · exact ⟨m, hs ▸ List.mem_cons_self, ((hm x hx).resolve_left hp).symm⟩
  · exact ⟨x, hs ▸ List.mem_cons_of_mem m hx, rfl⟩

theorem State.owes_head {s : State} {m : MicroOp} {q : List MicroOp} (hs : s.uq = m :: q) : s.Owes m.product :=
  ⟨m, hs ▸ List.mem_cons_self, rfl⟩

/-! ### What every atomic step keeps -/

/-- The fields no micro-operation writes: the parameters, `filler`, Host's moves, and what acceptance, INIT and UNINIT set. -/
structure SameSettings (s t : State) : Prop where
  params : t.params = s.params
  filler : t.filler = s.filler
  inbox : t.inbox = s.inbox
  cfg : t.cfg = s.cfg
  initDone : t.initDone = s.initDone
  spiEn : t.spiEn = s.spiEn

/-- The result fields are as they were. -/
structure SameResponse (s t : State) : Prop where
  rspStatus : t.rspStatus = s.rspStatus
  rspFlag : t.rspFlag = s.rspFlag
  ident : t.ident = s.ident

theorem SameSettings.trans {s t u : State} (h : SameSettings s t) (h' : SameSettings t u) : SameSettings s u :=
  ⟨h'.params.trans h.params, h'.filler.trans h.filler, h'.inbox.trans h.inbox, h'.cfg.trans h.cfg,
    h'.initDone.trans h.initDone, h'.spiEn.trans h.spiEn⟩

/-- What a run of micro-operations from `s` has done by `t`: a result field is written only where `uq` owed it, and the run ends with
`uq` empty, by a response or by the release of a frame. -/
structure Ran (s t : State) : Prop where
  settings : SameSettings s t
  ident : s.Owes .identity ∨ t.ident = s.ident
  rspStatus : s.Owes .status ∨ t.rspStatus = s.rspStatus
  rspFlag : s.Owes .flag ∨ t.rspFlag = s.rspFlag
  owes : ∀ {p}, p ≠ .nothing → t.Owes p → s.Owes p
  ended : t.phase = .idle → t.uq = [] ∧ (s.Owes .release ∨ t.rspValid = true)

/-- A state in flight from which nothing has run yet. -/
theorem Ran.refl {s : State} (hp : s.phase = .run) : Ran s s where
  settings := ⟨rfl, rfl, rfl, rfl, rfl, rfl⟩
  ident := .inr rfl
  rspStatus := .inr rfl
  rspFlag := .inr rfl
  owes := fun _ h => h
  ended := fun h => by rw [hp] at h; cases h

theorem Ran.trans {s t u : State} (h : Ran s t) (h' : Ran t u) : Ran s u where
  settings := h.settings.trans h'.settings
  ident := h.ident.elim .inl fun e => h'.ident.imp (h.owes nofun) (·.trans e)
  rspStatus := h.rspStatus.elim .inl fun e => h'.rspStatus.imp (h.owes nofun) (·.trans e)
  rspFlag := h.rspFlag.elim .inl fun e => h'.rspFlag.imp (h.owes nofun) (·.trans e)
  owes := fun hp ho => h.owes hp (h'.owes hp ho)
  ended := fun hp => (h'.ended hp).imp_right (·.imp_left (h.owes nofun))

/-- A step that leaves the result fields and stays in flight, `ms` in the place of the head of `uq`. -/
theorem Ran.of_head {s t : State} {m : MicroOp} {ms q : List MicroOp} (hp : t.phase = .run) (hs : s.uq = m :: q)
    (ht : t.uq = ms ++ q)
    (hm : ∀ x ∈ ms, x.product = .nothing ∨ x.product = m.product := by simp [MicroOp.product, Keep.product])
    (hc : SameSettings s t := by exact ⟨rfl, rfl, rfl, rfl, rfl, rfl⟩)
    (hr : SameResponse s t := by exact ⟨rfl, rfl, rfl⟩) : Ran s t where
  settings := hc
  ident := .inr hr.ident
  rspStatus := .inr hr.rspStatus
  rspFlag := .inr hr.rspFlag
  owes := State.Owes.of_head hs ht hm
  ended := fun h => by rw [hp] at h; cases h

/-- A step of the shifter or of a channel: `uq` and all that is owed are as they were. -/
theorem Ran.of_same {s t : State} (hp : t.phase = .run) (hu : t.uq = s.uq)
    (hc : SameSettings s t := by exact ⟨rfl, rfl, rfl, rfl, rfl, rfl⟩)
    (hr : SameResponse s t := by exact ⟨rfl, rfl, rfl⟩) : Ran s t where
  settings := hc
  ident := .inr hr.ident
  rspStatus := .inr hr.rspStatus
  rspFlag := .inr hr.rspFlag
  owes := fun _ h => by rwa [State.Owes, hu] at h
  ended := fun h => by rw [hp] at h; cases h

/-- A byte goes to `id[i]` only from an exchange that was to write it. -/
theorem State.keep_ident (s : State) (dst : Keep) (v : Byte) : dst.product = .identity ∨ (s.keep dst v).ident = s.ident := by
  cases dst with
  | id i => exact .inl rfl
  | discard | statusLatch => exact .inr rfl

/-- The response of a command writes the field its reply names and no other (10_state R57). -/
theorem respond_ran {r : Reply} {s t : State} {q : List MicroOp} (hq : s.uq = .respond r :: q) (h : respond r s = .next t) :
    Ran s t := by
  have owed := State.owes_head hq
  have none_left : ∀ {u : State} {p : Product}, u.finish.Owes p → s.Owes p := fun ⟨_, hx, _⟩ => nomatch hx
  have frame : ∀ st b, t = ({ s with rspStatus := st, rspFlag := b } : State).finish →
      (s.Owes .status ∨ st = s.rspStatus) → (s.Owes .flag ∨ b = s.rspFlag) → Ran s t := by
    rintro st b rfl hst hb
    exact ⟨⟨rfl, rfl, rfl, rfl, rfl, rfl⟩, .inr rfl, hst, hb, fun _ => none_left, fun _ => ⟨rfl, .inr rfl⟩⟩
  cases r with
  | void => cases h; exact frame _ _ rfl (.inr rfl) (.inr rfl)
  | flag b => cases h; exact frame _ _ rfl (.inr rfl) (.inl owed)
  | status st => cases h; exact frame _ _ rfl (.inl owed) (.inr rfl)
  | polled => cases h; exact frame _ _ rfl (.inl owed) (.inr rfl)
  | decoded =>
    cases hst : decodeStatus s.cfg s.statusLatch with
    | none => simp only [respond, hst] at h; cases h
    | some st =>
      simp only [respond, hst] at h
      cases h
      exact frame _ _ rfl (.inl owed) (.inr rfl)

/-- What a step of `Seq` keeps. -/
theorem seqStep_ran {s t : State} (hp : s.phase = .run) (h : seqStep s = .next t) : Ran s t := by
  unfold seqStep at h
  split at h
  case h_1 => cases h
  case h_2 q hq | h_3 q hq =>
    split at h <;> cases h
    exact .of_head (ms := []) hp hq rfl
  case h_4 b q hq | h_5 b dst q hq | h_6 b dst q hq | h_8 buf n q hq | h_9 buf n q hq | h_11 q hq =>
    cases h
    exact .of_head (ms := [_]) hp hq rfl
  case h_7 dst q hq =>
    cases h
    exact
      { settings := by constructor <;> simp
        ident := (s.keep_ident dst s.rxBuf).imp_left fun hd => ⟨.xchgTake dst, hq ▸ List.mem_cons_self, hd⟩
        rspStatus := .inr (by simp)
        rspFlag := .inr (by simp)
        owes := State.Owes.of_head (ms := []) hq rfl nofun
        ended := by simp [hp] }
  case h_10 q hq =>
    cases h
    exact .of_head (ms := []) hp hq rfl
  case h_12 q hq =>
    split at h <;> cases h
    · exact .of_head (ms := []) hp hq rfl
    · exact .of_head (ms := statusFrame s.cfg.statusCmd s.params.dummyByte ++ [.pollDecide]) hp hq (by simp)
        (by simp [statusFrame, MicroOp.product, Keep.product])
  case h_13 q hq =>
    split at h <;> cases h
    · exact .of_head (ms := []) hp hq rfl
    · exact .of_head (ms := [_]) hp hq rfl
  case h_14 r q hq => exact respond_ran hq h
  case h_15 q hq =>
    cases h
    exact ⟨⟨rfl, rfl, rfl, rfl, rfl, rfl⟩, .inr rfl, .inr rfl, .inr rfl, fun _ ⟨_, hx, _⟩ => (nomatch hx),
      fun _ => ⟨rfl, .inl (State.owes_head hq)⟩⟩

/-- What an atomic step of any agent keeps. -/
theorem atomicStep_ran {s t : State} (hp : s.phase = .run) (h : atomicStep s = .next t) : Ran s t := by
  obtain ⟨-, h'⟩ | ⟨a, ks, -, h'⟩ := atomicStep_cases s
  · rw [h'] at h; cases h
  have picked : Ran s { s with schedule := ks } := .of_same hp rfl
  rw [h'] at h
  refine picked.trans ?_
  cases a with
  | seq => exact seqStep_ran hp h
  | shifter => cases h; exact .of_same hp rfl
  | dmaTx => cases h; exact .of_same hp rfl
  | dmaRx => cases h; exact .of_same (by simp [hp]) (by simp) (by constructor <;> simp) (by constructor <;> simp)

/-- What a command run to its response keeps. -/
theorem drive_ran {s t : State} (hp : s.phase = .run) (h : drive s = .next t) : Ran s t ∧ t.phase = .idle :=
  drive_induction (P := Ran s) (fun _ _ hu hr ha => hr.trans (atomicStep_ran hu ha)) (.refl hp) h

end Sys2Proof.Machine

namespace Sys2Proof.Machine

open Sys2Proof.Claims

/-! ### What an instruction owes and sets before its micro-operations -/

/-- What the micro-operations of an instruction may write, besides the bus. -/
def owedBy : Instr → List Product
  | .init _ | .isBadBlockSupported _ => [.flag]
  | .uninit _ | .writePageAsync _ => []
  | .readId _ => [.identity]
  | .eraseBlock _ | .readPage _ | .readSpareData _ | .readStatus _ | .waitReady _ | .reservedA _ | .reservedB _
  | .reservedC _ | .reservedD _ | .reservedE _ | .reservedF _ => [.status]
  | .fWren _ | .fErase _ _ | .fRead _ _ _ | .fWrite _ _ | .fStatus _ _ => [.release]
  | .fRdid _ _ => [.identity, .release]

theorem wrenFrame_product {o : Byte} {m : MicroOp} (h : m ∈ wrenFrame o) : m.product = .nothing := by
  unfold wrenFrame at h
  split at h
  · cases h
  · revert m
    simp [MicroOp.product]

/-- No micro-operation of an instruction writes more than `owedBy` lists. -/
theorem product_of_mem_opsOf (i : Instr) (a : State) : ∀ m ∈ opsOf i a, m.product = .nothing ∨ m.product ∈ owedBy i := by
  cases i with
  | init x | uninit x | readSpareData x | isBadBlockSupported x | reservedA x | reservedB x | reservedC x | reservedD x
  | reservedE x | reservedF x | waitReady x =>
    simp [opsOf, waitReadyOps, owedBy, MicroOp.product, Reply.product]
  | readId x | readStatus x | fRdid o d | fStatus o d =>
    simp [opsOf, readIdOps, readStatusOps, rdidFrame, statusFrame, owedBy, MicroOp.product, Keep.product, Reply.product]
  | readPage x | fErase o b | fRead o b d | fWrite o b =>
    simp [opsOf, readPageOps, eraseFrame, readFrame, writeFrame, addressPhase, addrBytes, owedBy, MicroOp.product,
      Reply.product]
  | eraseBlock x | writePageAsync x | fWren o =>
    simp only [opsOf, eraseBlockOps, writePageOps, List.append_assoc]
    refine List.forall_mem_append.2 ⟨fun m hm => .inl (wrenFrame_product hm), ?_⟩
    simp [eraseFrame, writeFrame, addressPhase, addrBytes, owedBy, MicroOp.product, Reply.product]

/-- An instruction that does not list `p` starts with a queue that does not owe it. -/
theorem not_owes_opsOf {i : Instr} {p : Product} (hi : p ∉ owedBy i) (hp : p ≠ .nothing) (a b : State) :
    ¬ (b.setUq (opsOf i a)).Owes p := by
  rintro ⟨m, hm, rfl⟩
  exact (product_of_mem_opsOf i a m hm).elim hp hi

/-- Every instruction starts its micro-operations in phase RUN (10_state R36). -/
theorem beginState_phase (i : Instr) (s : State) : (beginState i s).phase = .run := by
  cases i with
  | init x => by_cases h : configSizeOk x.size <;> simp [beginState, h, State.latchConfig]
  | _ => rfl

/-- Acceptance, INIT and UNINIT write no result field before the response. -/
theorem beginState_response (i : Instr) (s : State) : SameResponse s (beginState i s) := by
  cases i with
  | init x =>
    simp only [beginState]
    split <;> exact ⟨rfl, rfl, rfl⟩
  | _ => exact ⟨rfl, rfl, rfl⟩

/-- Acceptance, INIT and UNINIT leave the parameters, `filler` and Host's moves. -/
theorem beginState_constants (i : Instr) (s : State) :
    (beginState i s).params = s.params ∧ (beginState i s).filler = s.filler ∧ (beginState i s).inbox = s.inbox := by
  cases i with
  | init x =>
    simp only [beginState]
    split <;> exact ⟨rfl, rfl, rfl⟩
  | _ => exact ⟨rfl, rfl, rfl⟩

/-- INIT alone writes `cfg` before the micro-operations (40 R143). -/
theorem beginState_cfg {i : Instr} (s : State) (h : ∀ x, i ≠ .init x) : (beginState i s).cfg = s.cfg := by
  cases i with
  | init x => exact absurd rfl (h x)
  | _ => rfl

/-- INIT and UNINIT alone switch the block before the micro-operations (40 R143, R146). -/
theorem beginState_power {i : Instr} (s : State) (h : ∀ x, i ≠ .init x ∧ i ≠ .uninit x) :
    (beginState i s).initDone = s.initDone ∧ (beginState i s).spiEn = s.spiEn := by
  cases i with
  | init x => exact absurd rfl (h x).1
  | uninit x => exact absurd rfl (h x).2
  | _ => exact ⟨rfl, rfl⟩

/-- A completed instruction ran its micro-operations from the state acceptance left. -/
theorem exec_ran {i : Instr} {s t : State} (h : exec i s = .next t) :
    Ran ((beginState i s).setUq (opsOf i (beginState i s))) t ∧ t.phase = .idle :=
  drive_ran (beginState_phase i s) (exec_next h).2.2.2

/-- A completed instruction that does not owe a result field leaves it. -/
theorem exec_keeps_ident {i : Instr} {s t : State} (h : exec i s = .next t) (hi : .identity ∉ owedBy i) :
    t.ident = s.ident :=
  ((exec_ran h).1.ident.resolve_left (not_owes_opsOf hi nofun _ _)).trans (beginState_response i s).ident

theorem exec_keeps_rspStatus {i : Instr} {s t : State} (h : exec i s = .next t) (hi : .status ∉ owedBy i) :
    t.rspStatus = s.rspStatus :=
  ((exec_ran h).1.rspStatus.resolve_left (not_owes_opsOf hi nofun _ _)).trans (beginState_response i s).rspStatus

theorem exec_keeps_rspFlag {i : Instr} {s t : State} (h : exec i s = .next t) (hi : .flag ∉ owedBy i) :
    t.rspFlag = s.rspFlag :=
  ((exec_ran h).1.rspFlag.resolve_left (not_owes_opsOf hi nofun _ _)).trans (beginState_response i s).rspFlag

/-- READ_ID and its frame alone owe the identity (10_state R49). -/
theorem identity_not_owed {i : Instr} (h : ∀ x, i ≠ .readId x) (h' : ∀ o d, i ≠ .fRdid o d) : .identity ∉ owedBy i := by
  cases i with
  | readId x => exact absurd rfl (h x)
  | fRdid o d => exact absurd rfl (h' o d)
  | _ => simp [owedBy]

/-- INIT and IS_BAD_BLOCK_SUPPORTED alone owe `rsp_flag` (10_state R51). -/
theorem flag_not_owed {i : Instr} (h : ∀ x, i ≠ .init x ∧ i ≠ .isBadBlockSupported x) : .flag ∉ owedBy i := by
  cases i with
  | init x => exact absurd rfl (h x).1
  | isBadBlockSupported x => exact absurd rfl (h x).2
  | _ => simp [owedBy]

/-- The commands with another response or none, and the frames, do not owe `rsp_status` (10_state R50). -/
theorem status_not_owed {i : Instr}
    (h : (∃ x, i = .init x ∨ i = .uninit x ∨ i = .readId x ∨ i = .writePageAsync x ∨ i = .isBadBlockSupported x) ∨
      isCommand i = false) : .status ∉ owedBy i := by
  obtain ⟨x, rfl | rfl | rfl | rfl | rfl⟩ | h := h
  iterate 5 simp [owedBy]
  cases i with
  | fWren | fRdid | fErase | fRead | fWrite | fStatus => simp [owedBy]
  | _ => cases h

/-- No command ends by the release of a frame: it ends by its response (10_state R57). -/
theorem release_not_owed {i : Instr} (h : isCommand i = true) : .release ∉ owedBy i := by
  cases i with
  | fWren | fRdid | fErase | fRead | fWrite | fStatus => cases h
  | _ => simp [owedBy]

/-! ### Presentation and refusal -/

/-- While the block is idle a step is Host's move (60_exceptions R271). -/
theorem step_idle {s : State} (h : s.phase = .idle) : step s = hostStep s := by
  simp only [step, h]

/-- A word at the head of Host's moves is run on the state without that move. -/
theorem hostStep_present {s : State} {w : PortWord} {rest : List HostMove} (h : s.inbox = .present w :: rest) :
    hostStep s = runWord w { s with inbox := rest } := by
  simp only [hostStep, h]

/-- A frame is not started while the block runs (notes/assumptions/8). -/
theorem onFrame_run {s : State} {rule : State → Host.Outcome State Fault Refusal} (h : s.phase = .run) :
    onFrame s rule = .refused .presentedWhileRunning :=
  if_pos h

end Sys2Proof.Machine

namespace Sys2Proof.Proofs

open Sys2Proof Sys2Proof.Machine Sys2Proof.Claims

/-- Settles O44: the queue is left empty by a response or by the release of a frame, and a command owes no release. -/
theorem completedInstructionIsIdle : Obligations.CompletedInstructionIsIdle := by
  intro i s t h
  obtain ⟨hr, hp⟩ := exec_ran h
  obtain ⟨hq, hv⟩ := hr.ended hp
  exact ⟨hp, hq, fun hc => hv.resolve_left (not_owes_opsOf (release_not_owed hc) nofun _ _)⟩

/-- Settles O45: neither acceptance nor any atomic step writes them. -/
theorem parametersAndFillerAreConstant : Obligations.ParametersAndFillerAreConstant := by
  intro i s t h
  have hr := (exec_ran h).1.settings
  obtain ⟨hp, hf, hi⟩ := beginState_constants i s
  exact ⟨hr.params.trans hp, hr.filler.trans hf, hr.inbox.trans hi⟩

/-- Settles O46: no atomic step writes `cfg`, and of the instructions INIT alone does so before its response. -/
theorem onlyInitWritesTheConfiguration : Obligations.OnlyInitWritesTheConfiguration := by
  intro i s t h hi
  exact (exec_ran h).1.settings.cfg.trans (beginState_cfg s hi)

/-- Settles O47: no atomic step switches the block, and of the instructions INIT and UNINIT alone do. -/
theorem onlyInitAndUninitSwitchTheBlock : Obligations.OnlyInitAndUninitSwitchTheBlock := by
  intro i s t h hi
  have hr := (exec_ran h).1.settings
  obtain ⟨hd, he⟩ := beginState_power s hi
  exact ⟨hr.initDone.trans hd, hr.spiEn.trans he⟩

/-- Settles O48: READ_ID and F_RDID alone load an exchange whose answer is kept in `id[0..5]`. -/
theorem onlyReadIdWritesTheIdentity : Obligations.OnlyReadIdWritesTheIdentity := by
  intro i s t h hi hf
  exact exec_keeps_ident h (identity_not_owed hi hf)

/-- Settles O49: a response field is written by a reply that names it, and these instructions load none. -/
theorem responseFieldsKeptByOtherCommands : Obligations.ResponseFieldsKeptByOtherCommands := by
  intro i s t h
  exact ⟨fun hs => exec_keeps_rspStatus h (status_not_owed hs), fun hf => exec_keeps_rspFlag h (flag_not_owed hf)⟩

/-- Settles O1: each element is read off `State.reset`. -/
theorem resetIsIdleUninitialised : Obligations.ResetIsIdleUninitialised := by
  exact ⟨rfl, rfl, rfl, rfl, rfl, rfl, rfl, rfl, rfl, rfl, rfl, rfl, rfl, rfl, rfl, rfl⟩

/-- Settles O2: the bus stands between frames. -/
theorem resetMeetsTheInvariant : Obligations.ResetMeetsTheInvariant :=
  { memory := rfl
    filler := rfl
    xferMax := Nat.le_add_left 1 Config.xferMaxLessOne
    power := rfl
    channels := rfl
    control := ⟨.between, rfl, rfl, rfl⟩ }

/-- Settles O6: the step is Host's move, and the move runs the word as `decode` reads it. -/
theorem stepRunsThePresentedInstruction : Obligations.StepRunsThePresentedInstruction := by
  intro s w rest hp hw
  rw [step_idle hp, hostStep_present hw]
  exact ⟨fun i hi => by simp only [runWord, hi], fun e he => by simp only [runWord, he]⟩

/-- Settles O40: a descriptor meets the refusal of acceptance, a frame that of `onFrame`. -/
theorem runningBlockRefuses : Obligations.RunningBlockRefuses := by
  intro i s hp
  cases i with
  | fWren | fRdid | fErase | fRead | fWrite | fStatus => exact onFrame_run hp
  | init x => simp only [exec, execInit, onAccept_run hp]
  | _ => exact onAccept_run hp

end Sys2Proof.Proofs

namespace Sys2Proof.Machine

open Sys2Proof.Claims

/-! ### Two blocks that agree on all that was written -/

/-- The two states agree on the elements no result field is among. -/
structure SameCore (s s' : State) : Prop where
  trace : s'.trace = s.trace
  mem : s'.mem = s.mem
  drawn : s'.drawn = s.drawn
  cmd : s'.cmd = s.cmd
  cs : s'.cs = s.cs
  initDone : s'.initDone = s.initDone
  spiEn : s'.spiEn = s.spiEn

/-- Two commands in flight between micro-operations, chip-select at `sel`, that agree on everything read from there on: on
`status_latch` when `latched`, on the poller's result when `polled`. -/
structure Twin (sel latched polled : Bool) (s s' : State) : Prop extends SameCore s s' where
  quiet : s.Quiet
  quiet' : s'.Quiet
  selected : s.cs = sel
  cfg : s'.cfg = s.cfg
  rspValid : s'.rspValid = s.rspValid
  params : s'.params = s.params
  filler : s'.filler = s.filler
  chipScript : s'.chipScript = s.chipScript
  statusLatch : latched = true → s'.statusLatch = s.statusLatch
  pollResult : polled = true → s'.pollResult = s.pollResult

/-- A queue of whole micro-operations, framed from chip-select at `sel`, that reads `status_latch` and the poller's result for its
response only after writing them, unless they were written before (`latched`, `polled`). -/
inductive WrittenFirst : (sel latched polled : Bool) → List MicroOp → Prop
  | sel {l p q} (h : WrittenFirst true l p q) : WrittenFirst false l p (.sel :: q)
  | desel {l p q} (h : WrittenFirst false l p q) : WrittenFirst true l p (.desel :: q)
  | tx8 {c l p q b} (h : WrittenFirst c l p q) : WrittenFirst c l p (.tx8 b :: q)
  | rx8 {c l p q b} (h : WrittenFirst c true p q) : WrittenFirst c l p (.rx8 b .statusLatch :: q)
  | bulkTx {c l p q buf n} (hn : n ≠ 0) (hf : buf.toNat + n.toNat ≤ Config.hostSpace) (h : WrittenFirst c l p q) :
    WrittenFirst c l p (.bulkTx buf n :: q)
  | bulkRx {c l p q buf n} (hn : n ≠ 0) (hf : buf.toNat + n.toNat ≤ Config.hostSpace) (h : WrittenFirst c l p q) :
    WrittenFirst c l p (.bulkRx buf n :: q)
  | poll {l p q} (h : WrittenFirst false l true q) : WrittenFirst false l p (.poll :: q)
  | respond {c l p r} (hl : r = .decoded → l = true) (hp : r = .polled → p = true) : WrittenFirst c l p [.respond r]
  | release {c l p} : WrittenFirst c l p [.release]

section Steps

variable {c l p : Bool} {s s' : State}

theorem Twin.selected_right (h : Twin c l p s s') : s'.cs = c := h.cs.trans h.selected

theorem Twin.chipAhead (h : Twin c l p s s') : s'.chipAhead = s.chipAhead :=
  funext (State.chipAhead_congr h.chipScript h.drawn)

theorem Twin.sel (h : Twin c l p s s') : Twin true l p s.selected s'.selected :=
  { h with
    quiet := h.quiet.selected, quiet' := h.quiet'.selected, cs := rfl, selected := rfl
    trace := by simp only [State.selected_trace, h.trace] }

theorem Twin.desel (h : Twin c l p s s') : Twin false l p s.deselected s'.deselected :=
  { h with
    quiet := h.quiet.deselected, quiet' := h.quiet'.deselected, cs := rfl, selected := rfl
    trace := by simp only [State.deselected_trace, h.trace] }

theorem Twin.tx8 (h : Twin c l p s s') (b : Byte) : Twin c l p (s.exchanged b .discard) (s'.exchanged b .discard) :=
  { h with
    quiet := h.quiet.exchanged b _, quiet' := h.quiet'.exchanged b _
    trace := by simp only [State.exchanged, h.trace, h.chipAhead]
    chipScript := congrArg List.tail h.chipScript
    drawn := congrArg (· + 1) h.drawn }

/-- A status byte received is written on both sides alike (42 R202). -/
theorem Twin.rx8 (h : Twin c l p s s') (b : Byte) :
    Twin c true p (s.exchanged b .statusLatch) (s'.exchanged b .statusLatch) :=
  { h with
    quiet := h.quiet.exchanged b _, quiet' := h.quiet'.exchanged b _
    trace := by simp only [State.exchanged, h.trace, h.chipAhead]
    chipScript := congrArg List.tail h.chipScript
    drawn := congrArg (· + 1) h.drawn
    statusLatch := fun _ => congrFun h.chipAhead 0 }

theorem Twin.bulkRx (h : Twin c l p s s') (buf n : Word) (ks ks' : List Nat) :
    Twin c l p { s.bulkReceived buf n with schedule := ks } { s'.bulkReceived buf n with schedule := ks' } :=
  { h with
    quiet := h.quiet.bulkReceived buf n ks, quiet' := h.quiet'.bulkReceived buf n ks'
    trace := by simp only [State.bulkReceived, h.trace, h.filler, h.chipAhead]
    mem := by simp only [State.bulkReceived, h.mem, h.chipAhead]
    chipScript := congrArg (List.drop n.toNat) h.chipScript
    drawn := congrArg (· + n.toNat) h.drawn }

theorem Twin.bulkTx (h : Twin c l p s s') (buf n : Word) (ks ks' : List Nat) :
    Twin c l p { s.bulkTransmitted buf n with schedule := ks } { s'.bulkTransmitted buf n with schedule := ks' } :=
  { h with
    quiet := h.quiet.bulkTransmitted buf n ks, quiet' := h.quiet'.bulkTransmitted buf n ks'
    trace := by simp only [State.bulkTransmitted, h.trace, h.mem, h.chipAhead]
    chipScript := congrArg (List.drop n.toNat) h.chipScript
    drawn := congrArg (· + n.toNat) h.drawn }

theorem Twin.statusReads (h : Twin false l p s s') (n : Nat) : Twin false l p (s.statusReads n) (s'.statusReads n) := by
  cases n with
  | zero => exact h
  | succ n =>
    exact
      { h with
        quiet := h.quiet.statusReads (n + 1), quiet' := h.quiet'.statusReads (n + 1), cs := rfl, selected := rfl
        trace := by simp only [State.statusReads, statusEvents, h.trace, h.cfg, h.params, h.chipAhead]
        chipScript := congrArg (List.drop (2 * n + 2)) h.chipScript
        drawn := congrArg (· + (2 * n + 2)) h.drawn
        statusLatch := fun _ => congrFun h.chipAhead _ }

/-- `Poll()` writes its result on both sides alike, whatever the counter held (43 R230). -/
theorem Twin.poll (h : Twin false l p s s') (n : Nat) (k k' : Word) (r : FlashStatus) :
    Twin false l true (s.pollEnded n k r) (s'.pollEnded n k' r) :=
  { h.statusReads n with
    quiet := h.quiet.pollEnded n k r, quiet' := h.quiet'.pollEnded n k' r, pollResult := fun _ => rfl }

theorem Twin.identified (h : Twin c l p s s') (o d0 d1 d2 d3 d4 d5 : Byte) :
    Twin false l p (s.identified o d0 d1 d2 d3 d4 d5) (s'.identified o d0 d1 d2 d3 d4 d5) :=
  { h with
    quiet := h.quiet.identified o d0 d1 d2 d3 d4 d5, quiet' := h.quiet'.identified o d0 d1 d2 d3 d4 d5
    cs := rfl, selected := rfl
    trace := by simp only [State.identified, h.trace, h.chipAhead]
    chipScript := congrArg (List.drop 7) h.chipScript
    drawn := congrArg (· + 7) h.drawn }

end Steps

/-- `Poll()` writes no result field (43 R230). -/
theorem pollEnded_response (s : State) (n : Nat) (k : Word) (r : FlashStatus) : SameResponse s (s.pollEnded n k r) := by
  cases n <;> exact ⟨rfl, rfl, rfl⟩

/-! ### What one side completes the other completes too -/

theorem SameResponse.trans {s t u : State} (h : SameResponse s t) (h' : SameResponse t u) : SameResponse s u :=
  ⟨h'.rspStatus.trans h.rspStatus, h'.rspFlag.trans h.rspFlag, h'.ident.trans h.ident⟩

/-- Results compared from a later point of a run are results compared from its start, when no result was written between. -/
theorem sameResults_from_start {s u s1 u1 t t' : State} (h : SameResults s1 u1 t t') (hs : SameResponse s s1)
    (hu : SameResponse u u1) : SameResults s u t t' :=
  { h with
    rspStatus := h.rspStatus.imp_right fun e => ⟨e.1.trans hs.rspStatus, e.2.trans hu.rspStatus⟩
    rspFlag := h.rspFlag.imp_right fun e => ⟨e.1.trans hs.rspFlag, e.2.trans hu.rspFlag⟩
    ident := h.ident.imp_right fun e => ⟨e.1.trans hs.ident, e.2.trans hu.ident⟩ }

/-- Whatever `q` comes to from `s` it comes to from `s'`, with the same results. -/
def Matches (s s' : State) (q : List MicroOp) : Prop :=
  ∀ t, drive (s.setUq q) = .next t → ∃ t', drive (s'.setUq q) = .next t' ∧ SameResults s s' t t'

theorem Matches.of_refused {s s' : State} {q : List MicroOp} {r : Refusal} (h : drive (s.setUq q) = .refused r) :
    Matches s s' q :=
  fun _ ht => by rw [h] at ht; cases ht

/-- Both sides go on to states that match, no result written on the way. -/
theorem Matches.step {s s' s1 s1' : State} {q q1 : List MicroOp} (e : drive (s.setUq q) = drive (s1.setUq q1))
    (e' : drive (s'.setUq q) = drive (s1'.setUq q1)) (h : Matches s1 s1' q1)
    (hr : SameResponse s s1 := by exact ⟨rfl, rfl, rfl⟩) (hr' : SameResponse s' s1' := by exact ⟨rfl, rfl, rfl⟩) :
    Matches s s' q := by
  intro t ht
  obtain ⟨t', ht', hs⟩ := h t (e.symm.trans ht)
  exact ⟨t', e'.trans ht', sameResults_from_start hs hr hr'⟩

/-- A response writes the same on both sides when what it reads was written (10_state R57). -/
theorem respond_same {r : Reply} {s s' t : State} (h : SameCore s s')
    (hd : r = .decoded → s'.cfg = s.cfg ∧ s'.statusLatch = s.statusLatch) (hp : r = .polled → s'.pollResult = s.pollResult)
    (hr : respond r s = .next t) : ∃ t', respond r s' = .next t' ∧ SameResults s s' t t' := by
  have written : ∀ st b st' b', (st' = st ∨ st = s.rspStatus ∧ st' = s'.rspStatus) →
      (b' = b ∨ b = s.rspFlag ∧ b' = s'.rspFlag) →
      SameResults s s' ({ s with rspStatus := st, rspFlag := b } : State).finish
        ({ s' with rspStatus := st', rspFlag := b' } : State).finish := fun st b st' b' hst hb =>
    { h with rspValid := rfl, rspStatus := hst, rspFlag := hb, ident := .inr ⟨rfl, rfl⟩ }
  cases r with
  | void => cases hr; exact ⟨_, rfl, written _ _ _ _ (.inr ⟨rfl, rfl⟩) (.inr ⟨rfl, rfl⟩)⟩
  | flag b => cases hr; exact ⟨_, rfl, written _ _ _ _ (.inr ⟨rfl, rfl⟩) (.inl rfl)⟩
  | status st => cases hr; exact ⟨_, rfl, written _ _ _ _ (.inl rfl) (.inr ⟨rfl, rfl⟩)⟩
  | polled => cases hr; exact ⟨_, rfl, written _ _ _ _ (.inl (hp rfl)) (.inr ⟨rfl, rfl⟩)⟩
  | decoded =>
    obtain ⟨hc, hl⟩ := hd rfl
    cases hst : decodeStatus s.cfg s.statusLatch with
    | none => simp only [respond, hst] at hr; cases hr
    | some st =>
      simp only [respond, hst] at hr
      cases hr
      exact ⟨_, by simp only [respond, hc, hl, hst], written _ _ _ _ (.inl rfl) (.inr ⟨rfl, rfl⟩)⟩

/-- A queue that writes before it reads comes to the same from two blocks that agree on what was written. -/
theorem WrittenFirst.matches {c l p : Bool} {q : List MicroOp} (hw : WrittenFirst c l p q) {s s' : State}
    (h : Twin c l p s s') : Matches s s' q := by
  induction hw generalizing s s' with
  | sel _ ih => exact .step (drive_sel h.quiet h.selected) (drive_sel h.quiet' h.selected_right) (ih h.sel)
  | desel _ ih => exact .step (drive_desel h.quiet h.selected) (drive_desel h.quiet' h.selected_right) (ih h.desel)
  | tx8 _ ih => exact .step (drive_tx8 h.quiet) (drive_tx8 h.quiet') (ih (h.tx8 _))
  | rx8 _ ih => exact .step (drive_rx8 h.quiet) (drive_rx8 h.quiet') (ih (h.rx8 _))
  | bulkTx hn hf _ ih =>
    obtain ⟨ks, e⟩ := drive_bulkTx h.quiet hn hf
    obtain ⟨ks', e'⟩ := drive_bulkTx h.quiet' hn hf
    exact .step e e' (ih (h.bulkTx _ _ ks ks'))
  | bulkRx hn hf _ ih =>
    obtain ⟨ks, e⟩ := drive_bulkRx h.quiet hn hf
    obtain ⟨ks', e'⟩ := drive_bulkRx h.quiet' hn hf
    exact .step e e' (ih (h.bulkRx _ _ ks ks'))
  | @poll _ _ q _ ih =>
    obtain ⟨h0, hd⟩ | ⟨k, hk, hb, hr⟩ | hb := poll_cases s
    · exact .of_refused (drive_poll_refused h.quiet h.selected h0 hd)
    · have e' := drive_poll_ready (q := q) h.quiet' h.selected_right (h.params ▸ hk) (h.cfg ▸ h.chipAhead ▸ hb)
        (h.cfg ▸ h.chipAhead ▸ hr)
      exact .step (drive_poll_ready h.quiet h.selected hk hb hr) e' (ih (h.poll _ _ _ _)) (pollEnded_response ..)
        (pollEnded_response ..)
    · have e' := drive_poll_timeout (q := q) h.quiet' h.selected_right (h.params ▸ h.cfg ▸ h.chipAhead ▸ hb)
      rw [h.params] at e'
      exact .step (drive_poll_timeout h.quiet h.selected hb) e' (ih (h.poll _ _ _ _)) (pollEnded_response ..)
        (pollEnded_response ..)
  | respond hl hp =>
    intro t ht
    rw [drive_reply h.quiet] at ht
    obtain ⟨t', ht', hs⟩ := respond_same (s' := s'.setUq _) { h with } (fun hd => ⟨h.cfg, h.statusLatch (hl hd)⟩)
      (fun hp' => h.pollResult (hp hp')) ht
    exact ⟨t', (drive_reply h.quiet').trans ht', sameResults_from_start hs ⟨rfl, rfl, rfl⟩ ⟨rfl, rfl, rfl⟩⟩
  | release =>
    intro t ht
    rw [drive_release h.quiet] at ht
    cases ht
    exact ⟨_, drive_release h.quiet',
      { h with rspStatus := .inr ⟨rfl, rfl⟩, rspFlag := .inr ⟨rfl, rfl⟩, ident := .inr ⟨rfl, rfl⟩ }⟩

/-- The identity is written whole on both sides alike (41 R171). -/
theorem Twin.matches_rdid {l p : Bool} {s s' : State} (h : Twin false l p s s') {o d0 d1 d2 d3 d4 d5 : Byte} {q : List MicroOp}
    (hw : WrittenFirst false l p q) : Matches s s' (rdidFrame o d0 d1 d2 d3 d4 d5 ++ q) := by
  intro t ht
  rw [drive_rdid h.quiet h.selected] at ht
  have h1 := h.identified o d0 d1 d2 d3 d4 d5
  obtain ⟨t', ht', hs⟩ := hw.matches h1 t ht
  have same : (s'.identified o d0 d1 d2 d3 d4 d5).ident = (s.identified o d0 d1 d2 d3 d4 d5).ident := by
    simp only [State.identified, h.chipAhead]
  refine ⟨t', (drive_rdid h.quiet' h.selected_right).trans ht', { hs with ident := .inl ?_ }⟩
  exact hs.ident.elim id fun e => e.2.trans (same.trans e.1.symm)

/-! ### The instructions write before they read -/

section Frames

variable {l p : Bool} {q : List MicroOp}

theorem WrittenFirst.wren (o : Byte) (h : WrittenFirst false l p q) : WrittenFirst false l p (wrenFrame o ++ q) := by
  unfold wrenFrame
  split
  · exact h
  · exact .sel (.tx8 (.desel h))

theorem WrittenFirst.erase (o : Byte) (a : WireAddr) (h : WrittenFirst false l p q) :
    WrittenFirst false l p (eraseFrame o a ++ q) :=
  .sel (.tx8 (.tx8 (.tx8 (.tx8 (.desel h)))))

theorem WrittenFirst.read (o d : Byte) (a : WireAddr) {buf n : Word} {s : State} (hf : s.BulkFits buf n)
    (h : WrittenFirst false l p q) : WrittenFirst false l p (readFrame o a d buf n ++ q) :=
  .sel (.tx8 (.tx8 (.tx8 (.tx8 (.tx8 (.bulkRx (fun h0 => by simp [h0, State.BulkFits] at hf) hf.2.2 (.desel h)))))))

theorem WrittenFirst.write (o : Byte) (a : WireAddr) {buf n : Word} {s : State} (hf : s.BulkFits buf n)
    (h : WrittenFirst false l p q) : WrittenFirst false l p (writeFrame o a buf n ++ q) :=
  .sel (.tx8 (.tx8 (.tx8 (.tx8 (.bulkTx (fun h0 => by simp [h0, State.BulkFits] at hf) hf.2.2 (.desel h))))))

/-- A status frame writes `status_latch` (41 R175). -/
theorem WrittenFirst.status (o d : Byte) (h : WrittenFirst false true p q) : WrittenFirst false l p (statusFrame o d ++ q) :=
  .sel (.tx8 (.rx8 (.desel h)))

/-- A response that reads neither `status_latch` nor the poller's result. -/
theorem WrittenFirst.reply {r : Reply} (hl : r ≠ .decoded) (hp : r ≠ .polled) : WrittenFirst false l p [.respond r] :=
  .respond (absurd · hl) (absurd · hp)

end Frames

/-- An instruction that writes no identity reads nothing before writing it. -/
theorem opsOf_writtenFirst {i : Instr} {s : State} (hf : operandsFit i s) (hi : .identity ∉ owedBy i) :
    WrittenFirst false false false (opsOf i (beginState i s)) := by
  cases i with
  | init x | uninit x | readSpareData x | isBadBlockSupported x | reservedA x | reservedB x | reservedC x | reservedD x
  | reservedE x | reservedF x => exact .reply (by nofun) (by nofun)
  | readId x | fRdid o d => simp [owedBy] at hi
  | eraseBlock x =>
    simp only [opsOf, eraseBlockOps, List.append_assoc]
    exact .wren _ (.erase _ _ (.poll (.respond nofun fun _ => rfl)))
  | readPage x => exact .read (q := [_]) _ _ _ hf (.reply nofun nofun)
  | writePageAsync x =>
    simp only [opsOf, writePageOps, List.append_assoc]
    exact .wren _ (.write _ _ hf (.reply nofun nofun))
  | readStatus x => exact .status (q := [_]) _ _ (.respond (fun _ => rfl) nofun)
  | waitReady x => exact .poll (.respond nofun fun _ => rfl)
  | fWren o => exact .wren o .release
  | fErase o b => exact .erase o b .release
  | fRead o b d => exact .read o d b hf .release
  | fWrite o b => exact .write o b hf .release
  | fStatus o d => exact .status o d .release

/-- From two states that agree on all that was written, every instruction's micro-operations come to the same (10_state R60). -/
theorem matches_opsOf {i : Instr} {s s' : State} (hf : operandsFit i s)
    (h : Twin false false false (beginState i s) s') : Matches (beginState i s) s' (opsOf i (beginState i s)) := by
  cases i with
  | readId x => exact h.matches_rdid (.reply (r := .void) nofun nofun)
  | fRdid o d => exact h.matches_rdid .release
  | _ => exact (opsOf_writtenFirst hf (by simp [owedBy])).matches h

/-! ### Rewriting what reset leaves without a value -/

/-- The state an instruction at rest starts in: in flight, no exchange pending and no channel armed. -/
structure State.Begun (s : State) : Prop where
  running : s.phase = .run
  empty : s.txe = true
  txOff : s.chTx.en = false
  rxOff : s.chRx.en = false

theorem beginState_begun (i : Instr) {s : State} (h : s.AtRest) : (beginState i s).Begun := by
  cases i with
  | init x =>
    simp only [beginState]
    split <;> exact ⟨rfl, h.empty, h.txOff, h.rxOff⟩
  | _ => exact ⟨rfl, h.empty, h.txOff, h.rxOff⟩

/-- From a Ready block every instruction but UNINIT starts with the peripheral on and deselected. -/
theorem beginState_quiet {i : Instr} {s : State} (h : s.Ready) (hi : ∀ x, i ≠ .uninit x) :
    (beginState i s).Quiet ∧ (beginState i s).cs = false := by
  cases i with
  | uninit x => exact absurd rfl (hi x)
  | init x =>
    simp only [beginState]
    split
    · exact ⟨⟨rfl, rfl, h.empty, h.drained, h.txOff, h.rxOff⟩, rfl⟩
    · exact ⟨h.quietAccept _, h.deselected⟩
  | fWren | fRdid | fErase | fRead | fWrite | fStatus => exact ⟨h.quietFrame, h.deselected⟩
  | _ => exact ⟨h.quietAccept _, h.deselected⟩

/-- Starting an instruction neither reads nor writes what a Ready block may not have written. -/
theorem beginState_rewriteUnwritten (i : Instr) (s u : State) :
    beginState i (rewriteUnwritten s u) = rewriteUnwritten (beginState i s) u := by
  cases i with
  | init x =>
    simp only [beginState]
    split <;> rfl
  | _ => rfl

/-- The micro-operations of an instruction do not depend on what a Ready block may not have written. -/
theorem opsOf_rewriteUnwritten (i : Instr) (a u : State) : opsOf i (rewriteUnwritten a u) = opsOf i a := by
  cases i <;> rfl

theorem rewriteUnwritten_core (a u : State) (c : ChipConfig) : SameCore a { rewriteUnwritten a u with cfg := c } :=
  ⟨rfl, rfl, rfl, rfl, rfl, rfl, rfl⟩

theorem State.Quiet.twin {a : State} (h : a.Quiet) (hc : a.cs = false) (u : State) :
    Twin false false false a (rewriteUnwritten a u) :=
  { rewriteUnwritten_core a u a.cfg with
    quiet := h, quiet' := ⟨h.running, h.powered, h.empty, h.drained, h.txOff, h.rxOff⟩, selected := hc
    cfg := rfl, rspValid := rfl, params := rfl, filler := rfl, chipScript := rfl, statusLatch := nofun, pollResult := nofun }

theorem State.Begun.rewriteUnwritten {a : State} (h : a.Begun) (u : State) (c : ChipConfig) :
    ({ rewriteUnwritten a u with cfg := c } : State).Begun :=
  ⟨h.running, h.empty, h.txOff, h.rxOff⟩

theorem State.Begun.drive_reply {s : State} (h : s.Begun) (r : Reply) :
    drive (s.setUq [.respond r]) = respond r (s.setUq [.respond r]) :=
  drive_respond h.running (by simp [State.shifterReady, h.empty]) h.txOff h.rxOff

/-- An immediate response that reads nothing is the same on both sides, whatever `cfg` holds. -/
theorem State.Begun.matches_reply {a a' : State} (h : a.Begun) (h' : a'.Begun) (hs : SameCore a a') {r : Reply}
    (hd : r ≠ .decoded) (hp : r ≠ .polled) : Matches a a' [.respond r] := by
  intro t ht
  rw [h.drive_reply] at ht
  obtain ⟨t', ht', hres⟩ := respond_same (s' := a'.setUq [.respond r]) { hs with } (absurd · hd) (absurd · hp) ht
  exact ⟨t', (h'.drive_reply r).trans ht', sameResults_from_start hres ⟨rfl, rfl, rfl⟩ ⟨rfl, rfl, rfl⟩⟩

/-- An instruction accepted from both of two states whose starts match completes in both, with the same results. -/
theorem exec_matches {i : Instr} {s s' u t : State} (h : exec i s = .next t) (hp : s'.phase = .idle)
    (hi : needsInit i = true → s'.initDone = true) (hf : operandsFit i s')
    (ho : opsOf i (beginState i s') = opsOf i (beginState i s))
    (hm : Matches (beginState i s) (beginState i s') (opsOf i (beginState i s))) (hu : SameResponse u s') :
    ∃ t', exec i s' = .next t' ∧ SameResults s u t t' ∧ t.cfg = (beginState i s).cfg ∧ t'.cfg = (beginState i s').cfg := by
  obtain ⟨-, -, -, hd⟩ := exec_next h
  obtain ⟨t', ht', hs⟩ := hm t hd
  have h' : exec i s' = .next t' := by rw [exec_accepted hp hi hf, ho, ht']
  exact ⟨t', h', sameResults_from_start hs (beginState_response i s) (hu.trans (beginState_response i s')),
    (exec_ran h).1.settings.cfg, (exec_ran h').1.settings.cfg⟩

/-- The operand checks do not read what a Ready block may not have written. -/
theorem operandsFit_rewriteUnwritten {i : Instr} {s : State} (h : operandsFit i s) (u : State) :
    operandsFit i (rewriteUnwritten s u) := by
  cases i <;> exact h

/-- An instruction that runs uninitialised answers at once, and its answer reads nothing (40 R143, R149). -/
theorem opsOf_immediate {i : Instr} (h : needsInit i = false) :
    ∃ r, r ≠ .decoded ∧ r ≠ .polled ∧ ∀ a, opsOf i a = [.respond r] := by
  cases i with
  | init x => exact ⟨.flag (configSizeOk x.size), nofun, nofun, fun _ => rfl⟩
  | reservedA | reservedB | reservedC | reservedD | reservedE | reservedF =>
    exact ⟨.status .invalidCommand, nofun, nofun, fun _ => rfl⟩
  | _ => cases h

/-- An instruction that runs uninitialised latches its descriptor, and `cfg` from the record or not at all (40 R143). -/
theorem beginState_rewriteUninitialised {i : Instr} (h : needsInit i = false) (s u : State) :
    ∃ c, beginState i (rewriteUninitialised s u) = { rewriteUnwritten (beginState i s) u with cfg := c } ∧
      (c = (beginState i s).cfg ∨ (beginState i s).cfg = s.cfg ∧ c = u.cfg) := by
  cases i with
  | init x =>
    simp only [beginState]
    split
    · exact ⟨_, rfl, .inl rfl⟩
    · exact ⟨_, rfl, .inr ⟨rfl, rfl⟩⟩
  | reservedA | reservedB | reservedC | reservedD | reservedE | reservedF => exact ⟨_, rfl, .inr ⟨rfl, rfl⟩⟩
  | _ => cases h

/-- In a Ready block: UNINIT answers at once, every other instruction starts with the peripheral on. -/
theorem ready_matches {i : Instr} {s : State} (h : s.Ready) (hf : operandsFit i s) (u : State) :
    Matches (beginState i s) (rewriteUnwritten (beginState i s) u) (opsOf i (beginState i s)) := by
  by_cases hi : ∃ x, i = .uninit x
  · obtain ⟨x, rfl⟩ := hi
    have hb := beginState_begun (.uninit x) h.toAtRest
    exact hb.matches_reply (hb.rewriteUnwritten u _) (rewriteUnwritten_core _ u _) (r := .void) nofun nofun
  · obtain ⟨hq, hc⟩ := beginState_quiet h (not_exists.1 hi)
    exact matches_opsOf hf (hq.twin hc u)

end Sys2Proof.Machine

namespace Sys2Proof.Proofs

open Sys2Proof Sys2Proof.Machine Sys2Proof.Claims

/-- In a Ready block what was never written is not read. -/
theorem ready_unwritten_never_read {i : Instr} {s t : State} (u : State) (hr : s.Ready) (h : exec i s = .next t) :
    ∃ t', exec i (rewriteUnwritten s u) = .next t' ∧ SameResults s u t t' ∧ t'.cfg = t.cfg := by
  obtain ⟨-, hi, hf, -⟩ := exec_next h
  have hb := beginState_rewriteUnwritten i s u
  obtain ⟨t', h', hs, hc, hc'⟩ := exec_matches (s' := rewriteUnwritten s u) (u := u) h hr.idle hi
    (operandsFit_rewriteUnwritten hf u) (by rw [hb, opsOf_rewriteUnwritten]) (by rw [hb]; exact ready_matches hr hf u)
    ⟨rfl, rfl, rfl⟩
  exact ⟨t', h', hs, by rw [hc', hc, hb]; rfl⟩

/-- In an uninitialised block at rest `cfg` and `cmd` are not read before they are written either. -/
theorem uninitialised_unwritten_never_read {i : Instr} {s t : State} (u : State) (hr : s.AtRest) (hn : s.initDone = false)
    (h : exec i s = .next t) :
    ∃ t', exec i (rewriteUninitialised s u) = .next t' ∧ SameResults s u t t' ∧
      (t'.cfg = t.cfg ∨ t.cfg = s.cfg ∧ t'.cfg = u.cfg) := by
  obtain ⟨-, hi, hf, -⟩ := exec_next h
  have hi' : needsInit i = false := Bool.eq_false_iff.2 fun hi' => by rw [hi hi'] at hn; cases hn
  obtain ⟨r, hd, hp, ho⟩ := opsOf_immediate hi'
  obtain ⟨c, hb, hcfg⟩ := beginState_rewriteUninitialised hi' s u
  have hf' : operandsFit i (rewriteUninitialised s u) := by
    cases i with
    | init => exact hf
    | reservedA | reservedB | reservedC | reservedD | reservedE | reservedF => trivial
    | _ => cases hi'
  have hbegun := beginState_begun i hr
  obtain ⟨t', h', hs, hc, hc'⟩ := exec_matches (s' := rewriteUninitialised s u) (u := u) h hr.idle
    (by rw [hi']; nofun) hf' ((ho _).trans (ho _).symm)
    (by rw [hb, ho]; exact hbegun.matches_reply (hbegun.rewriteUnwritten u c) (rewriteUnwritten_core _ u c) hd hp) ⟨rfl, rfl, rfl⟩
  rw [hb] at hc'
  exact ⟨t', h', hs, hcfg.imp (fun e => hc'.trans (e.trans hc.symm)) fun e => ⟨hc.trans e.1, hc'.trans e.2⟩⟩

/-- Settles O53: two blocks that agree on what was written stay so through every micro-operation, and what a response reads was written
on both sides alike. -/
theorem unwrittenElementsAreNeverRead : Obligations.UnwrittenElementsAreNeverRead :=
  ⟨fun _ _ _ u hr h => ready_unwritten_never_read u hr h,
    fun _ _ _ u hr hn h => uninitialised_unwritten_never_read u hr hn h⟩

end Sys2Proof.Proofs

/-! PROOFS. The family 20_memory: who writes host memory and where, that Chip's answers are taken in order, what holds once the receive
channel is complete, and which pages share a frame address. -/

namespace Sys2Proof.Machine

open Sys2Proof.Claims

/-! ### Induction over the steps of the agents -/

/-- What holds before a run, does not speak of `schedule`, and is kept by a step of every enabled agent, holds after it. -/
theorem drive_agent_induction {P : State → Prop} (hk : ∀ s ks, P s → P { s with schedule := ks })
    (ha : ∀ a s t, P s → s.enabled a = true → agentStep a s = .next t → P t) {s t : State} (h : P s)
    (hd : drive s = .next t) : P t := by
  refine (drive_induction (P := P) (fun u v _ hu hstep => ?_) h hd).1
  obtain ⟨-, h'⟩ | ⟨a, ks, hen, h'⟩ := atomicStep_cases u
  · rw [h'] at hstep; cases hstep
  · exact ha a _ v (hk u ks hu) hen (h'.symm.trans hstep)

/-! ### What a step of `Seq` leaves to the other agents -/

/-- The receive channel is on and writes to the caller's buffer (42 R205). -/
def State.Receiving (s : State) : Prop := s.chRx.en = true ∧ s.chRx.inc = true

/-- A step from `s` to `t` that moves no byte: it writes no memory and draws no answer of Chip, and a bulk receive of `t` was in `s`
already, in its queue or in its channel. -/
structure MovesNoByte (s t : State) : Prop where
  mem : t.mem = s.mem
  drawn : t.drawn = s.drawn
  chipScript : t.chipScript = s.chipScript
  trace : ∃ es, t.trace = s.trace ++ es ∧ answersOf es = []
  queue : ∀ buf n, .bulkRx buf n ∈ t.uq → .bulkRx buf n ∈ s.uq
  channel : t.Receiving → t.chRx = s.chRx ∨ ∃ buf n, .bulkRx buf n ∈ s.uq ∧ t.chRx = Channel.armed true buf n

/-- A step that puts `ms` in the place of the head of `uq`, with the trace and the receive channel as they were. -/
theorem MovesNoByte.of_head {s t : State} {m : MicroOp} {ms q : List MicroOp} (hs : s.uq = m :: q) (ht : t.uq = ms ++ q)
    (hms : ∀ buf n, .bulkRx buf n ∉ ms := by simp) (hc : t.chRx = s.chRx := by rfl) (hm : t.mem = s.mem := by rfl)
    (hd : t.drawn = s.drawn := by rfl) (hsc : t.chipScript = s.chipScript := by rfl)
    (htr : ∃ es, t.trace = s.trace ++ es ∧ answersOf es = [] := by exact ⟨[], (List.append_nil _).symm, rfl⟩) :
    MovesNoByte s t where
  mem := hm
  drawn := hd
  chipScript := hsc
  trace := htr
  queue := fun buf n h => by
    rw [ht, List.mem_append] at h
    exact hs ▸ List.mem_cons_of_mem m (h.resolve_left (hms buf n))
  channel := fun _ => .inl hc

/-- A step that ends the command: the queue is left empty. -/
theorem MovesNoByte.of_end {s t : State} (hq : t.uq = []) (hc : t.chRx = s.chRx := by rfl) (hm : t.mem = s.mem := by rfl)
    (hd : t.drawn = s.drawn := by rfl) (hsc : t.chipScript = s.chipScript := by rfl) (htr : t.trace = s.trace := by rfl) :
    MovesNoByte s t where
  mem := hm
  drawn := hd
  chipScript := hsc
  trace := ⟨[], by simp [htr], rfl⟩
  queue := fun _ _ h => by rw [hq] at h; cases h
  channel := fun _ => .inl hc

/-- `Seq` moves no byte itself (42 R200, R207): the shifter and the channels do. -/
theorem seqStep_moves_no_byte {s t : State} (h : seqStep s = .next t) : MovesNoByte s t := by
  unfold seqStep at h
  split at h
  case h_1 => cases h
  case h_2 q hq | h_3 q hq =>
    split at h <;> cases h
    exact .of_head (ms := []) hq rfl (htr := ⟨[_], rfl, rfl⟩)
  case h_4 b q hq | h_5 b dst q hq | h_6 b dst q hq | h_11 q hq =>
    cases h
    exact .of_head (ms := [_]) hq rfl
  case h_7 dst q hq =>
    cases h
    exact .of_head (ms := []) hq rfl (hc := by simp) (hm := by simp) (hd := by simp) (hsc := by simp)
      (htr := ⟨[], by simp, rfl⟩)
  case h_8 buf n q hq =>
    cases h
    exact { MovesNoByte.of_head (t := s.setUq (.bulkWait :: q)) (ms := [_]) hq rfl with
      channel := fun hr => Bool.noConfusion hr.2 }
  case h_9 buf n q hq =>
    cases h
    exact { MovesNoByte.of_head (t := s.setUq (.bulkWait :: q)) (ms := [_]) hq rfl with
      channel := fun _ => .inr ⟨buf, n, hq ▸ List.mem_cons_self, rfl⟩ }
  case h_10 q hq =>
    cases h
    exact { MovesNoByte.of_head (t := s.setUq q) (ms := []) hq rfl with channel := fun hr => Bool.noConfusion hr.1 }
  case h_12 q hq =>
    split at h <;> cases h
    · exact .of_head (ms := []) hq rfl
    · exact .of_head (ms := statusFrame s.cfg.statusCmd s.params.dummyByte ++ [.pollDecide]) hq (by simp)
        (by simp [statusFrame])
  case h_13 q hq =>
    split at h <;> cases h
    · exact .of_head (ms := []) hq rfl
    · exact .of_head (ms := [_]) hq rfl
  case h_14 r q hq =>
    obtain ⟨st, b, rfl⟩ := respond_next h
    exact .of_end rfl
  case h_15 q hq =>
    cases h
    exact .of_end rfl

/-- Acceptance, INIT and UNINIT touch neither memory nor the bus, and leave the receive channel. -/
theorem beginState_moves_no_byte (i : Instr) (s : State) :
    (beginState i s).mem = s.mem ∧ (beginState i s).drawn = s.drawn ∧ (beginState i s).chipScript = s.chipScript ∧
      (beginState i s).trace = s.trace ∧ (beginState i s).chRx = s.chRx := by
  cases i with
  | init x =>
    simp only [beginState]
    split <;> exact ⟨rfl, rfl, rfl, rfl, rfl⟩
  | _ => exact ⟨rfl, rfl, rfl, rfl, rfl⟩

/-! ### Memory outside the buffer -/

/-- The buffer of `n` bytes at `buf` lies in host memory and address `a` outside it. -/
def OutsideBuffer (a : Nat) (buf n : Word) : Prop :=
  buf.toNat + n.toNat ≤ Config.hostSpace ∧ (a < buf.toNat ∨ buf.toNat + n.toNat ≤ a)

/-- After a byte at the buffer's first address, `a` is outside the rest of the buffer. -/
theorem OutsideBuffer.rest {a : Nat} {buf n : Word} (h : OutsideBuffer a buf n) (hn : n ≠ 0) :
    OutsideBuffer a (buf + 1) (n - 1) := by
  unfold OutsideBuffer Config.hostSpace at *
  bv_omega

/-- The first address of a buffer that is not empty is inside it. -/
theorem OutsideBuffer.ne_first {a : Nat} {buf n : Word} (h : OutsideBuffer a buf n) (hn : n ≠ 0) : a ≠ buf.toNat := by
  unfold OutsideBuffer at h
  bv_omega

/-- No bulk receive, to come or in progress, is to write at address `a`. -/
structure State.Spares (s : State) (a : Nat) : Prop where
  queue : ∀ buf n, .bulkRx buf n ∈ s.uq → OutsideBuffer a buf n
  channel : s.Receiving → OutsideBuffer a s.chRx.addr s.chRx.cnt

theorem MovesNoByte.spares {s t : State} {a : Nat} (h : MovesNoByte s t) (hs : s.Spares a) : t.Spares a where
  queue := fun buf n hm => hs.queue buf n (h.queue buf n hm)
  channel := fun hr => by
    obtain hc | ⟨buf, n, hm, hc⟩ := h.channel hr
    · rw [State.Receiving, hc] at hr
      rw [hc]
      exact hs.channel hr
    · rw [hc]
      exact hs.queue buf n hm

/-- `DmaRx` writes at the address its channel stands at (42 R205), which is inside the buffer. -/
theorem dmaRxMove_spares {s : State} {a : Nat} (hs : s.Spares a) (hr : s.dmaRxReady = true) :
    s.dmaRxMove.Spares a ∧ s.dmaRxMove.mem.read a = s.mem.read a := by
  simp only [State.dmaRxReady, Bool.and_eq_true, decide_eq_true_eq] at hr
  obtain ⟨⟨⟨hen, -⟩, -⟩, hn⟩ := hr
  have hq : ∀ buf n, .bulkRx buf n ∈ s.dmaRxMove.uq → OutsideBuffer a buf n := by simpa using hs.queue
  cases hi : s.chRx.inc with
  | false => exact ⟨⟨hq, fun h => by simp [State.Receiving, hi] at h⟩, by simp [hi]⟩
  | true =>
    have ho := hs.channel ⟨hen, hi⟩
    refine ⟨⟨hq, fun _ => ?_⟩, ?_⟩
    · simpa [Channel.advance, hi] using ho.rest hn
    · simpa [hi] using Memory.read_write_other s.rxBuf (ho.ne_first hn)

theorem agentStep_spares {g : Agent} {s t : State} {a : Nat} (hs : s.Spares a) (he : s.enabled g = true)
    (h : agentStep g s = .next t) : t.Spares a ∧ t.mem.read a = s.mem.read a := by
  cases g with
  | seq =>
    have hm := seqStep_moves_no_byte h
    exact ⟨hm.spares hs, by rw [hm.mem]⟩
  | shifter | dmaTx => cases h; exact ⟨⟨hs.queue, hs.channel⟩, rfl⟩
  | dmaRx => cases h; exact dmaRxMove_spares hs he

/-- A run leaves every byte that no bulk receive is to write. -/
theorem drive_read_of_spares {s t : State} {a : Nat} (hs : s.Spares a) (h : drive s = .next t) :
    t.mem.read a = s.mem.read a :=
  (drive_agent_induction (P := fun u => u.Spares a ∧ u.mem.read a = s.mem.read a)
    (fun _ _ hu => ⟨⟨hu.1.queue, hu.1.channel⟩, hu.2⟩)
    (fun _ _ _ hu he hstep => (agentStep_spares hu.1 he hstep).imp_right (·.trans hu.2)) ⟨hs, rfl⟩ h).2

theorem bulkRx_not_mem_wrenFrame (o : Byte) (buf n : Word) : .bulkRx buf n ∉ wrenFrame o := by
  unfold wrenFrame
  split <;> simp

/-- READ_PAGE and F_READ alone load a bulk receive, and it names the buffer of the latched descriptor (30_encoding R113, 41 R173). -/
theorem bulkRx_mem_opsOf {i : Instr} {b : State} {buf n : Word} (h : .bulkRx buf n ∈ opsOf i b) :
    ((∃ x, i = .readPage x) ∨ ∃ o a d, i = .fRead o a d) ∧ buf = b.cmd.buf ∧ n = b.cmd.size := by
  cases i with
  | readPage x => exact ⟨.inl ⟨x, rfl⟩, by simpa [opsOf, readPageOps, readFrame, addressPhase, addrBytes] using h⟩
  | fRead o a d => exact ⟨.inr ⟨o, a, d, rfl⟩, by simpa [opsOf, readFrame, addressPhase, addrBytes] using h⟩
  | init x | uninit x | readSpareData x | isBadBlockSupported x | reservedA x | reservedB x | reservedC x | reservedD x
  | reservedE x | reservedF x | waitReady x => simp [opsOf, waitReadyOps] at h
  | readId x | readStatus x | fRdid o d | fStatus o d =>
    simp [opsOf, readIdOps, readStatusOps, rdidFrame, statusFrame] at h
  | fErase o a | fWrite o a => simp [opsOf, eraseFrame, writeFrame, addressPhase, addrBytes] at h
  | eraseBlock x | writePageAsync x | fWren o =>
    simp [opsOf, eraseBlockOps, writePageOps, eraseFrame, writeFrame, addressPhase, addrBytes,
      bulkRx_not_mem_wrenFrame] at h

/-- An instruction that is not refused, from a block with the receive channel off, spares what is outside its buffer. -/
theorem beginState_spares {i : Instr} {s : State} {a : Nat} (hoff : s.chRx.en = false) (hf : operandsFit i s)
    (hx : ∀ x, i = .readPage x → a < x.buf.toNat ∨ x.buf.toNat + x.size.toNat ≤ a)
    (hr : ∀ o b d, i = .fRead o b d → a < s.cmd.buf.toNat ∨ s.cmd.buf.toNat + s.cmd.size.toNat ≤ a) :
    ((beginState i s).setUq (opsOf i (beginState i s))).Spares a where
  queue := fun buf n h => by
    obtain ⟨⟨x, rfl⟩ | ⟨o, b, d, rfl⟩, rfl, rfl⟩ := bulkRx_mem_opsOf h
    · exact ⟨hf.2.2, hx x rfl⟩
    · exact ⟨hf.2.2, hr o b d rfl⟩
  channel := fun h => by
    obtain ⟨-, -, -, -, hc⟩ := beginState_moves_no_byte i s
    have hen : (beginState i s).chRx.en = true := h.1
    rw [hc, hoff] at hen
    cases hen

/-! ### Chip's answers in order -/

/-- From `s` to `t` the trace only grew, by exchanges that took Chip's next answers in order (20_memory R77, R78). -/
def TookAnswers (s t : State) : Prop :=
  ∃ (es : List BusEvent) (n : Nat), t.trace = s.trace ++ es ∧ t.drawn = s.drawn + n ∧
    t.chipScript = s.chipScript.drop n ∧ answersOf es = (List.range n).map s.chipAhead

theorem TookAnswers.trans {s t u : State} (h : TookAnswers s t) (h' : TookAnswers t u) : TookAnswers s u := by
  obtain ⟨es, n, htr, hd, hsc, ha⟩ := h
  obtain ⟨es', n', htr', hd', hsc', ha'⟩ := h'
  refine ⟨es ++ es', n + n', by simp [htr', htr], by omega, by simp [hsc', hsc], ?_⟩
  calc answersOf (es ++ es')
      = (List.range n).map s.chipAhead ++ (List.range n').map t.chipAhead := by
        rw [← ha, ← ha']
        exact List.filterMap_append
    _ = (List.range (n + n')).map s.chipAhead := by
        simp [List.range_add, chipAhead_drop hsc hd]

theorem MovesNoByte.tookAnswers {s t : State} (h : MovesNoByte s t) : TookAnswers s t := by
  obtain ⟨es, htr, ha⟩ := h.trace
  exact ⟨es, 0, htr, h.drawn, h.chipScript, ha⟩

/-- Nothing added to the trace and no answer drawn. -/
theorem TookAnswers.of_same {s t : State} (htr : t.trace = s.trace) (hd : t.drawn = s.drawn)
    (hsc : t.chipScript = s.chipScript) : TookAnswers s t :=
  ⟨[], 0, by simp [htr], hd, hsc, rfl⟩

/-- `Shifter` alone exchanges a byte, and takes the next answer (42 R203). -/
theorem agentStep_tookAnswers {g : Agent} {s t : State} (h : agentStep g s = .next t) : TookAnswers s t := by
  cases g with
  | seq => exact (seqStep_moves_no_byte h).tookAnswers
  | shifter => cases h; exact ⟨[.xfer s.txBuf (s.chipAhead 0)], 1, rfl, rfl, (List.drop_one ..).symm, rfl⟩
  | dmaTx => cases h; exact .of_same rfl rfl rfl
  | dmaRx => cases h; exact .of_same (by simp) (by simp) (by simp)

theorem drive_tookAnswers {s t : State} (h : drive s = .next t) : TookAnswers s t :=
  drive_agent_induction (P := TookAnswers s) (fun _ _ hu => hu)
    (fun _ _ _ hu _ hstep => hu.trans (agentStep_tookAnswers hstep)) (.of_same rfl rfl rfl) h

/-! ### The end of a bulk transfer -/

/-- In flight with `bulkWait` next, the invariant is that of a bulk transfer (42 R206, R211). -/
theorem State.Inv.bulkOk {s : State} {q : List MicroOp} (h : s.Inv) (hp : s.phase = .run) (hq : s.uq = .bulkWait :: q) :
    s.bulkOk = true := by
  obtain ⟨p, -, -, hc⟩ := h.control
  simp only [hp, State.flightOk, hq, Bool.and_eq_true] at hc
  obtain ⟨-, ⟨-, hb⟩, -⟩ := hc
  exact hb

/-- An idle block has its receive channel off (70 R313). -/
theorem State.Inv.rxOff {s : State} (h : s.Inv) (hp : s.phase = .idle) : s.chRx.en = false := by
  obtain ⟨p, -, -, hc⟩ := h.control
  simp only [hp, State.idleOk, State.busQuiet, Bool.and_eq_true, Bool.not_eq_true'] at hc
  obtain ⟨⟨-, -, hoff⟩, -⟩ := hc
  exact hoff

/-- The receive channel's `tc` says that its count is zero; the bytes still to take in are those to hand out and the two in the buffers,
so none of them is left either (42 R206). -/
theorem bulkOk_complete {s : State} (h : s.bulkOk = true) (hd : s.chRx.tc = true) :
    s.txe = true ∧ s.rxne = false ∧ s.chTx.cnt = 0 ∧ s.chRx.cnt = 0 := by
  obtain ⟨-, -, -, -, hcount, -, htc⟩ := bulkOk_iff.1 h
  rw [hd, eq_comm, decide_eq_true_eq] at htc
  have hsum : s.chTx.cnt.toNat + (!s.txe).toNat + s.rxne.toNat = 0 := hcount.symm.trans (toNat_eq_zero.1 htc)
  simp only [Nat.add_eq_zero_iff, Bool.toNat_eq_zero, Bool.not_eq_false'] at hsum
  obtain ⟨⟨hcnt, hempty⟩, hdrained⟩ := hsum
  exact ⟨hempty, hdrained, toNat_eq_zero.2 hcnt, htc⟩

/-! ### Addresses modulo 2^24 -/

/-- A frame address is the page's linear address modulo 2^24 (41 R165, R166). -/
theorem frameAddress_eq_iff {cfg : ChipConfig} {p : Word} {a : WireAddr} :
    frameAddress cfg p = a ↔ p.toNat * 2 ^ cfg.pageOffset.toNat % 2 ^ 24 = a.toNat := by
  rw [← BitVec.toNat_inj]
  simp [frameAddress, wireAddress, linearAddress]

end Sys2Proof.Machine

namespace Sys2Proof.Proofs

open Sys2Proof Sys2Proof.Machine Sys2Proof.Claims

/-- Settles O13: the counts of a bulk transfer leave nothing to move, and `Seq`'s hold on `ch_rx.tc` is over. -/
theorem receiveCompleteMeansAllExchanged : Obligations.ReceiveCompleteMeansAllExchanged := by
  intro s q h hp hq htc
  obtain ⟨hempty, hdrained, htx, hrx⟩ := bulkOk_complete (h.bulkOk hp hq) htc
  refine ⟨hempty, hdrained, htx, hrx, enabledAgents_seq ?_ ?_ ?_ ?_⟩
  · simp [State.seqReady, hp, hq, htc]
  · simp [State.shifterReady, hempty]
  · simp [State.dmaTxReady, htx]
  · simp [State.dmaRxReady, hrx]

/-- Settles O50: an idle block has no receive in progress, READ_PAGE and F_READ alone load one, and it writes inside its buffer. -/
theorem memoryOutsideTheBufferIsKept : Obligations.MemoryOutsideTheBufferIsKept := by
  intro i s t a hinv h hx hr
  obtain ⟨hp, -, hf, hd⟩ := exec_next h
  obtain ⟨hm, -⟩ := beginState_moves_no_byte i s
  exact (drive_read_of_spares (beginState_spares (hinv.rxOff hp) hf hx hr) hd).trans (congrArg (Memory.read · a) hm)

/-- Settles O51: `Shifter` alone draws an answer, the next one, and puts it into the trace. -/
theorem everyExchangeTakesTheNextAnswer : Obligations.EveryExchangeTakesTheNextAnswer := by
  intro i s t h
  obtain ⟨-, -, -, hd⟩ := exec_next h
  obtain ⟨-, hdr, hsc, htr, -⟩ := beginState_moves_no_byte i s
  have hbegin : TookAnswers s ((beginState i s).setUq (opsOf i (beginState i s))) := .of_same htr hdr hsc
  exact hbegin.trans (drive_tookAnswers hd)

/-- Settles O8: the move is a store, and reads after it follow from the canonical form. -/
theorem hostWriteChangesOneByte : Obligations.HostWriteChangesOneByte := by
  intro s a b rest hp hwf hin
  refine ⟨s.mem.write a.toNat b, ?_, Memory.read_write_same (lo := 0) b hwf, fun j hj => Memory.read_write_other b hj⟩
  rw [step_idle hp]
  simp only [hostStep, hin]
  rfl

/-- Settles O56: both clauses are read off the linear address modulo 2^24. -/
theorem pagesAlias : Obligations.PagesAlias := by
  intro cfg p q
  refine ⟨fun ⟨k, hk⟩ => ?_, fun hs => ?_⟩
  · rw [frameAddress_eq_iff, hk, Nat.add_mul_mod_self_right]
    exact frameAddress_eq_iff.1 rfl
  · rw [frameAddress_eq_iff]
    exact Nat.mod_eq_zero_of_dvd ((Nat.pow_dvd_pow 2 hs).mul_left _)

end Sys2Proof.Proofs

/-! PROOFS. The family 30_encoding: the encodings and the decoder are inverse to each other, what each frame row of the table does by
itself, and that Host's loop of READ_STATUS has the bus traffic of the poller. -/

namespace Sys2Proof

/-! ### Decoding what was encoded -/

/-- A descriptor packed from its fields decodes to the instruction of its command code (30_encoding R101, R103). -/
theorem decode_pack {op : BitVec 4} {x : Operands} {i : Instr} (h : decodeDescriptor (packDescriptor op x) = i) :
    decode (.descriptor (packDescriptor op x)) = .ok i :=
  congrArg Except.ok h

/-- The bytes of F_RDID decode to it when its dummy bytes are one byte sent six times (30_encoding R111). -/
theorem decodeFrame_rdid {o : Byte} {d : BitVec 48} (h : dummyUniform d = true) :
    decodeFrame .rdid (o :: dummyBytes d) = .ok (.fRdid o d) := by
  simp only [dummyBytes, decodeFrame, join_dummies, if_pos h]

/-- Bytes that decode to F_RDID are its own, and its dummy bytes are one byte (30_encoding R111). -/
theorem decodeFrame_rdid_join {o d0 d1 d2 d3 d4 d5 : Byte} {i : Instr}
    (h : decodeFrame .rdid [o, d0, d1, d2, d3, d4, d5] = .ok i) :
    i = .fRdid o (joinDummies d0 d1 d2 d3 d4 d5) ∧ dummyUniform (joinDummies d0 d1 d2 d3 d4 d5) = true := by
  simp only [decodeFrame] at h
  split at h <;> cases h
  exact ⟨rfl, ‹_›⟩

/-! ### Encoding what was decoded -/

/-- A descriptor is packed from its fields and the code its upper four bits spell (30_encoding R103). -/
theorem pack_of_opBits {op : BitVec 4} {d : DescriptorWord} (h3 : d.getLsbD 131 = op.getLsbD 3)
    (h2 : d.getLsbD 130 = op.getLsbD 2) (h1 : d.getLsbD 129 = op.getLsbD 1) (h0 : d.getLsbD 128 = op.getLsbD 0) :
    PortWord.descriptor (packDescriptor op (descriptorOperands d)) = .descriptor d := by
  refine congrArg PortWord.descriptor (pack_operands op d fun i hi => ?_)
  match i, hi with
  | 0, _ => exact h0.symm
  | 1, _ => exact h1.symm
  | 2, _ => exact h2.symm
  | 3, _ => exact h3.symm

/-- Every descriptor is the encoding of the command it decodes to (30_encoding R101). -/
theorem encode_decodeDescriptor (d : DescriptorWord) : encode (decodeDescriptor d) = .descriptor d := by
  unfold decodeDescriptor
  split <;> rename_i h3 h2 h1 h0 <;> exact pack_of_opBits h3 h2 h1 h0

/-- A descriptor decodes to a command, and every command is well-formed (30_encoding R103). -/
theorem decodeDescriptor_wf (d : DescriptorWord) : (decodeDescriptor d).wf = true := by
  unfold decodeDescriptor
  split <;> rfl

/-- Bytes that decode to a frame are that frame's encoding, and it is well-formed (30_encoding R111). -/
theorem encode_of_decodeFrame {f : FrameFormat} {bs : List Byte} {i : Instr} (h : decodeFrame f bs = .ok i) :
    encode i = .frame f bs ∧ i.wf = true := by
  have head (o b2 b1 b0 : Byte) : o :: addrBytes (joinAddr b2 b1 b0) = [o, b2, b1, b0] := by rw [addrBytes_join]
  unfold decodeFrame at h
  split at h
  case h_1 o => cases h; exact ⟨rfl, rfl⟩
  case h_2 o d0 d1 d2 d3 d4 d5 =>
    obtain ⟨rfl, hu⟩ := decodeFrame_rdid_join h
    exact ⟨by rw [encode, dummyBytes_join], hu⟩
  case h_3 o b2 b1 b0 => cases h; exact ⟨congrArg (PortWord.frame _) (head o b2 b1 b0), rfl⟩
  case h_4 o b2 b1 b0 d => cases h; exact ⟨congrArg (fun l => PortWord.frame _ (l ++ [d])) (head o b2 b1 b0), rfl⟩
  case h_5 o b2 b1 b0 => cases h; exact ⟨congrArg (PortWord.frame _) (head o b2 b1 b0), rfl⟩
  case h_6 o d => cases h; exact ⟨rfl, rfl⟩
  case h_7 => cases h

/-- A table row's bits name an instruction when the word they stand for decodes to it (notes/assumptions/9). -/
theorem decodeTableWord_eq_some {nbits w : Nat} {i : Instr} (h : decodeTableWord nbits w = some i) :
    decode (tableWord nbits w) = .ok i := by
  unfold decodeTableWord at h
  split at h
  · cases h
    assumption
  · cases h

end Sys2Proof

namespace Sys2Proof.Proofs

open Sys2Proof Sys2Proof.Machine Sys2Proof.Claims

/-- Settles O4: the command code and the operands survive packing, and the bytes of an address and of a dummy field make it up. -/
theorem decodeOfEncodeIsTheInstruction : Obligations.DecodeOfEncodeIsTheInstruction := by
  intro i hi
  cases i with
  | fWren o | fStatus o d => rfl
  | fRdid o d => exact decodeFrame_rdid hi
  | fErase o a => exact congrArg (fun b => Except.ok (Instr.fErase o b)) (join_addr a)
  | fRead o a d => exact congrArg (fun b => Except.ok (Instr.fRead o b d)) (join_addr a)
  | fWrite o a => exact congrArg (fun b => Except.ok (Instr.fWrite o b)) (join_addr a)
  | _ x => exact decode_pack (decodeDescriptor_pack _ x)

/-- Settles O5: a descriptor is packed from the code and the fields it decodes to, a frame's bytes are those it decodes to. -/
theorem encodeOfDecodeIsTheWord : Obligations.EncodeOfDecodeIsTheWord := by
  intro w i h
  cases w with
  | descriptor d =>
    cases h
    exact ⟨encode_decodeDescriptor d, decodeDescriptor_wf d⟩
  | frame f bs => exact encode_of_decodeFrame h

/-- Settles O3: the command code and the fields are read off each word. -/
theorem writtenOutWordsDecode : Obligations.WrittenOutWordsDecode := by
  refine ⟨?_, ?_, ?_, ?_, ?_, rfl, rfl⟩ <;> simp [decode, decodeDescriptor, descriptorOperands]

/-- Settles O7: the placed word is Host's next move, presented to an idle block. -/
theorem fetchWordIsRunNext : Obligations.FetchWordIsRunNext := by
  intro s nbits w i h
  exact (stepRunsThePresentedInstruction (s.withFetchWord nbits w) (tableWord nbits w) s.inbox rfl rfl).1 i
    (decodeTableWord_eq_some h)

end Sys2Proof.Proofs

namespace Sys2Proof.Machine

open Sys2Proof.Claims

/-! ### The frames run by themselves (notes/assumptions/8) -/

/-- A byte of a word by its position (00_scope R7). -/
@[simp] theorem byteAt_toNat {n : Nat} (x : BitVec n) (k : Nat) : byteAt x.toNat k = x.extractLsb' k 8 := by
  simp only [byteAt, BitVec.extractLsb', Nat.shiftRight_eq_div_pow]

/-- The block back at rest after a frame run by itself. -/
def State.released (s : State) : State := { s with phase := .idle, uq := [] }

theorem drive_released {s : State} (h : s.Quiet) : drive (s.setUq [.release]) = .next s.released := drive_release h

/-- What a Ready block has in the fields a frame leaves as it found them (70 R313). -/
theorem State.Ready.rest {s : State} (h : s.Ready) :
    s.phase = .idle ∧ s.uq = [] ∧ s.cs = false ∧ s.txe = true ∧ s.rxne = false :=
  ⟨h.idle, h.queue, h.deselected, h.empty, h.drained⟩

/-- The erase frame (41 R172): its head, then the deselect. -/
theorem drive_erase {s : State} {o : Byte} {a : WireAddr} {q : List MicroOp} (h : s.Quiet) (hc : s.cs = false) :
    drive (s.setUq (eraseFrame o a ++ q)) = drive ((s.addressed o a).deselected.setUq q) := by
  simp only [eraseFrame, List.append_assoc]
  rw [drive_head h hc]
  exact drive_desel (h.addressed o a) rfl

/-- The state after a read frame: its head, the dummy byte, `n` filler bytes whose answers stand at `buf`, and the deselect
(41 R173). -/
def State.readFramed (s : State) (o : Byte) (a : WireAddr) (d : Byte) (buf n : Word) (ks : List Nat) : State :=
  { s with
    cs := false, dmaReqTx := true, dmaReqRx := true, txBuf := s.filler, txe := true, rxBuf := s.chipAhead (4 + n.toNat),
    rxne := false, chTx := ⟨false, buf, false, 0, false⟩, chRx := ⟨false, buf + n, true, 0, false⟩,
    trace := s.trace ++ [.sel, .xfer o (s.chipAhead 0), .xfer (a.extractLsb' 16 8) (s.chipAhead 1),
      .xfer (a.extractLsb' 8 8) (s.chipAhead 2), .xfer (a.extractLsb' 0 8) (s.chipAhead 3), .xfer d (s.chipAhead 4)] ++
      (List.range n.toNat).map (fun i => .xfer s.filler (s.chipAhead (5 + i))) ++ [.desel],
    mem := s.mem.writeAll buf.toNat ((List.range n.toNat).map fun i => s.chipAhead (5 + i)),
    chipScript := s.chipScript.drop (5 + n.toNat), drawn := s.drawn + (5 + n.toNat), schedule := ks }

/-- A read frame is its head, its dummy byte, its bulk receive and the deselect. -/
theorem readFramed_eq {s : State} {o d : Byte} {a : WireAddr} {buf n : Word} (hn : 1 ≤ n.toNat) (ks : List Nat) :
    ({ ((s.addressed o a).exchanged d .discard).bulkReceived buf n with schedule := ks } : State).deselected =
      s.readFramed o a d buf n ks := by
  have hc : ((s.addressed o a).exchanged d .discard).chipAhead = fun k => s.chipAhead (5 + k) := by
    funext k
    rw [State.chipAhead_exchanged, State.addressed_chipAhead, ← Nat.add_assoc, Nat.add_right_comm]
  have hlast : 5 + (n.toNat - 1) = 4 + n.toNat := by omega
  simp only [State.deselected, State.bulkReceived, hc, hlast]
  simp only [State.exchanged, State.keep_discard, State.addressed_chipAhead]
  simp [State.addressed, State.readFramed, Nat.add_assoc]

/-- The read frame under every schedule (41 R173, 42 R212). -/
theorem drive_read {s : State} {o d : Byte} {a : WireAddr} {buf n : Word} {q : List MicroOp} (h : s.Quiet) (hc : s.cs = false)
    (hf : s.BulkFits buf n) :
    ∃ ks, drive (s.setUq (readFrame o a d buf n ++ q)) = drive ((s.readFramed o a d buf n ks).setUq q) := by
  obtain ⟨hn, -, hfit⟩ := hf
  have h1 := h.addressed o a
  have h2 := h1.exchanged d .discard
  obtain ⟨ks, hk⟩ := drive_bulkRx (buf := buf) (q := .desel :: q) h2 (fun h0 => by simp [h0] at hn) hfit
  refine ⟨ks, ?_⟩
  simp only [readFrame, List.append_assoc]
  rw [drive_head h hc, ← readFramed_eq hn]
  exact (drive_tx8 h1).trans (hk.trans (drive_desel (h2.bulkReceived buf n ks) rfl))

theorem State.Quiet.readFramed {s : State} (h : s.Quiet) (o : Byte) (a : WireAddr) (d : Byte) (buf n : Word) (ks : List Nat) :
    (s.readFramed o a d buf n ks).Quiet :=
  ⟨h.running, h.powered, rfl, rfl, rfl, rfl⟩

/-- The state after a write frame: its head, the `n` bytes at `buf`, and the deselect (41 R174). -/
def State.writeFramed (s : State) (o : Byte) (a : WireAddr) (buf n : Word) (ks : List Nat) : State :=
  { s with
    cs := false, dmaReqTx := true, dmaReqRx := true, txBuf := s.mem.read (buf.toNat + (n.toNat - 1)), txe := true,
    rxBuf := s.chipAhead (3 + n.toNat), rxne := false, sink := s.chipAhead (3 + n.toNat),
    chTx := ⟨false, buf + n, true, 0, false⟩, chRx := ⟨false, buf, false, 0, false⟩,
    trace := s.trace ++ [.sel, .xfer o (s.chipAhead 0), .xfer (a.extractLsb' 16 8) (s.chipAhead 1),
      .xfer (a.extractLsb' 8 8) (s.chipAhead 2), .xfer (a.extractLsb' 0 8) (s.chipAhead 3)] ++
      (List.range n.toNat).map (fun i => .xfer (s.mem.read (buf.toNat + i)) (s.chipAhead (4 + i))) ++ [.desel],
    chipScript := s.chipScript.drop (4 + n.toNat), drawn := s.drawn + (4 + n.toNat), schedule := ks }

/-- A write frame is its head, its bulk transmit and the deselect. -/
theorem writeFramed_eq {s : State} {o : Byte} {a : WireAddr} {buf n : Word} (hn : 1 ≤ n.toNat) (ks : List Nat) :
    ({ (s.addressed o a).bulkTransmitted buf n with schedule := ks } : State).deselected = s.writeFramed o a buf n ks := by
  have hlast : 4 + (n.toNat - 1) = 3 + n.toNat := by omega
  simp only [State.deselected, State.bulkTransmitted, State.addressed_chipAhead, hlast]
  simp [State.addressed, State.writeFramed, Nat.add_assoc]

/-- The write frame under every schedule (41 R174, 42 R212). -/
theorem drive_write {s : State} {o : Byte} {a : WireAddr} {buf n : Word} {q : List MicroOp} (h : s.Quiet) (hc : s.cs = false)
    (hf : s.BulkFits buf n) :
    ∃ ks, drive (s.setUq (writeFrame o a buf n ++ q)) = drive ((s.writeFramed o a buf n ks).setUq q) := by
  obtain ⟨hn, -, hfit⟩ := hf
  have h1 := h.addressed o a
  obtain ⟨ks, hk⟩ := drive_bulkTx (buf := buf) (q := .desel :: q) h1 (fun h0 => by simp [h0] at hn) hfit
  refine ⟨ks, ?_⟩
  simp only [writeFrame, List.append_assoc]
  rw [drive_head h hc, ← writeFramed_eq hn]
  exact hk.trans (drive_desel (h1.bulkTransmitted buf n ks) rfl)

theorem State.Quiet.writeFramed {s : State} (h : s.Quiet) (o : Byte) (a : WireAddr) (buf n : Word) (ks : List Nat) :
    (s.writeFramed o a buf n ks).Quiet :=
  ⟨h.running, h.powered, rfl, rfl, rfl, rfl⟩

end Sys2Proof.Machine

namespace Sys2Proof.Proofs

open Sys2Proof Sys2Proof.Machine Sys2Proof.Claims

/-- Settles O34: the frame as one state update, and back at rest. -/
theorem identityFrame : Obligations.IdentityFrame := by
  intro o d s h
  calc exec (.fRdid o d) s
      = drive (s.startFrame.setUq (opsOf (.fRdid o d) s)) := exec_accepted h.idle (fun _ => h.initialised) trivial
    _ = drive ((s.startFrame.identified o _ _ _ _ _ _).setUq [.release]) := drive_rdid h.quietFrame h.deselected
    _ = .next (s.identified o _ _ _ _ _ _).released := drive_released (h.quietFrame.identified ..)
    _ = _ := by simp [State.released, State.identified, h.rest, List.range_succ]

/-- Settles O35: the frame's head, the deselect, and back at rest. -/
theorem eraseFrame : Obligations.EraseFrame := by
  intro o a s h
  calc exec (.fErase o a) s
      = drive (s.startFrame.setUq (opsOf (.fErase o a) s)) := exec_accepted h.idle (fun _ => h.initialised) trivial
    _ = drive ((s.startFrame.addressed o a).deselected.setUq [.release]) := drive_erase h.quietFrame h.deselected
    _ = .next (s.addressed o a).deselected.released := drive_released (h.quietFrame.addressed o a).deselected
    _ = _ := by simp [State.released, State.deselected, State.addressed, headEvents, h.rest]

/-- Settles O36: the frame as one state update, and back at rest. -/
theorem statusFrame : Obligations.StatusFrame := by
  intro o d s h
  calc exec (.fStatus o d) s
      = drive (s.startFrame.setUq (opsOf (.fStatus o d) s)) := exec_accepted h.idle (fun _ => h.initialised) trivial
    _ = drive ((s.startFrame.statusRead o d).setUq [.release]) := drive_status h.quietFrame h.deselected
    _ = .next (s.statusRead o d).released := drive_released (h.quietFrame.statusRead o d)
    _ = _ := by simp [State.released, State.statusRead, statusFrameEvents, h.rest]

/-- Settles O37: the frame as one state update under every schedule; the answers stand in memory from `cmd.buf` on. -/
theorem readFrame : Obligations.ReadFrame := by
  intro o a d s h hwf hf
  obtain ⟨ks, hk⟩ := drive_read (o := o) (d := d) (a := a) (q := [.release]) h.quietFrame h.deselected hf
  refine ⟨(s.readFramed o a d s.cmd.buf s.cmd.size ks).mem, ks, ?_, ?_, ?_⟩
  · calc exec (.fRead o a d) s
        = drive (s.startFrame.setUq (opsOf (.fRead o a d) s)) := exec_accepted h.idle (fun _ => h.initialised) hf
      _ = drive ((s.startFrame.readFramed o a d s.cmd.buf s.cmd.size ks).setUq [.release]) := hk
      _ = .next (s.readFramed o a d s.cmd.buf s.cmd.size ks).released := drive_released (h.quietFrame.readFramed ..)
      _ = _ := by simp [State.released, State.readFramed, headEvents, h.rest]
  · intro i hi
    refine (Memory.read_writeAll_inside hwf ?_ ?_).trans ?_
    · simpa [Config.hostSpace] using hf.2.2
    · simpa using hi
    · simp
  · intro j hj
    exact Memory.read_writeAll_outside (by simpa using hj)

/-- Settles O38: the frame as one state update under every schedule. -/
theorem writeFrame : Obligations.WriteFrame := by
  intro o a s h hf
  obtain ⟨ks, hk⟩ := drive_write (o := o) (a := a) (q := [.release]) h.quietFrame h.deselected hf
  refine ⟨ks, ?_⟩
  calc exec (.fWrite o a) s
      = drive (s.startFrame.setUq (opsOf (.fWrite o a) s)) := exec_accepted h.idle (fun _ => h.initialised) hf
    _ = drive ((s.startFrame.writeFramed o a s.cmd.buf s.cmd.size ks).setUq [.release]) := hk
    _ = .next (s.writeFramed o a s.cmd.buf s.cmd.size ks).released := drive_released (h.quietFrame.writeFramed ..)
    _ = _ := by simp [State.released, State.writeFramed, headEvents, h.rest]

end Sys2Proof.Proofs

namespace Sys2Proof.Machine

/-! ### READ_STATUS and WAIT_READY from a Ready block -/

/-- The block back at rest after a command that answers `r` in `rsp_status` (10_state R57). -/
def State.answered (s : State) (r : FlashStatus) : State := ({ s with rspStatus := r } : State).finish

/-- READ_STATUS is one status frame and its decode (41 R178). -/
theorem exec_readStatus {x : Operands} {s : State} {r : FlashStatus} (h : s.Ready)
    (hd : decodeStatus s.cfg (s.chipAhead 1) = some r) :
    exec (.readStatus x) s = .next (((s.accept (descriptorOf 0x7#4 x)).statusReads 1).answered r) := by
  have hq := h.quietAccept (descriptorOf 0x7#4 x)
  calc exec (.readStatus x) s
      = drive ((s.accept (descriptorOf 0x7#4 x)).setUq (readStatusOps _)) :=
        exec_accepted h.idle (fun _ => h.initialised) trivial
    _ = drive (((s.accept (descriptorOf 0x7#4 x)).statusReads 1).setUq [.respond .decoded]) :=
        drive_statusFrame hq h.deselected
    _ = respond .decoded (((s.accept (descriptorOf 0x7#4 x)).statusReads 1).setUq [.respond .decoded]) :=
        drive_reply (hq.statusReads 1)
    _ = _ := by
        have hd' : decodeStatus (((s.accept (descriptorOf 0x7#4 x)).statusReads 1).setUq [.respond .decoded]).cfg
            (((s.accept (descriptorOf 0x7#4 x)).statusReads 1).setUq [.respond .decoded]).statusLatch = some r := hd
        simp only [respond, hd']
        rfl

/-- WAIT_READY answers what `Poll()` came to (43 R232). -/
theorem exec_waitReady {x : Operands} {s : State} {n : Nat} {c : Word} {r : FlashStatus} (h : s.Ready)
    (hp : drive ((s.accept (descriptorOf 0x9#4 x)).setUq (.poll :: [.respond .polled])) =
      drive (((s.accept (descriptorOf 0x9#4 x)).pollEnded n c r).setUq [.respond .polled])) :
    exec (.waitReady x) s = .next (((s.accept (descriptorOf 0x9#4 x)).pollEnded n c r).answered r) :=
  calc exec (.waitReady x) s
      = drive ((s.accept (descriptorOf 0x9#4 x)).setUq (.poll :: [.respond .polled])) :=
        exec_accepted h.idle (fun _ => h.initialised) trivial
    _ = respond .polled (((s.accept (descriptorOf 0x9#4 x)).pollEnded n c r).setUq [.respond .polled]) :=
        hp.trans (drive_reply ((h.quietAccept _).pollEnded n c r))

/-! ### Two blocks with the same bus traffic behind them -/

/-- The two states agree on what a status read takes and on what it leaves on the bus. -/
structure SameTraffic (s t : State) : Prop where
  cfg : t.cfg = s.cfg
  params : t.params = s.params
  mem : t.mem = s.mem
  trace : t.trace = s.trace
  drawn : t.drawn = s.drawn
  chipScript : t.chipScript = s.chipScript

theorem SameTraffic.refl (s : State) : SameTraffic s s := ⟨rfl, rfl, rfl, rfl, rfl, rfl⟩

theorem SameTraffic.chipAhead {s t : State} (h : SameTraffic s t) : t.chipAhead = s.chipAhead :=
  funext (State.chipAhead_congr h.chipScript h.drawn)

/-- Status reads put the same events on both buses (41 R175). -/
theorem SameTraffic.statusReads {s t : State} (h : SameTraffic s t) (n : Nat) :
    SameTraffic (s.statusReads n) (t.statusReads n) := by
  cases n with
  | zero => exact h
  | succ n =>
    exact
      { cfg := h.cfg, params := h.params, mem := h.mem
        trace := by simp only [State.statusReads, statusEvents, h.trace, h.cfg, h.params, h.chipAhead]
        drawn := congrArg (· + (2 * n + 2)) h.drawn
        chipScript := congrArg (List.drop (2 * n + 2)) h.chipScript }

/-- Accepting a command leaves the bus alone (10_state R36). -/
theorem SameTraffic.accept {s t : State} (h : SameTraffic s t) (d : Descriptor) : SameTraffic s (t.accept d) :=
  ⟨h.cfg, h.params, h.mem, h.trace, h.drawn, h.chipScript⟩

/-- A response leaves the bus alone (10_state R57). -/
theorem SameTraffic.answered {s t : State} (h : SameTraffic s t) (r : FlashStatus) : SameTraffic s (t.answered r) :=
  ⟨h.cfg, h.params, h.mem, h.trace, h.drawn, h.chipScript⟩

/-! ### Host's loop of READ_STATUS (30_encoding R131) -/

/-- A Ready block that has the traffic of `k` status reads from `s`. -/
structure State.HasRead (s : State) (k : Nat) (t : State) : Prop where
  ready : t.Ready
  traffic : SameTraffic (s.statusReads k) t

/-- The poller that made as many status reads has the same trace, draws and memory (43 R230). -/
theorem State.HasRead.matches_poller {s u : State} {n : Nat} (h : s.HasRead n u) (d : Descriptor) (c : Word) (r : FlashStatus) :
    u.trace = (((s.accept d).pollEnded n c r).answered r).trace ∧
      u.drawn = (((s.accept d).pollEnded n c r).answered r).drawn ∧
      u.mem = (((s.accept d).pollEnded n c r).answered r).mem :=
  have hp := ((SameTraffic.refl s).accept d).statusReads n
  ⟨h.traffic.trace.trans hp.trace.symm, h.traffic.drawn.trans hp.drawn.symm, h.traffic.mem.trans hp.mem.symm⟩

/-- The next answer decoded is the next status read's. -/
theorem State.HasRead.decode {s t : State} {k : Nat} (h : s.HasRead k t) :
    decodeStatus t.cfg (t.chipAhead 1) = decodeStatus s.cfg (s.chipAhead (2 * k + 1)) := by
  rw [h.traffic.cfg, h.traffic.chipAhead, State.statusReads_chipAhead, State.statusReads_cfg]

/-- One READ_STATUS more (41 R178). -/
theorem State.HasRead.readStatus {s t : State} {k : Nat} {r : FlashStatus} (h : s.HasRead k t) (x : Operands)
    (hd : decodeStatus s.cfg (s.chipAhead (2 * k + 1)) = some r) :
    ∃ u, exec (.readStatus x) t = .next u ∧ s.HasRead (k + 1) u ∧ u.rspStatus = r := by
  refine ⟨_, exec_readStatus h.ready (h.decode.trans hd), ⟨?_, ?_⟩, rfl⟩
  · exact
      { idle := rfl, queue := rfl, empty := rfl, drained := rfl, txOff := h.ready.txOff, rxOff := h.ready.rxOff
        initialised := h.ready.initialised, powered := h.ready.powered, deselected := rfl }
  · rw [← statusReads_succ]
    exact ((h.traffic.accept _).statusReads 1).answered r

/-- While the reads decode `Busy` the loop goes on. -/
theorem readStatusUntilReady_busy {s : State} (x : Operands) (h : s.Ready) {k : Nat}
    (hb : ∀ i < k, decodeStatus s.cfg (s.chipAhead (2 * i + 1)) = some .busy) (n : Nat) :
    ∃ t, readStatusUntilReady x (k + n) s = readStatusUntilReady x n t ∧ s.HasRead k t ∧
      (k ≠ 0 → t.rspStatus = .busy) := by
  induction k generalizing n with
  | zero => exact ⟨s, by rw [Nat.zero_add], ⟨h, .refl s⟩, absurd rfl⟩
  | succ k ih =>
    obtain ⟨t, ht, hr, -⟩ := ih (fun i hi => hb i (by omega)) (n + 1)
    obtain ⟨u, hu, hr', hs⟩ := hr.readStatus x (hb k (by omega))
    refine ⟨u, ?_, hr', fun _ => hs⟩
    rw [Nat.add_assoc, Nat.add_comm 1 n, ht, readStatusUntilReady, hu]
    simp [hs]

/-- The loop stops at the first read that decodes `Ready`. -/
theorem readStatusUntilReady_ready {s : State} (x : Operands) (h : s.Ready) {k n : Nat} (hk : k < n)
    (hb : ∀ i < k, decodeStatus s.cfg (s.chipAhead (2 * i + 1)) = some .busy)
    (hr : decodeStatus s.cfg (s.chipAhead (2 * k + 1)) = some .ready) :
    ∃ u, readStatusUntilReady x n s = .next u ∧ s.HasRead (k + 1) u ∧ u.rspStatus = .ready := by
  obtain ⟨m, rfl⟩ := Nat.exists_eq_add_of_lt hk
  obtain ⟨t, ht, ht', -⟩ := readStatusUntilReady_busy x h hb (m + 1)
  obtain ⟨u, hu, hu', hs⟩ := ht'.readStatus x hr
  refine ⟨u, ?_, hu', hs⟩
  rw [Nat.add_assoc, ht, readStatusUntilReady, hu]
  simp [hs]

/-- Legal busy fields decode every byte (41 R177). -/
theorem decodeStatus_ne_none {cfg : ChipConfig} (h : cfg.busyFieldsOk = true) (st : Byte) : decodeStatus cfg st ≠ none := by
  simp only [ChipConfig.busyFieldsOk, Bool.and_eq_true, decide_eq_true_eq] at h
  simp [decodeStatus, h]

end Sys2Proof.Machine

namespace Sys2Proof.Proofs

open Sys2Proof Sys2Proof.Machine Sys2Proof.Claims

/-- Settles O54: both stop at the first read that decodes `Ready`, or after the whole budget, and leave the traffic of as many status
reads. -/
theorem hostLoopMatchesThePoller : Obligations.HostLoopMatchesThePoller := by
  intro x y s h hlegal
  have hq := h.quietAccept (descriptorOf 0x9#4 y)
  obtain ⟨h0, hn⟩ | ⟨k, hk, hb, hr⟩ | hb := poll_cases s
  · exact absurd (hn 0) (decodeStatus_ne_none (hlegal.resolve_left h0) 0)
  · obtain ⟨u, hu, hread, hs⟩ := readStatusUntilReady_ready x h hk hb hr
    obtain ⟨htrace, hdrawn, hmem⟩ := hread.matches_poller (descriptorOf 0x9#4 y) (s.params.pollBudget - BitVec.ofNat 32 k) .ready
    exact ⟨u, _, hu, exec_waitReady h (drive_poll_ready hq h.deselected hk hb hr), htrace, hdrawn, hmem,
      fun _ => iff_of_true hs rfl⟩
  · obtain ⟨u, hu, hread, hs⟩ := readStatusUntilReady_busy x h hb 0
    obtain ⟨htrace, hdrawn, hmem⟩ := hread.matches_poller (descriptorOf 0x9#4 y) 0 .timeout
    refine ⟨u, _, hu, exec_waitReady h (drive_poll_timeout hq h.deselected hb), htrace, hdrawn, hmem, fun h0 => ?_⟩
    rw [hs (mt toNat_eq_zero.2 h0)]
    exact iff_of_false nofun nofun

end Sys2Proof.Proofs

/-! PROOFS. The family 40_hal_interface: what the commands that touch no bus answer and leave unchanged, and where a command has no
meaning. -/

namespace Sys2Proof.Machine

/-! ### Commands that answer at once -/

/-- A response does not read the queue it empties (10_state R57). -/
theorem respond_setUq (r : Reply) (s : State) (q : List MicroOp) : respond r (s.setUq q) = respond r s := by
  cases r <;> rfl

/-- A command begun at rest with nothing to do but respond comes to its response (30_encoding R113). -/
theorem State.Begun.launch_reply {a : State} (h : a.Begun) (r : Reply) : launch [.respond r] a = respond r a :=
  (h.drive_reply r).trans (respond_setUq r a _)

/-- An instruction at rest that loads nothing but its response comes to that response. -/
theorem exec_reply {i : Instr} {s : State} {r : Reply} (h : s.AtRest) (hi : needsInit i = true → s.initDone = true)
    (hf : operandsFit i s) (ho : opsOf i (beginState i s) = [.respond r]) : exec i s = respond r (beginState i s) :=
  calc exec i s
      = launch (opsOf i (beginState i s)) (beginState i s) := exec_accepted h.idle hi hf
    _ = launch [.respond r] (beginState i s) := by rw [ho]
    _ = respond r (beginState i s) := (beginState_begun i h).launch_reply r

/-- A command that only answers `InvalidCommand` changes nothing but `cmd` and the response (40 R147, R149). -/
theorem respond_invalid_accept {s : State} (h : s.AtRest) (op : BitVec 4) (x : Operands) :
    respond (.status .invalidCommand) (s.accept (descriptorOf op x)) = .next { s with
      cmd := ⟨op, x.page, x.offset, x.size, x.buf⟩, rspStatus := .invalidCommand, rspValid := true } := by
  rw [h.idle, h.queue]
  rfl

/-- A command that only answers `false` changes nothing but `cmd` and the response (40 R144, R148). -/
theorem respond_false_accept {s : State} (h : s.AtRest) (op : BitVec 4) (x : Operands) :
    respond (.flag false) (s.accept (descriptorOf op x)) = .next { s with
      cmd := ⟨op, x.page, x.offset, x.size, x.buf⟩, rspFlag := false, rspValid := true } := by
  rw [h.idle, h.queue]
  rfl

/-- Every reserved code answers `InvalidCommand` (40 R149). -/
theorem reservedCommand_atRest {s : State} (h : s.AtRest) (op : BitVec 4) (x : Operands) :
    reservedCommand op x s = .next { s with
      cmd := ⟨op, x.page, x.offset, x.size, x.buf⟩, rspStatus := .invalidCommand, rspValid := true } :=
  have hb : (s.accept (descriptorOf op x)).Begun := ⟨rfl, h.empty, h.txOff, h.rxOff⟩
  calc reservedCommand op x s
      = launch [.respond (.status .invalidCommand)] (s.accept (descriptorOf op x)) := onAccept_idle h.idle
    _ = respond (.status .invalidCommand) (s.accept (descriptorOf op x)) := hb.launch_reply _
    _ = _ := respond_invalid_accept h op x

/-! ### The record of INIT (30_encoding R120, R121) -/

theorem configSizeOk_iff {size : Word} : configSizeOk size = true ↔ 13 ≤ size.toNat := decide_eq_true_iff

theorem rangeFits_iff {buf : Word} {n : Nat} : rangeFits buf n = true ↔ buf.toNat + n ≤ 2 ^ 32 := decide_eq_true_iff

/-- Bits put above a word weigh 2 to the power of its width. -/
theorem toNat_append_eq_add {m n : Nat} (x : BitVec m) (y : BitVec n) : (x ++ y).toNat = x.toNat * 2 ^ n + y.toNat := by
  rw [BitVec.toNat_append, ← Nat.shiftLeft_add_eq_or_of_lt y.isLt, Nat.shiftLeft_eq]

/-- Four bytes, least significant first, are the number they spell (20_memory R75 item 5). -/
theorem append_bytes (b0 b1 b2 b3 : Byte) :
    b3 ++ b2 ++ b1 ++ b0 = BitVec.ofNat 32 (b0.toNat + b1.toNat * 2 ^ 8 + b2.toNat * 2 ^ 16 + b3.toNat * 2 ^ 24) := by
  apply BitVec.eq_of_toNat_eq
  simp only [toNat_append_eq_add, BitVec.toNat_ofNat]
  omega

/-! ### Refusals -/

/-- An instruction that needs INIT is refused without it (40 R142; for the frames notes/assumptions/8). -/
theorem exec_uninitialised {i : Instr} {s : State} (hp : s.phase = .idle) (hn : s.initDone = false)
    (hi : needsInit i = true) : exec i s = .refused .notInitialised := by
  cases i with
  | init | reservedA | reservedB | reservedC | reservedD | reservedE | reservedF => cases hi
  | fWren | fRdid | fErase | fRead | fWrite | fStatus => exact (onFrame_idle hp).trans (whenInitialised_false hn)
  | _ => exact (onAccept_idle hp).trans (whenInitialised_false hn)

/-- INIT and the reserved codes are the instructions that do not need INIT (40 R142). -/
theorem needsInit_of_ne {i : Instr}
    (h : ∀ x, i ≠ .init x ∧ i ≠ .reservedA x ∧ i ≠ .reservedB x ∧ i ≠ .reservedC x ∧ i ≠ .reservedD x ∧ i ≠ .reservedE x ∧
      i ≠ .reservedF x) : needsInit i = true := by
  cases i with
  | init x | reservedA x | reservedB x | reservedC x | reservedD x | reservedE x | reservedF x => exact absurd (h x) (by simp)
  | _ => rfl

section Bulk
variable {s : State} {rule : State → Host.Outcome State Fault Refusal}

/-- A bulk command checks the operands it latched (40 R150). -/
theorem onAccept_not_bulkFits {op : BitVec 4} {x : Operands} (hp : s.phase = .idle) (hi : s.initDone = true)
    (h : ¬ s.BulkFits x.buf x.size) : onAccept op x s (whenInitialised (whenBulkOk rule)) = .refused .bulkOperands :=
  calc onAccept op x s (whenInitialised (whenBulkOk rule))
      = whenInitialised (whenBulkOk rule) (s.accept (descriptorOf op x)) := onAccept_idle hp
    _ = whenBulkOk rule (s.accept (descriptorOf op x)) := whenInitialised_true hi
    _ = .refused .bulkOperands := whenBulkOk_false h

/-- A bulk frame checks the operands latched before it (notes/assumptions/8). -/
theorem onFrame_not_bulkFits (hp : s.phase = .idle) (hi : s.initDone = true) (h : ¬ s.BulkFits s.cmd.buf s.cmd.size) :
    onFrame s (whenBulkOk rule) = .refused .bulkOperands :=
  calc onFrame s (whenBulkOk rule)
      = whenInitialised (fun t => whenBulkOk rule t.startFrame) s := onFrame_idle hp
    _ = whenBulkOk rule s.startFrame := whenInitialised_true hi
    _ = .refused .bulkOperands := whenBulkOk_false h

end Bulk

end Sys2Proof.Machine

namespace Sys2Proof.Proofs

open Sys2Proof Sys2Proof.Machine Sys2Proof.Claims

/-- Settles O21: the record is latched before the response, and its last four bytes spell `freq`. -/
theorem initLatchesTheRecord : Obligations.InitLatchesTheRecord := by
  intro x s h hsize hfit
  have hc : configSizeOk x.size = true := configSizeOk_iff.2 hsize
  calc exec (.init x) s
      = respond (.flag (configSizeOk x.size)) (beginState (.init x) s) :=
        exec_reply h nofun (fun _ => rangeFits_iff.2 hfit) rfl
    _ = respond (.flag true) (s.accept (descriptorOf 0x0#4 x)).latchConfig := by rw [beginState, if_pos hc, hc]
    _ = _ := by
        rw [h.idle, h.queue, ← append_bytes]
        rfl

/-- Settles O22: an undersized record is not latched, and the response is `false`. -/
theorem undersizedInitChangesNothing : Obligations.UndersizedInitChangesNothing := by
  intro x s h hsize
  have hc : ¬ configSizeOk x.size = true := fun hc => absurd (configSizeOk_iff.1 hc) (by omega)
  calc exec (.init x) s
      = respond (.flag (configSizeOk x.size)) (beginState (.init x) s) := exec_reply h nofun (absurd · hc) rfl
    _ = respond (.flag false) (s.accept (descriptorOf 0x0#4 x)) := by rw [beginState, if_neg hc, Bool.eq_false_iff.2 hc]
    _ = _ := respond_false_accept h 0 x

/-- Settles O23: the block is released before a response that names no result field. -/
theorem uninitReleasesTheBlock : Obligations.UninitReleasesTheBlock := by
  intro x s h hi
  calc exec (.uninit x) s
      = respond .void (s.accept (descriptorOf 0x1#4 x)).releaseBlock := exec_reply h (fun _ => hi) trivial rfl
    _ = _ := by
        rw [h.idle, h.queue]
        rfl

/-- Settles O24: the accepted command is its response, whatever its operands. -/
theorem spareReadAlwaysInvalid : Obligations.SpareReadAlwaysInvalid := by
  intro x s h hi
  exact (exec_reply (i := .readSpareData x) h (fun _ => hi) trivial rfl).trans (respond_invalid_accept h 5 x)

/-- Settles O25: the accepted command is its response, which reads no state. -/
theorem badBlockQueryAlwaysFalse : Obligations.BadBlockQueryAlwaysFalse := by
  intro x s h hi
  exact (exec_reply (i := .isBadBlockSupported x) h (fun _ => hi) trivial rfl).trans (respond_false_accept h 8 x)

/-- Settles O26: the six arms differ in the code they latch. -/
theorem reservedCodesAnswerInvalid : Obligations.ReservedCodesAnswerInvalid := by
  intro x s h
  exact ⟨reservedCommand_atRest h 0xA x, reservedCommand_atRest h 0xB x, reservedCommand_atRest h 0xC x,
    reservedCommand_atRest h 0xD x, reservedCommand_atRest h 0xE x, reservedCommand_atRest h 0xF x⟩

/-- Settles O39: every instruction but INIT and the reserved codes needs INIT. -/
theorem uninitialisedBlockRefuses : Obligations.UninitialisedBlockRefuses := by
  intro i s hp hn hi
  exact exec_uninitialised hp hn (needsInit_of_ne hi)

/-- Settles O41: the record is long enough and passes the top, so the second check of INIT refuses it. -/
theorem recordPastTheTopIsRefused : Obligations.RecordPastTheTopIsRefused := by
  intro x s hp hsize htop
  have hc : configSizeOk x.size = true := configSizeOk_iff.2 hsize
  have hr : ¬ rangeFits x.buf Config.cfgSize = true := fun hr => absurd (rangeFits_iff.1 hr) (Nat.not_le.2 htop)
  simp only [exec, execInit, onAccept_idle hp]
  rw [if_pos (by exact hc), if_neg (by exact hr)]

/-- Settles O42: the operand check stands before anything is loaded. -/
theorem bulkOperandsOutsideTheirRangeRefused : Obligations.BulkOperandsOutsideTheirRangeRefused := by
  intro x s hp hi
  exact ⟨fun h => ⟨onAccept_not_bulkFits hp hi h, onAccept_not_bulkFits hp hi h⟩,
    fun h _ _ _ => ⟨onFrame_not_bulkFits hp hi h, onFrame_not_bulkFits hp hi h⟩⟩

end Sys2Proof.Proofs

/-! PROOFS. The family 41_nor_command_framing: every step keeps the machine's invariant, SEL and DESEL, the commands that emit frames,
the frame address and the status decode. -/

namespace Sys2Proof.Machine

/-! ### Where the bus stands -/

/-- After the trace of `s` the bus stands at `p`, and chip-select says so (41 R163). -/
structure State.StandsAt (s : State) (p : BusPos) : Prop where
  scan : busScan .between s.trace = some p
  cs : s.cs = p.selected

/-- A scan goes on where it stands (41 R163). -/
theorem busScan_concat {p p' p'' : BusPos} {es : List BusEvent} {e : BusEvent} (h : busScan p es = some p')
    (he : p'.after e = some p'') : busScan p (es ++ [e]) = some p'' := by
  induction es generalizing p with
  | nil =>
    cases h
    simp only [List.nil_append, busScan, he]
  | cons a es ih =>
    simp only [List.cons_append, busScan] at h ⊢
    cases ha : p.after a with
    | none => simp only [ha] at h; cases h
    | some q => simp only [ha] at h ⊢; exact ih h

/-- One more event, and chip-select as it has to be after it. -/
theorem State.StandsAt.event {s t : State} {p p' : BusPos} {e : BusEvent} (h : s.StandsAt p) (he : p.after e = some p')
    (ht : t.trace = s.trace ++ [e]) (hc : t.cs = p'.selected) : t.StandsAt p' :=
  ⟨ht ▸ busScan_concat h.scan he, hc⟩

/-- An exchange while selected: the bus is talking (41 R163). -/
theorem State.StandsAt.shift {s : State} {p : BusPos} (h : s.StandsAt p) (hp : p.selected = true) :
    s.shift.StandsAt .talking := by
  refine h.event (e := .xfer s.txBuf (s.chipAhead 0)) ?_ rfl (h.cs.trans hp)
  cases p with
  | between => cases hp
  | opened | talking => rfl

/-! ### The framing of a queue, by its head -/

section Framed
variable {p : BusPos} {q : List MicroOp}

theorem opsFramed_sel : opsFramed p (.sel :: q) = true ↔ p = .between ∧ opsFramed .opened q = true := by
  cases p <;> simp [opsFramed]

theorem opsFramed_desel : opsFramed p (.desel :: q) = true ↔ p = .talking ∧ opsFramed .between q = true := by
  cases p <;> simp [opsFramed]

theorem opsFramed_tx8 {b : Byte} : opsFramed p (.tx8 b :: q) = true ↔ p.selected = true ∧ opsFramed .talking q = true := by
  cases p <;> simp [opsFramed, BusPos.selected]

theorem opsFramed_rx8 {b : Byte} {dst : Keep} :
    opsFramed p (.rx8 b dst :: q) = true ↔ p.selected = true ∧ opsFramed .talking q = true := by
  cases p <;> simp [opsFramed, BusPos.selected]

theorem opsFramed_bulkTx {buf n : Word} :
    opsFramed p (.bulkTx buf n :: q) = true ↔ p = .talking ∧ n ≠ 0 ∧ opsFramed .talking q = true := by
  cases p <;> simp [opsFramed]

theorem opsFramed_bulkRx {buf n : Word} :
    opsFramed p (.bulkRx buf n :: q) = true ↔ p = .talking ∧ n ≠ 0 ∧ opsFramed .talking q = true := by
  cases p <;> simp [opsFramed]

theorem opsFramed_poll : opsFramed p (.poll :: q) = true ↔ p = .between ∧ opsFramed .between q = true := by
  cases p <;> simp [opsFramed]

theorem opsFramed_pollTest : opsFramed p (.pollTest :: q) = true ↔ p = .between ∧ opsFramed .between q = true := by
  cases p <;> simp [opsFramed]

theorem opsFramed_pollDecide : opsFramed p (.pollDecide :: q) = true ↔ p = .between ∧ opsFramed .between q = true := by
  cases p <;> simp [opsFramed]

theorem opsFramed_respond {r : Reply} : opsFramed p (.respond r :: q) = true ↔ p = .between ∧ q = [] := by
  cases p <;> cases q <;> simp [opsFramed]

theorem opsFramed_release : opsFramed p (.release :: q) = true ↔ p = .between ∧ q = [] := by
  cases p <;> cases q <;> simp [opsFramed]

/-- A whole frame is neutral: it starts and ends between frames (41 R163). -/
theorem opsFramed_wrenFrame (o : Byte) : opsFramed .between (wrenFrame o ++ q) = opsFramed .between q := by
  unfold wrenFrame
  split <;> rfl

theorem opsFramed_rdidFrame (o d0 d1 d2 d3 d4 d5 : Byte) :
    opsFramed .between (rdidFrame o d0 d1 d2 d3 d4 d5 ++ q) = opsFramed .between q := rfl

theorem opsFramed_eraseFrame (o : Byte) (a : WireAddr) :
    opsFramed .between (eraseFrame o a ++ q) = opsFramed .between q := rfl

theorem opsFramed_readFrame (o : Byte) (a : WireAddr) (d : Byte) {buf n : Word} (hn : n ≠ 0) :
    opsFramed .between (readFrame o a d buf n ++ q) = opsFramed .between q := by
  show (decide (n ≠ 0) && opsFramed .between q) = _
  rw [decide_eq_true hn, Bool.true_and]

theorem opsFramed_writeFrame (o : Byte) (a : WireAddr) {buf n : Word} (hn : n ≠ 0) :
    opsFramed .between (writeFrame o a buf n ++ q) = opsFramed .between q := by
  show (decide (n ≠ 0) && opsFramed .between q) = _
  rw [decide_eq_true hn, Bool.true_and]

theorem opsFramed_statusFrame (o d : Byte) : opsFramed .between (statusFrame o d ++ q) = opsFramed .between q := rfl

end Framed

/-! ### The four kinds of state in flight -/

/-- `Seq` stands between two micro-operations: nothing is pending, and the queue keeps the framing from `p` (42 R211). -/
structure State.Whole (s : State) (p : BusPos) : Prop where
  powered : s.poweredOk = true
  quiet : s.busQuiet = true
  clear : s.flagsClear = true
  framed : opsFramed p s.uq = true

/-- A command in flight, the bus standing at `p`, by what is in progress. -/
inductive State.Flight (s : State) (p : BusPos) : Prop
  /-- Nothing. -/
  | whole (h : s.Whole p)
  /-- An exchange whose byte is not driven yet (42 R200). -/
  | driving {b : Byte} {dst : Keep} {q : List MicroOp} (head : s.uq = .xchgDrive b dst :: q) (powered : s.spiEn = true)
    (selected : p.selected = true) (quiet : s.busQuiet = true) (clear : s.flagsClear = true)
    (framed : opsFramed .talking q = true)
  /-- An exchange whose byte is driven: not shifted yet, or shifted and not taken (42 R200, R203). -/
  | taking {dst : Keep} {q : List MicroOp} (head : s.uq = .xchgTake dst :: q) (powered : s.spiEn = true)
    (selected : p.selected = true) (txOff : s.chTx.en = false) (rxOff : s.chRx.en = false) (clear : s.flagsClear = true)
    (framed : opsFramed .talking q = true)
    (flags : s.txe = false ∧ s.rxne = false ∨ s.txe = true ∧ s.rxne = true ∧ p = .talking)
  /-- A bulk transfer (42 R207, R212). -/
  | bulk {q : List MicroOp} (head : s.uq = .bulkWait :: q) (powered : s.spiEn = true) (talking : p = .talking)
    (counts : s.bulkOk = true) (framed : opsFramed .talking q = true)

/-- With a head that is no response left, the peripheral is on. -/
theorem poweredOk_of_head {s : State} {m : MicroOp} {q : List MicroOp} (hq : s.uq = m :: q) (hm : ∀ r, m ≠ .respond r) :
    s.poweredOk = true ↔ s.spiEn = true := by
  simp only [State.poweredOk, hq, Bool.or_eq_true, or_iff_left_iff_imp]
  split
  · rename_i h
    cases h
    exact absurd rfl (hm _)
  · nofun

/-- The peripheral on is enough, whatever the queue. -/
theorem poweredOk_of_spiEn {s : State} (h : s.spiEn = true) : s.poweredOk = true := by
  simp only [State.poweredOk, h, Bool.true_or]

/-- What is left of a micro-operation in progress is no whole queue. -/
theorem State.Whole.head {s : State} {p : BusPos} (h : s.Whole p) :
    (∀ b dst q, s.uq ≠ .xchgDrive b dst :: q) ∧ (∀ dst q, s.uq ≠ .xchgTake dst :: q) ∧ ∀ q, s.uq ≠ .bulkWait :: q := by
  have hf := h.framed
  refine ⟨fun b dst q hq => ?_, fun dst q hq => ?_, fun q hq => ?_⟩ <;> rw [hq] at hf <;> cases p <;> cases hf

/-- `State.flightOk` is one of the four kinds. -/
theorem flightOk_iff {s : State} {p : BusPos} : s.flightOk p = true ↔ s.Flight p := by
  constructor
  · intro h
    unfold State.flightOk at h
    obtain ⟨hp, h⟩ := Bool.and_eq_true_iff.1 h
    split at h
    case h_1 b dst q hq =>
      simp only [Bool.and_eq_true] at h
      obtain ⟨⟨⟨hs, hb⟩, hc⟩, hf⟩ := h
      exact .driving hq ((poweredOk_of_head hq nofun).1 hp) hs hb hc hf
    case h_2 dst q hq =>
      simp only [Bool.and_eq_true, Bool.or_eq_true, Bool.not_eq_true', decide_eq_true_eq, and_assoc] at h
      obtain ⟨ht, hr, hc, hs, hf, hx⟩ := h
      exact .taking hq ((poweredOk_of_head hq nofun).1 hp) hs ht hr hc hf hx
    case h_3 q hq =>
      simp only [Bool.and_eq_true, decide_eq_true_eq] at h
      obtain ⟨⟨ht, hb⟩, hf⟩ := h
      exact .bulk hq ((poweredOk_of_head hq nofun).1 hp) ht hb hf
    case h_4 =>
      simp only [Bool.and_eq_true] at h
      obtain ⟨⟨hb, hc⟩, hf⟩ := h
      exact .whole ⟨hp, hb, hc, hf⟩
  · rintro (h | ⟨hq, hp, hs, hb, hc, hf⟩ | ⟨hq, hp, hs, ht, hr, hc, hf, hx⟩ | ⟨hq, hp, ht, hb, hf⟩)
    · obtain ⟨hd, ht, hw⟩ := h.head
      unfold State.flightOk
      split
      · exact absurd ‹_› (hd _ _ _)
      · exact absurd ‹_› (ht _ _)
      · exact absurd ‹_› (hw _)
      · simp only [h.powered, h.quiet, h.clear, h.framed, Bool.and_true]
    · simp only [State.flightOk, poweredOk_of_spiEn hp, hq, hs, hb, hc, hf, Bool.and_true]
    · simp only [State.flightOk, poweredOk_of_spiEn hp, hq, hs, ht, hr, hc, hf, Bool.and_true, Bool.not_false, Bool.true_and]
      simpa [and_assoc] using hx
    · simp only [State.flightOk, poweredOk_of_spiEn hp, hq, ht, hb, hf, decide_true, Bool.and_true]

/-! ### What the invariant says of the block's control -/

/-- The control part of the invariant: idle with the bus between frames and nothing pending (70 R313), or in flight. -/
inductive State.Controlled (s : State) : Prop
  | idle (phase : s.phase = .idle) (stands : s.StandsAt .between) (queue : s.uq = []) (quiet : s.busQuiet = true)
    (clear : s.flagsClear = true)
  | run {p : BusPos} (phase : s.phase = .run) (stands : s.StandsAt p) (flight : s.Flight p)

theorem busQuiet_iff {s : State} :
    s.busQuiet = true ↔ s.txe = true ∧ s.rxne = false ∧ s.chTx.en = false ∧ s.chRx.en = false := by
  simp only [State.busQuiet, Bool.and_eq_true, Bool.not_eq_true', and_assoc]

theorem flagsClear_iff {s : State} : s.flagsClear = true ↔ s.chTx.tc = false ∧ s.chRx.tc = false := by
  simp only [State.flagsClear, Bool.and_eq_true, Bool.not_eq_true']

/-- The control part of a state with the invariant. -/
theorem State.Inv.controlled {s : State} (h : s.Inv) : s.Controlled := by
  obtain ⟨p, hscan, hcs, hc⟩ := h.control
  cases hp : s.phase with
  | idle =>
    simp only [hp, State.idleOk, Bool.and_eq_true, decide_eq_true_eq] at hc
    obtain ⟨⟨⟨hq, rfl⟩, hb⟩, hf⟩ := hc
    exact .idle hp ⟨hscan, hcs⟩ hq hb hf
  | run =>
    simp only [hp] at hc
    exact .run hp ⟨hscan, hcs⟩ (flightOk_iff.1 hc)

/-- `ch_tx.en = ch_rx.en` wherever the control is as it should be (10_state R46). -/
theorem State.Controlled.channels {s : State} (h : s.Controlled) : s.chTx.en = s.chRx.en := by
  have off : s.busQuiet = true → s.chTx.en = s.chRx.en := fun hb => by
    obtain ⟨-, -, ht, hr⟩ := busQuiet_iff.1 hb
    rw [ht, hr]
  cases h with
  | idle _ _ _ hb _ => exact off hb
  | run _ _ hf =>
    cases hf with
    | whole hw => exact off hw.quiet
    | driving _ _ _ hb _ _ => exact off hb
    | taking _ _ _ ht hr _ _ _ => rw [ht, hr]
    | bulk _ _ _ hb _ =>
      obtain ⟨ht, hr, -⟩ := bulkOk_iff.1 hb
      rw [ht, hr]

/-- The invariant from its control part and what no step touches. -/
theorem State.Controlled.inv {s : State} (h : s.Controlled) (hm : s.mem.wf = true) (hf : s.filler = s.params.fillerByte)
    (hx : 1 ≤ s.params.xferMax) (hp : s.initDone = s.spiEn) : s.Inv :=
  { memory := hm, filler := hf, xferMax := hx, power := hp, channels := h.channels
    control := by
      cases h with
      | idle hi hb hq hbus hc => exact ⟨.between, hb.scan, hb.cs, by simp [hi, State.idleOk, hq, hbus, hc]⟩
      | @run p hi hb hfl => exact ⟨p, hb.scan, hb.cs, by simp only [hi]; exact flightOk_iff.2 hfl⟩ }

/-! ### The steps of `Seq` -/

/-- The head of a whole queue is done: the rest is whole from where the bus stands then. -/
theorem State.Whole.next {s t : State} {p p' : BusPos} {m : MicroOp} {q : List MicroOp} (h : s.Whole p) (hq : s.uq = m :: q)
    (hm : ∀ r, m ≠ .respond r) (hf : opsFramed p' t.uq = true) (he : t.spiEn = s.spiEn := by rfl)
    (hb : t.busQuiet = s.busQuiet := by rfl) (hc : t.flagsClear = s.flagsClear := by rfl) : t.Whole p' :=
  ⟨poweredOk_of_spiEn (he.trans ((poweredOk_of_head hq hm).1 h.powered)), hb.trans h.quiet, hc.trans h.clear, hf⟩

/-- A whole queue whose head ends the command leaves the block idle between frames (10_state R57). -/
theorem State.Whole.ended {s t : State} (h : s.Whole .between) (hb : s.StandsAt .between) (hp : t.phase = .idle)
    (hq : t.uq = []) (htr : t.trace = s.trace := by rfl) (hcs : t.cs = s.cs := by rfl)
    (hbus : t.busQuiet = s.busQuiet := by rfl) (hc : t.flagsClear = s.flagsClear := by rfl) : t.Controlled :=
  .idle hp ⟨htr ▸ hb.scan, hcs.trans hb.cs⟩ hq (hbus.trans h.quiet) (hc.trans h.clear)

/-- The armed channels of a bulk transfer that moves at least one byte (42 R207). -/
theorem State.Whole.armed {s : State} {p : BusPos} {q : List MicroOp} {buf n : Word} (h : s.Whole p) (hp : s.phase = .run)
    (hn : n ≠ 0) (hpow : s.spiEn = true) (tx : Bool) (hf : opsFramed .talking q = true) :
    ((s.armBulk tx buf n).setUq (.bulkWait :: q)).Flight .talking := by
  obtain ⟨he, hd, ht, hr⟩ := busQuiet_iff.1 h.quiet
  exact .bulk rfl hpow rfl (bulkOk_armed ⟨hp, hpow, he, hd, ht, hr⟩ hn tx buf) hf

/-- A step of `Seq` at the head of a whole queue: the framing of the queue says where the bus stands after it. -/
theorem seqStep_controlled_of_whole {s t : State} {p : BusPos} (hp : s.phase = .run) (hb : s.StandsAt p) (hw : s.Whole p)
    (h : seqStep s = .next t) : t.Controlled := by
  obtain ⟨hnd, hnt, hnw⟩ := hw.head
  have hf := hw.framed
  have on : ∀ {m q}, s.uq = m :: q → (∀ r, m ≠ .respond r) → s.spiEn = true := fun hq hm =>
    (poweredOk_of_head hq hm).1 hw.powered
  unfold seqStep at h
  split at h
  case h_1 => cases h
  case h_2 q hq =>
    obtain ⟨rfl, hrest⟩ := opsFramed_sel.1 (hq ▸ hf)
    split at h <;> cases h
    exact .run hp (hb.event (e := .sel) rfl rfl rfl) (.whole (hw.next hq nofun hrest))
  case h_3 q hq =>
    obtain ⟨rfl, hrest⟩ := opsFramed_desel.1 (hq ▸ hf)
    split at h <;> cases h
    exact .run hp (hb.event (e := .desel) rfl rfl rfl) (.whole (hw.next hq nofun hrest))
  case h_4 b q hq =>
    obtain ⟨hs, hrest⟩ := opsFramed_tx8.1 (hq ▸ hf)
    cases h
    exact .run hp ⟨hb.scan, hb.cs⟩ (.driving rfl (on hq nofun) hs hw.quiet hw.clear hrest)
  case h_5 b dst q hq =>
    obtain ⟨hs, hrest⟩ := opsFramed_rx8.1 (hq ▸ hf)
    cases h
    exact .run hp ⟨hb.scan, hb.cs⟩ (.driving rfl (on hq nofun) hs hw.quiet hw.clear hrest)
  case h_6 b dst q hq => exact absurd hq (hnd _ _ _)
  case h_7 dst q hq => exact absurd hq (hnt _ _)
  case h_8 buf n q hq =>
    obtain ⟨rfl, hn, hrest⟩ := opsFramed_bulkTx.1 (hq ▸ hf)
    cases h
    exact .run hp ⟨hb.scan, hb.cs⟩ (hw.armed hp hn (on hq nofun) true hrest)
  case h_9 buf n q hq =>
    obtain ⟨rfl, hn, hrest⟩ := opsFramed_bulkRx.1 (hq ▸ hf)
    cases h
    exact .run hp ⟨hb.scan, hb.cs⟩ (hw.armed hp hn (on hq nofun) false hrest)
  case h_10 q hq => exact absurd hq (hnw _)
  case h_11 q hq =>
    obtain ⟨rfl, hrest⟩ := opsFramed_poll.1 (hq ▸ hf)
    cases h
    exact .run hp ⟨hb.scan, hb.cs⟩ (.whole (hw.next hq nofun (opsFramed_pollTest.2 ⟨rfl, hrest⟩)))
  case h_12 q hq =>
    obtain ⟨rfl, hrest⟩ := opsFramed_pollTest.1 (hq ▸ hf)
    split at h <;> cases h
    · exact .run hp ⟨hb.scan, hb.cs⟩ (.whole (hw.next hq nofun hrest))
    · refine .run hp ⟨hb.scan, hb.cs⟩ (.whole (hw.next hq nofun ?_))
      exact (opsFramed_statusFrame _ _).trans (opsFramed_pollDecide.2 ⟨rfl, hrest⟩)
  case h_13 q hq =>
    obtain ⟨rfl, hrest⟩ := opsFramed_pollDecide.1 (hq ▸ hf)
    split at h <;> cases h
    · exact .run hp ⟨hb.scan, hb.cs⟩ (.whole (hw.next hq nofun hrest))
    · exact .run hp ⟨hb.scan, hb.cs⟩ (.whole (hw.next hq nofun (opsFramed_pollTest.2 ⟨rfl, hrest⟩)))
  case h_14 r q hq =>
    obtain ⟨rfl, -⟩ := opsFramed_respond.1 (hq ▸ hf)
    obtain ⟨st, b, rfl⟩ := respond_next h
    exact hw.ended hb rfl rfl
  case h_15 q hq =>
    obtain ⟨rfl, -⟩ := opsFramed_release.1 (hq ▸ hf)
    cases h
    exact hw.ended hb rfl rfl

/-- A step of `Seq` keeps the control, whatever is in progress. -/
theorem seqStep_controlled {s t : State} {p : BusPos} (hp : s.phase = .run) (hb : s.StandsAt p) (hf : s.Flight p)
    (hr : s.seqReady = true) (h : seqStep s = .next t) : t.Controlled := by
  cases hf with
  | whole hw => exact seqStep_controlled_of_whole hp hb hw h
  | driving hq hpow hs hquiet hc hf =>
    obtain ⟨-, hd, ht, hx⟩ := busQuiet_iff.1 hquiet
    simp only [seqStep, hq] at h
    cases h
    exact .run hp ⟨hb.scan, hb.cs⟩ (.taking rfl hpow hs ht hx hc hf (.inl ⟨rfl, hd⟩))
  | taking hq hpow hs ht hx hc hf hflags =>
    have hrx : s.rxne = true := by simpa [State.seqReady, hp, hq] using hr
    obtain ⟨-, h0⟩ | ⟨he, -, rfl⟩ := hflags
    · rw [hrx] at h0; cases h0
    simp only [seqStep, hq] at h
    cases h
    refine .run (by simp [hp]) ⟨by simp [hb.scan], by simp [hb.cs]⟩ (.whole ⟨?_, ?_, ?_, hf⟩)
    · exact poweredOk_of_spiEn (by simp [hpow])
    · exact busQuiet_iff.2 (by simp [he, ht, hx])
    · exact flagsClear_iff.2 (by simpa using flagsClear_iff.1 hc)
  | bulk hq hpow hp' hcnt hf =>
    have htc : s.chRx.tc = true := by simpa [State.seqReady, hp, hq] using hr
    obtain ⟨he, hd, -, -⟩ := bulkOk_complete hcnt htc
    subst hp'
    simp only [seqStep, hq] at h
    cases h
    exact .run hp ⟨hb.scan, hb.cs⟩ (.whole ⟨poweredOk_of_spiEn hpow, busQuiet_iff.2 ⟨he, hd, rfl, rfl⟩, rfl, hf⟩)

/-! ### The steps of the other agents -/

/-- `Shifter` finds a byte driven, by an exchange or by the transmit channel (42 R203). -/
theorem shift_flight {s : State} {p : BusPos} (hf : s.Flight p) (hr : s.shifterReady = true) :
    p.selected = true ∧ s.shift.Flight .talking := by
  have hr' := hr
  simp only [State.shifterReady, Bool.and_eq_true, Bool.not_eq_true'] at hr'
  obtain ⟨⟨-, he⟩, -⟩ := hr'
  have pending : s.busQuiet ≠ true := fun hb => by
    obtain ⟨hempty, -⟩ := busQuiet_iff.1 hb
    rw [he] at hempty
    cases hempty
  cases hf with
  | whole hw => exact absurd hw.quiet pending
  | driving _ _ _ hb _ _ => exact absurd hb pending
  | taking hq hpow hs ht hx hc hf _ => exact ⟨hs, .taking hq hpow rfl ht hx hc hf (.inr ⟨rfl, rfl, rfl⟩)⟩
  | bulk hq hpow hp hb hf => exact ⟨hp ▸ rfl, .bulk hq hpow rfl (bulkOk_shift hb hr) hf⟩

/-- A channel is on only in a bulk transfer (10_state R46, 42 R211). -/
theorem State.Flight.bulk_of_en {s : State} {p : BusPos} (hf : s.Flight p) (h : s.chTx.en = true ∨ s.chRx.en = true) :
    s.spiEn = true ∧ p = .talking ∧ s.bulkOk = true ∧ ∃ q, s.uq = .bulkWait :: q ∧ opsFramed .talking q = true := by
  have off : s.busQuiet ≠ true := fun hb => by
    obtain ⟨-, -, ht, hr⟩ := busQuiet_iff.1 hb
    simp [ht, hr] at h
  cases hf with
  | whole hw => exact absurd hw.quiet off
  | driving _ _ _ hb _ _ => exact absurd hb off
  | taking _ _ _ ht hr _ _ _ => simp [ht, hr] at h
  | bulk hq hpow hp hb hf => exact ⟨hpow, hp, hb, _, hq, hf⟩

/-- `DmaTx` stays inside its bulk transfer (42 R204, R212). -/
theorem dmaTxMove_flight {s : State} {p : BusPos} (hf : s.Flight p) (hr : s.dmaTxReady = true) : s.dmaTxMove.Flight p := by
  have hen : s.chTx.en = true := by
    simp only [State.dmaTxReady, Bool.and_eq_true] at hr
    exact hr.1.1.1
  obtain ⟨hpow, hp, hb, q, hq, hf⟩ := hf.bulk_of_en (.inl hen)
  exact .bulk hq hpow hp (bulkOk_dmaTxMove hb hr) hf

/-- `DmaRx` stays inside its bulk transfer (42 R205, R212). -/
theorem dmaRxMove_flight {s : State} {p : BusPos} (hf : s.Flight p) (hr : s.dmaRxReady = true) : s.dmaRxMove.Flight p := by
  have hen : s.chRx.en = true := by
    simp only [State.dmaRxReady, Bool.and_eq_true] at hr
    exact hr.1.1.1
  obtain ⟨hpow, hp, hb, q, hq, hf⟩ := hf.bulk_of_en (.inr hen)
  exact .bulk (by simp [hq]) (by simp [hpow]) hp (bulkOk_dmaRxMove hb hr) hf

/-- A step of any enabled agent keeps the control (60_exceptions R271). -/
theorem agentStep_controlled {a : Agent} {s t : State} {p : BusPos} (hp : s.phase = .run) (hb : s.StandsAt p)
    (hf : s.Flight p) (he : s.enabled a = true) (h : agentStep a s = .next t) : t.Controlled := by
  cases a with
  | seq => exact seqStep_controlled hp hb hf he h
  | shifter =>
    cases h
    obtain ⟨hs, hf'⟩ := shift_flight hf he
    exact .run hp (hb.shift hs) hf'
  | dmaTx => cases h; exact .run hp ⟨hb.scan, hb.cs⟩ (dmaTxMove_flight hf he)
  | dmaRx => cases h; exact .run (by simp [hp]) ⟨by simp [hb.scan], by simp [hb.cs]⟩ (dmaRxMove_flight hf he)

/-- Only `DmaRx` writes host memory, and a write keeps the canonical form (20_memory R71, 42 R205). -/
theorem agentStep_mem_wf {a : Agent} {s t : State} (hm : s.mem.wf = true) (h : agentStep a s = .next t) : t.mem.wf = true := by
  cases a with
  | seq => rw [(seqStep_moves_no_byte h).mem, hm]
  | shifter | dmaTx => cases h; exact hm
  | dmaRx =>
    cases h
    rw [State.dmaRxMove_mem]
    split
    · exact Memory.write_wf _ hm s.chRx.addr.isLt
    · exact hm

/-- An atomic step keeps the invariant. -/
theorem atomicStep_inv {s t : State} (hp : s.phase = .run) (hi : s.Inv) (h : atomicStep s = .next t) : t.Inv := by
  have hset := (atomicStep_ran hp h).settings
  obtain ⟨-, h'⟩ | ⟨a, ks, he, h'⟩ := atomicStep_cases s
  · rw [h'] at h; cases h
  rw [h'] at h
  have hpicked : ({ s with schedule := ks } : State).Inv := { hi with }
  have hc : t.Controlled := by
    obtain ⟨hidle, -⟩ | ⟨-, hb, hf⟩ := hpicked.controlled
    · exact nomatch hp.symm.trans hidle
    · exact agentStep_controlled (s := { s with schedule := ks }) hp hb hf he h
  refine hc.inv (agentStep_mem_wf hpicked.memory h) ?_ ?_ ?_
  · rw [hset.filler, hset.params, hi.filler]
  · rw [hset.params]
    exact hi.xferMax
  · rw [hset.initDone, hset.spiEn, hi.power]

/-! ### The start of an instruction -/

/-- Acceptance, INIT and UNINIT leave the flags of the bus and the channels, and chip-select where it is 0 (10_state R37). -/
theorem beginState_bus (i : Instr) (s : State) :
    (beginState i s).busQuiet = s.busQuiet ∧ (beginState i s).flagsClear = s.flagsClear ∧
      (s.cs = false → (beginState i s).cs = false) := by
  cases i with
  | init x =>
    simp only [beginState]
    split
    · exact ⟨rfl, rfl, fun _ => rfl⟩
    · exact ⟨rfl, rfl, id⟩
  | uninit x => exact ⟨rfl, rfl, fun _ => rfl⟩
  | _ => exact ⟨rfl, rfl, id⟩

/-- INIT and UNINIT switch `init_done` and `spi_en` together (40 R143, R146). -/
theorem beginState_keeps_power {i : Instr} {s : State} (h : s.initDone = s.spiEn) :
    (beginState i s).initDone = (beginState i s).spiEn := by
  cases i with
  | init x =>
    simp only [beginState]
    split
    · rfl
    · exact h
  | uninit x => rfl
  | _ => exact h

/-- The micro-operations of every instruction keep the framing (30_encoding R113, 41 R163). -/
theorem opsOf_framed {i : Instr} {s : State} (hf : operandsFit i s) :
    opsFramed .between (opsOf i (beginState i s)) = true := by
  have pos : ∀ {buf n : Word}, s.BulkFits buf n → n ≠ 0 := fun hb h0 => by simp [h0, State.BulkFits] at hb
  cases i with
  | readPage x => exact opsFramed_readFrame _ _ _ (pos hf)
  | fRead o a d => exact opsFramed_readFrame _ _ _ (pos hf)
  | fWrite o a => exact opsFramed_writeFrame _ _ (pos hf)
  | writePageAsync x =>
    simp only [opsOf, writePageOps, List.append_assoc]
    exact (opsFramed_wrenFrame _).trans (opsFramed_writeFrame _ _ (pos hf))
  | eraseBlock x =>
    simp only [opsOf, eraseBlockOps, List.append_assoc]
    exact (opsFramed_wrenFrame _).trans (opsFramed_eraseFrame _ _)
  | fWren o => exact opsFramed_wrenFrame o
  | readId x => exact opsFramed_rdidFrame ..
  | fRdid o d => exact opsFramed_rdidFrame ..
  | fErase o a => exact opsFramed_eraseFrame o a
  | readStatus x => exact opsFramed_statusFrame ..
  | fStatus o d => exact opsFramed_statusFrame o d
  | _ => rfl

/-- The peripheral is on where an instruction that needs INIT starts; any other, and UNINIT, only responds (40 R142). -/
theorem beginState_powered {i : Instr} {s : State} (h : needsInit i = true → s.spiEn = true) :
    ((beginState i s).setUq (opsOf i (beginState i s))).poweredOk = true := by
  cases i with
  | init | uninit | reservedA | reservedB | reservedC | reservedD | reservedE | reservedF =>
    simp only [State.poweredOk, State.setUq_uq, opsOf, Bool.or_true]
  | _ => exact poweredOk_of_spiEn (h rfl)

/-- An instruction that is accepted starts in a state with the invariant. -/
theorem beginState_inv {i : Instr} {s : State} (h : s.Inv) (hp : s.phase = .idle) (hi : needsInit i = true → s.initDone = true)
    (hf : operandsFit i s) : ((beginState i s).setUq (opsOf i (beginState i s))).Inv := by
  obtain ⟨hmem, -, -, htrace, -⟩ := beginState_moves_no_byte i s
  obtain ⟨hparams, hfiller, -⟩ := beginState_constants i s
  obtain ⟨hquiet, hclear, hcs⟩ := beginState_bus i s
  obtain ⟨-, hb, -, hq, hc⟩ | ⟨hrun, -⟩ := h.controlled
  · have hstart : ((beginState i s).setUq (opsOf i (beginState i s))).Controlled :=
      .run (beginState_phase i s) ⟨(congrArg (busScan .between) htrace).trans hb.scan, hcs hb.cs⟩
        (.whole ⟨beginState_powered fun hn => h.power ▸ hi hn, hquiet.trans hq, hclear.trans hc, opsOf_framed hf⟩)
    refine hstart.inv ?_ ?_ ?_ (beginState_keeps_power h.power)
    · exact (congrArg Memory.wf hmem).trans h.memory
    · exact hfiller.trans (h.filler.trans (congrArg Params.fillerByte hparams.symm))
    · exact hparams ▸ h.xferMax
  · exact nomatch hp.symm.trans hrun

/-- An instruction that completes keeps the invariant. -/
theorem exec_inv {i : Instr} {s t : State} (h : s.Inv) (he : exec i s = .next t) : t.Inv := by
  obtain ⟨hp, hi, hf, hd⟩ := exec_next he
  exact (drive_induction (P := State.Inv) (fun _ _ => atomicStep_inv) (beginState_inv h hp hi hf) hd).1

/-- A move of Host keeps the invariant (60_exceptions R274). -/
theorem hostStep_inv {s t : State} (h : s.Inv) (hs : hostStep s = .next t) : t.Inv := by
  unfold hostStep at hs
  split at hs
  case h_1 => cases hs; exact h
  case h_2 w rest _ =>
    unfold runWord at hs
    split at hs
    · exact exec_inv (s := { s with inbox := rest }) { h with } hs
    · cases hs
  case h_3 a b rest _ =>
    cases hs
    exact { h with memory := State.store_wf (s := { s with inbox := rest }) a b h.memory }

end Sys2Proof.Machine

namespace Sys2Proof.Proofs

open Sys2Proof Sys2Proof.Machine Sys2Proof.Claims

/-- Settles O9: an idle block's move of Host runs an instruction from a state with the invariant, and every atomic step keeps it. -/
theorem everyStepKeepsTheInvariant : Obligations.EveryStepKeepsTheInvariant := by
  intro s t h hs
  cases hp : s.phase with
  | idle => exact hostStep_inv h ((step_idle hp).symm.trans hs)
  | run =>
    simp only [step, hp] at hs
    exact atomicStep_inv hp h hs

end Sys2Proof.Proofs

namespace Sys2Proof.Machine

open Sys2Proof.Claims

/-! ### The status decode (41 R177) -/

theorem busyFieldsOk_iff {cfg : ChipConfig} :
    cfg.busyFieldsOk = true ↔ cfg.busyBit.toNat ≤ 7 ∧ cfg.busyState.toNat ≤ 1 := by
  simp only [ChipConfig.busyFieldsOk, Bool.and_eq_true, decide_eq_true_eq]

/-- Polarity 1 reads the bit as it stands, any other polarity its complement. -/
theorem readsBusy_eq (cfg : ChipConfig) (st : Byte) :
    readsBusy cfg st =
      if cfg.busyState = 1#8 then st.getLsbD cfg.busyBit.toNat else !st.getLsbD cfg.busyBit.toNat := by
  by_cases h : cfg.busyState = 1#8
  · simp [readsBusy, h, BitVec.getLsbD]
  · simp [readsBusy, h, beq_false_of_ne h, BitVec.getLsbD]

theorem decodeStatus_legal {cfg : ChipConfig} (h : cfg.busyFieldsOk = true) (st : Byte) :
    decodeStatus cfg st = some (if readsBusy cfg st then .busy else .ready) := by
  rw [decodeStatus, if_pos (busyFieldsOk_iff.1 h), readsBusy_eq]

theorem decodeStatus_illegal {cfg : ChipConfig} (h : cfg.busyFieldsOk = false) (st : Byte) : decodeStatus cfg st = none :=
  if_neg fun hl => nomatch h.symm.trans (busyFieldsOk_iff.2 hl)

/-! ### The address of a page (41 R165 to R167) -/

theorem wireAddress_toNat (la : Nat) : (wireAddress la).toNat = la % 2 ^ 24 := BitVec.toNat_ofNat la 24

/-- Modulo 2^24 a shift by more than 24 is a shift by 24: nothing is left (41 R165). -/
theorem pow_min_modEq (k : Nat) : 2 ^ min k 24 ≡ 2 ^ k [MOD 2 ^ 24] := by
  obtain hk | hk := Nat.le_total k 24
  · rw [Nat.min_eq_left hk]
  · rw [Nat.min_eq_right hk]
    exact (Nat.modEq_zero_iff_dvd.2 dvd_rfl).trans (Nat.modEq_zero_iff_dvd.2 (Nat.pow_dvd_pow 2 hk)).symm

/-- The bytes driven on the bus are those of the exact linear address: truncation takes none of bits 23:0 (41 R165, R167). -/
@[simp] theorem byteAt_pageAddress (s : State) (page : Word) {k : Nat} (hk : k ≤ 16) :
    byteAt (pageAddress s page) k = (frameAddress s.cfg page).extractLsb' k 8 := by
  apply BitVec.eq_of_getLsbD_eq
  intro j hj
  have h24 : k + j < 24 := by omega
  simp only [byteAt, pageAddress, frameAddress, wireAddress, linearAddress, BitVec.getLsbD_ofNat,
    BitVec.getLsbD_extractLsb', Nat.testBit_div_two_pow, BitVec.ofNat_eq_ofNat, BitVec.toNat_ofNat, Nat.zero_mod, Nat.add_zero]
  simp [hj, h24, Nat.add_comm j k]

/-! ### SEL and DESEL -/

/-- With `Seq` alone enabled a step is its step (60_exceptions R271). -/
theorem step_seq {s : State} (hp : s.phase = .run) (he : s.enabledAgents = [.seq]) : step s = seqStep s := by
  simp only [step, hp]
  exact atomicStep_single he

/-- With nothing pending and a head that holds for nothing, `Seq` alone is enabled (42 R211). -/
theorem enabledAgents_of_quiet {s : State} (hb : s.busQuiet = true) (hr : s.seqReady = true) : s.enabledAgents = [.seq] := by
  obtain ⟨he, -, ht, hx⟩ := busQuiet_iff.1 hb
  exact enabledAgents_seq hr (by simp [State.shifterReady, he]) (by simp [State.dmaTxReady, ht]) (by simp [State.dmaRxReady, hx])

end Sys2Proof.Machine

namespace Sys2Proof.Proofs

open Sys2Proof Sys2Proof.Machine Sys2Proof.Claims

/-- Settles O15: nothing is pending, so the one step is that of `Seq`, and each precondition is met. -/
theorem selectAndDeselectAreOneStep : Obligations.SelectAndDeselectAreOneStep := by
  intro s q hp he hd ht hx
  have hb : s.busQuiet = true := busQuiet_iff.2 ⟨he, hd, ht, hx⟩
  refine ⟨fun hq hc => ?_, fun hq hc => ?_⟩
  · rw [step_seq hp (enabledAgents_of_quiet hb (by simp [State.seqReady, hp, hq]))]
    simp [seqStep, hq, hc, State.emit]
  · rw [step_seq hp (enabledAgents_of_quiet hb (by simp [State.seqReady, hp, hq]))]
    simp [seqStep, hq, hc, hb, State.emit]

/-- Settles O16: the step is that of `Seq`, and it tests each precondition. -/
theorem selectAndDeselectOutsideTheirPrecondition : Obligations.SelectAndDeselectOutsideTheirPrecondition := by
  intro s q hp he
  rw [step_seq hp he]
  refine ⟨fun hq hc => by simp [seqStep, hq, hc], fun hq hn => ?_⟩
  have hpre : ¬ (s.cs && s.busQuiet) = true := by
    rw [Bool.and_eq_true, busQuiet_iff]
    rintro ⟨hc, h1, h2, h3, h4⟩
    simp [hc, h1, h2, h3, h4] at hn
  simp only [seqStep, hq, if_neg hpre]

/-- Settles O55: modulo 2^24 the product and the sum may be formed from truncated factors and terms. -/
theorem fixedWidthAddressIsTheSame : Obligations.FixedWidthAddressIsTheSame := by
  intro p s o
  rw [wireAddress_toNat]
  exact ((((Nat.mod_modEq p.toNat (2 ^ 24)).mul (pow_min_modEq s.toNat)).add (Nat.mod_modEq o.toNat (2 ^ 24))).symm :)

/-- Settles O57: the decode reads one bit against the polarity, and asks first that both fields be legal. -/
theorem statusDecodeTable : Obligations.StatusDecodeTable := by
  intro cfg st
  exact ⟨fun h => decodeStatus_legal h st, fun h => decodeStatus_illegal h st⟩

end Sys2Proof.Proofs

namespace Sys2Proof.Machine

open Sys2Proof.Claims

/-! ### The frames of a command -/

/-- The head of an addressed frame in the terms of the page it names (41 R160, R164 to R167). -/
theorem headEvents_page (s : State) (o : Byte) (page : Word) (k : Nat) :
    headEvents s o (pageAddress s page) k =
      [.sel, .xfer o (s.chipAhead k), .xfer ((frameAddress s.cfg page).extractLsb' 16 8) (s.chipAhead (k + 1)),
        .xfer ((frameAddress s.cfg page).extractLsb' 8 8) (s.chipAhead (k + 2)),
        .xfer ((frameAddress s.cfg page).extractLsb' 0 8) (s.chipAhead (k + 3))] := by
  simp [headEvents]

/-- After a read frame the answers of its data phase stand in the buffer, and memory outside it is as before (41 R173). -/
theorem readFramed_mem {s : State} {o d : Byte} {a : WireAddr} {buf n : Word} (hwf : s.mem.wf = true) (hf : s.BulkFits buf n)
    (ks : List Nat) :
    (∀ i < n.toNat, (s.readFramed o a d buf n ks).mem.read (buf.toNat + i) = s.chipAhead (5 + i)) ∧
      ∀ j, j < buf.toNat ∨ buf.toNat + n.toNat ≤ j → (s.readFramed o a d buf n ks).mem.read j = s.mem.read j := by
  obtain ⟨-, -, hfit⟩ := hf
  refine ⟨fun i hi => ?_, fun j hj => Memory.read_writeAll_outside (by simpa using hj)⟩
  refine (Memory.read_writeAll_inside hwf ?_ ?_).trans ?_
  · simpa [Config.hostSpace] using hfit
  · simpa using hi
  · simp

/-- An answer drawn after the write-enable frame (41 R170). -/
theorem writeEnabled_ahead (s : State) (w : Byte) (k : Nat) :
    (s.writeEnabled w).chipAhead k = s.chipAhead (wrenDraws w + k) :=
  s.writeEnabled_chipAhead w k

/-- A write frame after the write-enable frame: the same frame, its answers later (41 R170, R174). -/
theorem writeEnabled_writeFramed (s : State) (w o : Byte) (a : WireAddr) (buf n : Word) (ks : List Nat) :
    (s.writeEnabled w).writeFramed o a buf n ks =
      { s.writeFramed o a buf n ks with
        rxBuf := s.chipAhead (wrenDraws w + 3 + n.toNat), sink := s.chipAhead (wrenDraws w + 3 + n.toNat),
        trace := s.trace ++ wrenEvents s w ++ [.sel, .xfer o (s.chipAhead (wrenDraws w)),
          .xfer (a.extractLsb' 16 8) (s.chipAhead (wrenDraws w + 1)),
          .xfer (a.extractLsb' 8 8) (s.chipAhead (wrenDraws w + 2)),
          .xfer (a.extractLsb' 0 8) (s.chipAhead (wrenDraws w + 3))] ++
          (List.range n.toNat).map (fun i => .xfer (s.mem.read (buf.toNat + i)) (s.chipAhead (wrenDraws w + 4 + i))) ++
          [.desel],
        chipScript := s.chipScript.drop (wrenDraws w + 4 + n.toNat), drawn := s.drawn + (wrenDraws w + 4 + n.toNat) } := by
  simp only [State.writeFramed, writeEnabled_ahead, ← Nat.add_assoc, Nat.add_zero]
  by_cases hw : w = 0xFF#8
  · simp [State.writeEnabled, wrenEvents, wrenDraws, hw]
  · have hlate : 1 + 4 + n.toNat = 1 + (4 + n.toNat) := Nat.add_assoc ..
    simp only [State.writeEnabled, State.oneByteFrame, wrenEvents, wrenDraws, hw, if_false, hlate, List.drop_drop,
      List.append_assoc, Nat.add_assoc]

/-- The write-enable frame leaves the operand check as it was. -/
theorem State.BulkFits.writeEnabled {s : State} {buf n : Word} (h : s.BulkFits buf n) (w : Byte) :
    (s.writeEnabled w).BulkFits buf n := by
  unfold State.writeEnabled
  split <;> exact h

end Sys2Proof.Machine

namespace Sys2Proof.Proofs

open Sys2Proof Sys2Proof.Machine Sys2Proof.Claims

/-- Settles O33: the enable frame by itself, or nothing, and back at rest. -/
theorem writeEnableFrame : Obligations.WriteEnableFrame := by
  intro o s h
  have hrun : exec (.fWren o) s = .next (s.writeEnabled o).released :=
    calc exec (.fWren o) s
        = drive (s.startFrame.setUq (opsOf (.fWren o) s)) := exec_accepted h.idle (fun _ => h.initialised) trivial
      _ = drive ((s.startFrame.writeEnabled o).setUq [.release]) := drive_wren h.quietFrame h.deselected
      _ = .next (s.startFrame.writeEnabled o).released := drive_released (h.quietFrame.writeEnabled o)
      _ = _ := by
        unfold State.writeEnabled
        split <;> rfl
  refine ⟨fun ho => hrun.trans ?_, fun ho => hrun.trans ?_⟩
  · simp [State.writeEnabled, ho, State.released, State.oneByteFrame, h.rest]
  · rw [State.writeEnabled, if_pos ho, State.released, ← h.idle, ← h.queue]

/-- Settles O27: the identity frame as one state update, and a response that names no field. -/
theorem readIdCapturesSixBytes : Obligations.ReadIdCapturesSixBytes := by
  intro x s h
  have hq := h.quietAccept (descriptorOf 0x2#4 x)
  calc exec (.readId x) s
      = drive ((s.accept (descriptorOf 0x2#4 x)).setUq (readIdOps (s.accept (descriptorOf 0x2#4 x)))) :=
        exec_accepted h.idle (fun _ => h.initialised) trivial
    _ = drive (((s.accept (descriptorOf 0x2#4 x)).identified _ _ _ _ _ _ _).setUq [.respond .void]) :=
        drive_rdid hq h.deselected
    _ = respond .void _ := drive_reply (hq.identified ..)
    _ = _ := by simp [respond, State.finish, State.identified, descriptorOf, h.rest, List.range_succ]

/-- Settles O28: one status frame, and its byte decoded as R177 says. -/
theorem readStatusDecodesOneByte : Obligations.ReadStatusDecodesOneByte := by
  intro x s h hl
  rw [exec_readStatus h (decodeStatus_legal hl _)]
  simp [State.answered, State.finish, State.statusReads, descriptorOf, statusEvents, statusFrameEvents, h.rest]

/-- Settles O31: the read frame as one state update under every schedule; the answers stand in the buffer. -/
theorem readPageFillsTheBuffer : Obligations.ReadPageFillsTheBuffer := by
  intro x s h hwf hf
  have hq := h.quietAccept (descriptorOf 0x4#4 x)
  obtain ⟨ks, hk⟩ := drive_read (o := s.cfg.readCmd) (d := s.params.dummyByte) (a := frameAddress s.cfg x.page)
    (q := [.respond (.status .ready)]) hq h.deselected hf
  refine ⟨(s.readFramed s.cfg.readCmd (frameAddress s.cfg x.page) s.params.dummyByte x.buf x.size ks).mem, ks, ?_,
    readFramed_mem hwf hf ks⟩
  calc exec (.readPage x) s
      = drive ((s.accept (descriptorOf 0x4#4 x)).setUq (readPageOps (s.accept (descriptorOf 0x4#4 x)))) :=
        exec_accepted h.idle (fun _ => h.initialised) hf
    _ = drive (((s.accept (descriptorOf 0x4#4 x)).readFramed _ _ _ x.buf x.size ks).setUq _) := hk
    _ = respond (.status .ready) _ := drive_reply (hq.readFramed ..)
    _ = _ := by simp [respond, State.finish, State.readFramed, descriptorOf, headEvents_page, h.rest]

/-- Settles O32: the enable frame, then the write frame as one state update under every schedule. -/
theorem writePageSendsTheBuffer : Obligations.WritePageSendsTheBuffer := by
  intro x s h hf
  have hq := h.quietAccept (descriptorOf 0x6#4 x)
  have hwren := hq.writeEnabled s.cfg.writeEnCmd
  obtain ⟨ks, hk⟩ := drive_write (o := s.cfg.writeCmd) (a := frameAddress s.cfg x.page) (q := [.respond .void]) hwren
    (State.writeEnabled_cs (s := s.accept _) h.deselected _) (State.BulkFits.writeEnabled (s := s.accept _) hf _)
  refine ⟨ks, ?_⟩
  calc exec (.writePageAsync x) s
      = drive ((s.accept (descriptorOf 0x6#4 x)).setUq (wrenFrame s.cfg.writeEnCmd ++
          (Machine.writeFrame s.cfg.writeCmd (frameAddress s.cfg x.page) x.buf x.size ++ [.respond .void]))) := by
        rw [← List.append_assoc]
        exact exec_accepted h.idle (fun _ => h.initialised) hf
    _ = drive (((s.accept (descriptorOf 0x6#4 x)).writeEnabled s.cfg.writeEnCmd).setUq _) := drive_wren hq h.deselected
    _ = _ := hk
    _ = respond .void _ := drive_reply (hwren.writeFramed ..)
    _ = _ := by
      rw [writeEnabled_writeFramed]
      simp [respond, State.finish, State.writeFramed, descriptorOf, headEvents_page, wrenEvents, h.rest]

end Sys2Proof.Proofs

namespace Sys2Proof.Machine

open Sys2Proof.Claims

/-! ### ERASE_BLOCK (41 R172) -/

/-- The state after the enable frame and the erase frame of ERASE_BLOCK, `Poll()` next. -/
def State.erasing (s : State) (x : Operands) : State :=
  (((s.accept (descriptorOf 0x3#4 x)).writeEnabled s.cfg.writeEnCmd).addressed s.cfg.eraseCmd
    (frameAddress s.cfg x.page)).deselected

theorem State.Ready.erasing {s : State} (h : s.Ready) (x : Operands) : (s.erasing x).Quiet :=
  (((h.quietAccept _).writeEnabled _).addressed _ _).deselected

/-- ERASE_BLOCK is its two frames, then `Poll()` and its answer (30_encoding R113). -/
theorem exec_eraseBlock {x : Operands} {s : State} (h : s.Ready) :
    exec (.eraseBlock x) s = drive ((s.erasing x).setUq (.poll :: [.respond .polled])) := by
  have hq := h.quietAccept (descriptorOf 0x3#4 x)
  calc exec (.eraseBlock x) s
      = drive ((s.accept (descriptorOf 0x3#4 x)).setUq (wrenFrame s.cfg.writeEnCmd ++
          (eraseFrame s.cfg.eraseCmd (frameAddress s.cfg x.page) ++ (.poll :: [.respond .polled])))) := by
        rw [← List.append_assoc]
        exact exec_accepted h.idle (fun _ => h.initialised) trivial
    _ = drive (((s.accept (descriptorOf 0x3#4 x)).writeEnabled s.cfg.writeEnCmd).setUq _) := drive_wren hq h.deselected
    _ = _ := drive_erase (hq.writeEnabled _) (State.writeEnabled_cs (s := s.accept _) h.deselected _)

/-- Acceptance and the two frames as one state update (41 R170, R172). -/
theorem erasing_eq (s : State) (x : Operands) :
    s.erasing x =
      { s with
        phase := .run, cmd := ⟨3, x.page, x.offset, x.size, x.buf⟩, rspValid := false, cs := false, dmaReqTx := false,
        dmaReqRx := false, txBuf := byteAt (pageAddress s x.page) 0, txe := true,
        rxBuf := s.chipAhead (wrenDraws s.cfg.writeEnCmd + 3), rxne := false,
        trace := s.trace ++ (wrenEvents s s.cfg.writeEnCmd ++
          headEvents s s.cfg.eraseCmd (pageAddress s x.page) (wrenDraws s.cfg.writeEnCmd) ++ [.desel]),
        chipScript := s.chipScript.drop (wrenDraws s.cfg.writeEnCmd + 4),
        drawn := s.drawn + (wrenDraws s.cfg.writeEnCmd + 4) } := by
  simp only [State.erasing, State.deselected, State.addressed, writeEnabled_ahead, headEvents_page]
  by_cases hw : s.cfg.writeEnCmd = 0xFF#8
  · simp [State.writeEnabled, wrenEvents, wrenDraws, descriptorOf, hw]
  · simp [State.writeEnabled, State.oneByteFrame, wrenEvents, wrenDraws, descriptorOf, hw, Nat.add_assoc]

/-- The two frames read `cfg` and the parameters and leave them; the bus is deselected after them. -/
theorem erasing_rest (s : State) (x : Operands) :
    (s.erasing x).cfg = s.cfg ∧ (s.erasing x).params = s.params ∧ (s.erasing x).cs = false := by
  rw [erasing_eq]
  exact ⟨rfl, rfl, rfl⟩

/-- The answers drawn after the two frames (41 R170, R172). -/
theorem erasing_ahead (s : State) (x : Operands) (k : Nat) :
    (s.erasing x).chipAhead k = s.chipAhead (wrenDraws s.cfg.writeEnCmd + 4 + k) :=
  chipAhead_drop (by rw [erasing_eq]) (by rw [erasing_eq]) k

/-! ### The poller's reads as the statements count them (43 R230, 41 R177) -/

/-- Status reads from a state whose answers are those of `s` from the `k`-th on. -/
theorem statusEvents_eq {s u : State} {k : Nat} (hc : u.cfg = s.cfg) (hp : u.params = s.params)
    (ha : ∀ j, u.chipAhead j = s.chipAhead (k + j)) (n : Nat) :
    (List.range n).flatMap (fun i => statusEvents u (2 * i)) = pollEvents s k n := by
  simp only [pollEvents, statusEvents, statusFrameEvents, hc, hp, ha, Nat.add_assoc]

/-- Under legal busy fields a read decodes `Busy` or `Ready` by `pollBusy`. -/
theorem decode_pollBusy {s u : State} {k : Nat} (hl : s.cfg.busyFieldsOk = true) (hc : u.cfg = s.cfg)
    (ha : ∀ j, u.chipAhead j = s.chipAhead (k + j)) (i : Nat) :
    decodeStatus u.cfg (u.chipAhead (2 * i + 1)) = some (if pollBusy s k i then .busy else .ready) := by
  rw [hc, ha, decodeStatus_legal hl, pollBusy, Nat.add_assoc]

/-- A budget that some read is within is not 0, so the busy fields are legal (notes/assumptions/13). -/
theorem busyFieldsOk_of_lt_budget {s : State} {i : Nat} (h : s.params.pollBudget = 0 ∨ s.cfg.busyFieldsOk = true)
    (hi : i < s.params.pollBudget.toNat) : s.cfg.busyFieldsOk = true :=
  h.resolve_left fun h0 => by simp [h0] at hi

/-- What ERASE_BLOCK from a Ready block comes to with `n` status frames and the result `r` (43 R230). -/
theorem erasing_polled {s : State} (h : s.Ready) (x : Operands) (n : Nat) (c : Word) (r : FlashStatus) :
    ((s.erasing x).pollEnded n c r).answered r =
      afterPoll s ⟨3, x.page, x.offset, x.size, x.buf⟩
        (wrenEvents s s.cfg.writeEnCmd ++
          headEvents s s.cfg.eraseCmd (pageAddress s x.page) (wrenDraws s.cfg.writeEnCmd) ++ [.desel])
        (wrenDraws s.cfg.writeEnCmd + 4) n c r := by
  obtain ⟨hcfg, hparams, -⟩ := erasing_rest s x
  cases n with
  | zero =>
    rw [State.pollEnded, State.statusReads, erasing_eq]
    simp [State.answered, State.finish, afterPoll, h.rest, pollEvents]
  | succ n =>
    have hlast : wrenDraws s.cfg.writeEnCmd + (4 + (2 * n + 2)) - 1 = wrenDraws s.cfg.writeEnCmd + (4 + (2 * n + 1)) := rfl
    rw [State.pollEnded, State.statusReads, statusEvents_eq hcfg hparams (erasing_ahead s x), erasing_ahead, erasing_eq]
    simp [State.answered, State.finish, afterPoll, h.rest, hlast, Nat.mul_add, Nat.add_assoc]

end Sys2Proof.Machine

namespace Sys2Proof.Proofs

open Sys2Proof Sys2Proof.Machine Sys2Proof.Claims

/-- Settles O29: the two frames, then `Poll()` with the answers after theirs, then its result. -/
theorem eraseBlockErasesAndWaits : Obligations.EraseBlockErasesAndWaits := by
  intro x s h hlegal
  have hq := h.erasing x
  obtain ⟨hcfg, hparams, hcs⟩ := erasing_rest s x
  have ended : ∀ n c r, drive (((s.erasing x).pollEnded n c r).setUq [.respond .polled]) = .next (afterPoll s _ _ _ n c r) :=
    fun n c r => (drive_reply (hq.pollEnded n c r)).trans (congrArg Host.Outcome.next (erasing_polled h x n c r))
  have busy : ∀ i < s.params.pollBudget.toNat, pollBusy s (wrenDraws s.cfg.writeEnCmd + 4) i = true →
      decodeStatus (s.erasing x).cfg ((s.erasing x).chipAhead (2 * i + 1)) = some .busy := fun i hi hb => by
    rw [decode_pollBusy (busyFieldsOk_of_lt_budget hlegal hi) hcfg (erasing_ahead s x), hb, if_pos rfl]
  rw [exec_eraseBlock h]
  refine ⟨fun k hk hb hr => ?_, fun hb => ?_⟩
  · have ready : decodeStatus (s.erasing x).cfg ((s.erasing x).chipAhead (2 * k + 1)) = some .ready := by
      rw [decode_pollBusy (busyFieldsOk_of_lt_budget hlegal hk) hcfg (erasing_ahead s x), hr]
      rfl
    rw [drive_poll_ready hq hcs (hparams ▸ hk) (fun i hi => busy i (hi.trans hk) (hb i hi)) ready, hparams]
    exact ended ..
  · rw [drive_poll_timeout hq hcs (hparams ▸ fun i hi => busy i hi (hb i hi)), hparams]
    exact ended ..

/-- Settles O43: the first status byte cannot be decoded, whether for a response or for `Poll()` with a budget. -/
theorem illegalBusyFieldsRefused : Obligations.IllegalBusyFieldsRefused := by
  intro x s h hn
  have hd : ∀ st, decodeStatus s.cfg st = none := decodeStatus_illegal hn
  refine ⟨?_, fun h0 => ⟨?_, ?_⟩⟩
  · have hq := h.quietAccept (descriptorOf 0x7#4 x)
    calc exec (.readStatus x) s
        = drive ((s.accept (descriptorOf 0x7#4 x)).setUq (readStatusOps (s.accept (descriptorOf 0x7#4 x)))) :=
          exec_accepted h.idle (fun _ => h.initialised) trivial
      _ = drive (((s.accept (descriptorOf 0x7#4 x)).statusReads 1).setUq [.respond .decoded]) :=
          drive_statusFrame hq h.deselected
      _ = respond .decoded ((s.accept (descriptorOf 0x7#4 x)).statusReads 1) :=
          (drive_reply (hq.statusReads 1)).trans (respond_setUq ..)
      _ = .refused .busyFields := by simp only [respond, State.statusReads_cfg, State.accept_cfg, hd]
  · calc exec (.waitReady x) s
        = drive ((s.accept (descriptorOf 0x9#4 x)).setUq waitReadyOps) :=
          exec_accepted h.idle (fun _ => h.initialised) trivial
      _ = .refused .busyFields := drive_poll_refused (h.quietAccept _) h.deselected h0 hd
  · obtain ⟨hcfg, hparams, hcs⟩ := erasing_rest s x
    rw [exec_eraseBlock h]
    exact drive_poll_refused (h.erasing x) hcs (hparams ▸ h0) (hcfg ▸ hd)

end Sys2Proof.Proofs

/-! PROOFS. The family 42_byte_transport_dma: the steps of the byte transport and of the bulk engine, and that the order in which
enabled agents go never matters. -/

namespace Sys2Proof.Machine

/-! ### Steps with no choice of agent -/

/-- With one agent enabled a step is its step (60_exceptions R271). -/
theorem step_single {s : State} {a : Agent} (hp : s.phase = .run) (he : s.enabledAgents = [a]) : step s = agentStep a s := by
  simp only [step, hp]
  exact atomicStep_single he

/-- A word less one is zero exactly where the word is one: `tc` is set with the last byte (42 R204, R205). -/
theorem Channel.advance_eq (c : Channel) :
    c.advance = { c with
      addr := if c.inc then c.addr + 1 else c.addr, cnt := c.cnt - 1, tc := if c.cnt = 1 then true else c.tc } := by
  simp only [Channel.advance, sub_eq_zero]

/-! ### The atomic steps of `Xchg(b)` (42 R200) -/

section Exchange
variable {s : State} {b : Byte} {dst : Keep} {q : List MicroOp}

/-- Step 1 of `Xchg(b)`, for `TX8` and `RX8` alike: the requests off. -/
theorem step_xchg (hp : s.phase = .run) (hb : s.busQuiet = true)
    (hq : s.uq = .tx8 b :: q ∧ dst = .discard ∨ s.uq = .rx8 b dst :: q) :
    step s = .next (s.clearDmaRequests.setUq (.xchgDrive b dst :: q)) := by
  obtain ⟨hq, rfl⟩ | hq := hq
  · rw [step_seq hp (enabledAgents_of_quiet hb (by simp [State.seqReady, hp, hq]))]
    simp only [seqStep, hq]
  · rw [step_seq hp (enabledAgents_of_quiet hb (by simp [State.seqReady, hp, hq]))]
    simp only [seqStep, hq]

/-- Step 2: the byte written. -/
theorem step_xchgDrive (hp : s.phase = .run) (hb : s.busQuiet = true) (hq : s.uq = .xchgDrive b dst :: q) :
    step s = .next ((s.driveByte b).setUq (.xchgTake dst :: q)) := by
  obtain ⟨he, -⟩ := busQuiet_iff.1 hb
  rw [step_seq hp (enabledAgents_of_quiet hb (by simp [State.seqReady, hp, hq, he]))]
  simp only [seqStep, hq]

/-- Between steps 2 and 3 `Seq` is held and `Shifter` alone may step (42 R203). -/
theorem step_shift (hp : s.phase = .run) (hpow : s.spiEn = true) (he : s.txe = false) (hd : s.rxne = false)
    (hq : s.uq = .xchgTake dst :: q) : step s = .next s.shift :=
  step_single hp (enabledAgents_shifter (by simp [State.seqReady, hq, hd]) (by simp [State.shifterReady, hpow, he, hd])
    (by simp [State.dmaTxReady, he]) (by simp [State.dmaRxReady, hd]))

/-- Step 3: the byte received read. -/
theorem step_xchgTake (hp : s.phase = .run) (he : s.txe = true) (hd : s.rxne = true) (ht : s.chTx.en = false)
    (hx : s.chRx.en = false) (hq : s.uq = .xchgTake dst :: q) : step s = .next ((s.takeByte dst).setUq q) := by
  rw [step_seq hp (enabledAgents_seq (by simp [State.seqReady, hp, hq, hd]) (by simp [State.shifterReady, he])
    (by simp [State.dmaTxReady, ht]) (by simp [State.dmaRxReady, hx]))]
  simp only [seqStep, hq]

end Exchange

end Sys2Proof.Machine

namespace Sys2Proof.Proofs

open Sys2Proof Sys2Proof.Machine Sys2Proof.Claims

/-- Settles O17: the three steps of `Seq` with that of `Shifter` before the last, each the one step that may be taken. -/
theorem byteTransportStepByStep : Obligations.ByteTransportStepByStep := by
  refine ⟨fun s b dst q hp hpow he hd ht hx hq => ?_, fun s m => ⟨rfl, rfl, rfl, rfl, rfl, rfl, rfl, rfl⟩,
    fun s b dst q hq => ?_, fun s dst q hq => ?_⟩
  · have hb : s.busQuiet = true := busQuiet_iff.2 ⟨he, hd, ht, hx⟩
    simp only [List.drop_one]
    exact ⟨_, _, _, _, step_xchg hp hb hq, rfl, step_xchgDrive hp hb rfl, rfl, step_shift hp hpow rfl hd rfl, rfl,
      step_xchgTake hp rfl rfl ht hx rfl, rfl⟩
  · simp [State.enabled, State.seqReady, hq]
  · simp [State.enabled, State.seqReady, hq]

/-- Settles O18: the step of the one agent enabled, field by field. -/
theorem peripheralAgentsStep : Obligations.PeripheralAgentsStep := by
  intro s hp
  refine ⟨fun he => ?_, fun he => ?_, fun he => ?_⟩ <;> rw [step_single hp he] <;> simp only [agentStep]
  · rw [State.shift, List.drop_one]
  · rw [State.dmaTxMove, Channel.advance_eq]
    rfl
  · rw [State.dmaRxMove, Channel.advance_eq]
    split <;> rfl

/-- Settles O19: arming and disarming are steps of `Seq`. -/
theorem bulkTransferIsArmedAndDisarmed : Obligations.BulkTransferIsArmedAndDisarmed := by
  intro s buf n q hp he
  rw [step_seq hp he]
  refine ⟨fun hq => ?_, fun hq => ?_, fun hq => ?_⟩ <;> simp only [seqStep, hq] <;> rfl

end Sys2Proof.Proofs

namespace Sys2Proof.Machine

/-! ### No step reads `schedule` but to pick an agent -/

/-- The order of the coming choices replaced (notes/assumptions/4). -/
def State.setSchedule (s : State) (ks : List Nat) : State := { s with schedule := ks }

/-- An outcome with what is left of the schedule replaced. -/
def reschedule (ks : List Nat) : Host.Outcome State Fault Refusal → Host.Outcome State Fault Refusal
  | .next t => .next (t.setSchedule ks)
  | .fault f => .fault f
  | .refused r => .refused r

/-- Outcomes that agree but for the schedule: one gives a next state exactly where the other does. -/
theorem eq_next_of_reschedule {o : Host.Outcome State Fault Refusal} {t : State} {ks : List Nat}
    (h : reschedule ks o = reschedule ks (.next t)) : ∃ ks', o = .next (t.setSchedule ks') := by
  cases o with
  | next u =>
    have hu : u.setSchedule ks = t.setSchedule ks := Host.Outcome.next.inj h
    have hback : (u.setSchedule ks).setSchedule u.schedule = (t.setSchedule ks).setSchedule u.schedule := by rw [hu]
    exact ⟨u.schedule, congrArg Host.Outcome.next hback⟩
  | fault | refused => cases h

section Schedule
variable (s : State) (ks : List Nat)

@[simp] theorem State.setSchedule_uq : (s.setSchedule ks).uq = s.uq := rfl
@[simp] theorem State.setSchedule_cfg : (s.setSchedule ks).cfg = s.cfg := rfl
@[simp] theorem State.setSchedule_statusLatch : (s.setSchedule ks).statusLatch = s.statusLatch := rfl
@[simp] theorem State.setSchedule_enabledAgents : (s.setSchedule ks).enabledAgents = s.enabledAgents := rfl

theorem State.setSchedule_takeByte (dst : Keep) : (s.setSchedule ks).takeByte dst = (s.takeByte dst).setSchedule ks := by
  cases dst with
  | id i => cases i <;> rfl
  | _ => rfl

theorem respond_setSchedule (r : Reply) : respond r (s.setSchedule ks) = reschedule ks (respond r s) := by
  cases r with
  | decoded =>
    simp only [respond, State.setSchedule_cfg, State.setSchedule_statusLatch]
    split <;> rfl
  | _ => rfl

theorem seqStep_setSchedule : seqStep (s.setSchedule ks) = reschedule ks (seqStep s) := by
  cases hq : s.uq with
  | nil =>
    simp only [seqStep, State.setSchedule_uq, hq]
    rfl
  | cons m q =>
    cases m with
    | xchgTake dst =>
      simp only [seqStep, State.setSchedule_uq, hq, State.setSchedule_takeByte]
      rfl
    | respond r =>
      simp only [seqStep, State.setSchedule_uq, hq]
      exact respond_setSchedule s ks r
    | sel | desel | pollTest =>
      simp only [seqStep, State.setSchedule_uq, hq]
      rw [apply_ite (reschedule ks)]
      rfl
    | pollDecide =>
      simp only [seqStep, State.setSchedule_uq, hq, State.setSchedule_cfg, State.setSchedule_statusLatch]
      split <;> rfl
    | _ =>
      simp only [seqStep, State.setSchedule_uq, hq]
      rfl

/-- What an agent does does not depend on the schedule. -/
theorem agentStep_setSchedule (a : Agent) : agentStep a (s.setSchedule ks) = reschedule ks (agentStep a s) := by
  cases a with
  | seq => exact seqStep_setSchedule s ks
  | shifter | dmaTx => rfl
  | dmaRx => exact congrArg Host.Outcome.next (dmaRxMove_setSchedule s ks)

/-- Nor does the start of an instruction. -/
theorem beginState_setSchedule (i : Instr) : beginState i (s.setSchedule ks) = (beginState i s).setSchedule ks := by
  cases i with
  | init x =>
    simp only [beginState]
    split <;> rfl
  | _ => rfl

theorem exec_setSchedule {i : Instr} (hp : s.phase = .idle) (hi : needsInit i = true → s.initDone = true)
    (hf : operandsFit i s) :
    exec i (s.setSchedule ks) = drive (((beginState i s).setUq (opsOf i (beginState i s))).setSchedule ks) := by
  have hfit : operandsFit i (s.setSchedule ks) := by cases i <;> exact hf
  have hops : opsOf i ((beginState i s).setSchedule ks) = opsOf i (beginState i s) := by cases i <;> rfl
  rw [exec_accepted (s := s.setSchedule ks) hp hi hfit, beginState_setSchedule, hops]
  rfl

end Schedule

/-! ### Which agents are enabled together -/

/-- Wherever `Seq` may step no other agent may (60_exceptions R271). -/
theorem State.Inv.seq_alone {s : State} (h : s.Inv) (hr : s.seqReady = true) : s.enabledAgents = [.seq] := by
  obtain ⟨hidle, -⟩ | ⟨hp, -, hf⟩ := h.controlled
  · simp [State.seqReady, hidle] at hr
  cases hf with
  | whole hw => exact enabledAgents_of_quiet hw.quiet hr
  | driving _ _ _ hb _ _ => exact enabledAgents_of_quiet hb hr
  | taking hq _ _ ht hx _ _ hflags =>
    have hd : s.rxne = true := by simpa [State.seqReady, hp, hq] using hr
    have he : s.txe = true := by simpa [hd] using hflags.imp_right And.left
    exact enabledAgents_seq hr (by simp [State.shifterReady, he]) (by simp [State.dmaTxReady, ht])
      (by simp [State.dmaRxReady, hx])
  | bulk hq _ _ hb _ =>
    obtain ⟨he, hd, ht, -⟩ := bulkOk_complete hb (by simpa [State.seqReady, hp, hq] using hr)
    exact enabledAgents_seq hr (by simp [State.shifterReady, he]) (by simp [State.dmaTxReady, ht])
      (by simp [State.dmaRxReady, hd])

/-- There is a choice only between the two channels: `Shifter` waits for `txe = 0` and `rxne = 0`, they for 1. -/
theorem State.Inv.enabledAgents_cases {s : State} (h : s.Inv) :
    s.enabledAgents = [] ∨ (∃ a, s.enabledAgents = [a]) ∨ s.enabledAgents = [.dmaTx, .dmaRx] := by
  cases hr : s.seqReady with
  | true => exact .inr (.inl ⟨_, h.seq_alone hr⟩)
  | false =>
    cases hs : s.shifterReady with
    | true =>
      have hflags := hs
      simp only [State.shifterReady, Bool.and_eq_true, Bool.not_eq_true'] at hflags
      obtain ⟨⟨-, he⟩, hd⟩ := hflags
      exact .inr (.inl ⟨_, enabledAgents_shifter hr hs (by simp [State.dmaTxReady, he]) (by simp [State.dmaRxReady, hd])⟩)
    | false =>
      cases ht : s.dmaTxReady <;> cases hx : s.dmaRxReady <;>
        simp [State.enabledAgents, State.enabled, hr, hs, ht, hx]

theorem dma_ready_of_both {s : State} (he : s.enabledAgents = [.dmaTx, .dmaRx]) :
    s.dmaTxReady = true ∧ s.dmaRxReady = true :=
  ⟨mem_enabledAgents (a := .dmaTx).1 (by simp [he]), mem_enabledAgents (a := .dmaRx).1 (by simp [he])⟩

/-- An enabled agent is the only one where the channels are not both ready. -/
theorem State.Inv.enabledAgents_of_enabled {s : State} {a : Agent} (h : s.Inv) (ha : s.enabled a = true)
    (hn : s.dmaTxReady = false ∨ s.dmaRxReady = false) : s.enabledAgents = [a] := by
  have hmem := mem_enabledAgents.2 ha
  obtain he | ⟨b, he⟩ | he := h.enabledAgents_cases
  · simp [he] at hmem
  · rw [he, List.mem_singleton] at hmem
    rw [he, hmem]
  · obtain ⟨ht, hx⟩ := dma_ready_of_both he
    simp [ht, hx] at hn

/-! ### Only one channel faces the caller's buffer -/

/-- A state with the invariant in which, while the channels are on, one of them does not touch host memory (42 R207). -/
structure State.OneBuffer (s : State) : Prop where
  inv : s.Inv
  apart : s.chRx.en = true → s.chRx.inc = !s.chTx.inc

theorem State.OneBuffer.setSchedule {s : State} (h : s.OneBuffer) (ks : List Nat) : (s.setSchedule ks).OneBuffer :=
  ⟨{ h.inv with }, h.apart⟩

/-- `Seq` leaves the channels, turns them off, or arms them for one direction (42 R207, R210). -/
theorem seqStep_channels {s t : State} (h : seqStep s = .next t) :
    (t.chTx = s.chTx ∧ t.chRx = s.chRx) ∨ t.chRx.en = false ∨ t.chRx.inc = !t.chTx.inc := by
  unfold seqStep at h
  split at h
  case h_1 => cases h
  case h_2 | h_3 | h_12 | h_13 => split at h <;> cases h <;> exact .inl ⟨rfl, rfl⟩
  case h_4 | h_5 | h_6 | h_11 | h_15 => cases h; exact .inl ⟨rfl, rfl⟩
  case h_7 => cases h; exact .inl (by simp)
  case h_8 | h_9 => cases h; exact .inr (.inr rfl)
  case h_10 => cases h; exact .inr (.inl rfl)
  case h_14 =>
    obtain ⟨st, b, rfl⟩ := respond_next h
    exact .inl ⟨rfl, rfl⟩

theorem agentStep_apart {a : Agent} {s t : State} (hs : s.chRx.en = true → s.chRx.inc = !s.chTx.inc)
    (h : agentStep a s = .next t) : t.chRx.en = true → t.chRx.inc = !t.chTx.inc := by
  cases a with
  | seq =>
    obtain ⟨ht, hx⟩ | hoff | harm := seqStep_channels h
    · rw [ht, hx]
      exact hs
    · rw [hoff]
      nofun
    · exact fun _ => harm
  | shifter | dmaTx => cases h; exact hs
  | dmaRx => cases h; simpa using hs

theorem State.OneBuffer.next {s t : State} (h : s.OneBuffer) (hp : s.phase = .run) (hstep : atomicStep s = .next t) :
    t.OneBuffer := by
  refine ⟨atomicStep_inv hp h.inv hstep, ?_⟩
  obtain ⟨-, h'⟩ | ⟨a, ks, -, h'⟩ := atomicStep_cases s
  · rw [h'] at hstep
    cases hstep
  · exact agentStep_apart (s := { s with schedule := ks }) h.apart (h'.symm.trans hstep)

/-! ### The schedule never matters (42 R212, 60_exceptions R271) -/

/-- With one agent enabled the schedule is not read. -/
theorem atomicStep_setSchedule {s : State} {a : Agent} (he : s.enabledAgents = [a]) (ks : List Nat) :
    atomicStep (s.setSchedule ks) = reschedule ks (agentStep a s) :=
  (atomicStep_single (s := s.setSchedule ks) he).trans (agentStep_setSchedule s ks a)

theorem drive_single {s t : State} {a : Agent} (he : s.enabledAgents = [a]) (ha : agentStep a s = .next t)
    (hp : s.phase = .run) (ks : List Nat) : drive (s.setSchedule ks) = drive (t.setSchedule ks) :=
  drive_next (s := s.setSchedule ks) hp ((atomicStep_setSchedule he ks).trans (congrArg (reschedule ks) ha))

section BothChannels
variable {s : State} (h : s.OneBuffer) (hp : s.phase = .run) (he : s.enabledAgents = [.dmaTx, .dmaRx])
include he

/-- The first choice of the schedule says which channel goes. -/
theorem atomicStep_both :
    atomicStep (s.setSchedule [0]) = .next (s.dmaTxMove.setSchedule []) ∧
      atomicStep (s.setSchedule [1]) = .next (s.dmaRxMove.setSchedule []) := by
  simp only [atomicStep, State.setSchedule_enabledAgents, he]
  exact ⟨rfl, agentStep_setSchedule s [] .dmaRx⟩

include h hp

/-- Once `DmaTx` has gone, `txe = 0` leaves `DmaRx` alone. -/
theorem State.OneBuffer.after_dmaTx : s.dmaTxMove.OneBuffer ∧ s.dmaTxMove.enabledAgents = [.dmaRx] := by
  obtain ⟨-, hx⟩ := dma_ready_of_both he
  have hafter : s.dmaTxMove.OneBuffer :=
    ((h.setSchedule [0]).next hp (atomicStep_both he).1).setSchedule s.dmaTxMove.schedule
  exact ⟨hafter, hafter.inv.enabledAgents_of_enabled hx (.inl (by simp [State.dmaTxReady]))⟩

/-- Once `DmaRx` has gone, `rxne = 0` leaves `DmaTx` alone. -/
theorem State.OneBuffer.after_dmaRx : s.dmaRxMove.enabledAgents = [.dmaTx] := by
  obtain ⟨ht, -⟩ := dma_ready_of_both he
  have hafter : s.dmaRxMove.OneBuffer :=
    ((h.setSchedule [1]).next hp (atomicStep_both he).2).setSchedule s.dmaRxMove.schedule
  have hready : s.dmaRxMove.dmaTxReady = true := by simpa [State.dmaTxReady] using ht
  exact hafter.inv.enabledAgents_of_enabled hready (.inr (by simp [State.dmaRxReady]))

/-- Whichever channel goes first, the other goes next, and both orders meet. -/
theorem State.OneBuffer.dma_orders_meet :
    s.dmaTxMove.dmaRxMove.OneBuffer ∧ s.dmaTxMove.dmaRxMove.work < s.work ∧
      ∀ ks, ∃ ks', drive (s.setSchedule ks) = drive (s.dmaTxMove.dmaRxMove.setSchedule ks') := by
  obtain ⟨ht, hx⟩ := dma_ready_of_both he
  obtain ⟨hafter, onlyRx⟩ := h.after_dmaTx hp he
  have hstep : atomicStep s.dmaTxMove = .next s.dmaTxMove.dmaRxMove := atomicStep_single onlyRx
  refine ⟨hafter.next hp hstep, (atomicStep_work_lt hstep).trans (dmaTxMove_work_lt ht), fun ks => ?_⟩
  obtain ⟨hnone, -⟩ | ⟨a, ks', ha, hgo⟩ := atomicStep_cases (s.setSchedule ks)
  · exact nomatch he.symm.trans hnone
  have hfirst := hgo.trans (agentStep_setSchedule s ks' a)
  have hmem : a ∈ [Agent.dmaTx, .dmaRx] := he ▸ mem_enabledAgents.2 ha
  simp only [List.mem_cons, List.not_mem_nil, or_false] at hmem
  obtain rfl | rfl := hmem
  · exact ⟨ks', (drive_next (s := s.setSchedule ks) hp hfirst).trans (drive_single onlyRx rfl hp ks')⟩
  · have hrun : s.dmaRxMove.phase = .run := (State.dmaRxMove_phase s).trans hp
    have hon : s.chRx.en = true := by
      simp only [State.dmaRxReady, Bool.and_eq_true, and_assoc] at hx
      exact hx.1
    rw [dma_commute (h.apart hon)]
    exact ⟨ks', (drive_next (s := s.setSchedule ks) hp hfirst).trans (drive_single (h.after_dmaRx hp he) rfl hrun ks')⟩

end BothChannels

/-- Whatever the schedule, a state in flight stops at once, or goes on through one and the same later state. -/
theorem State.OneBuffer.schedules_meet {s : State} (h : s.OneBuffer) (hp : s.phase = .run) :
    (∀ ks, drive (s.setSchedule ks) = drive s) ∨
    ∃ t : State, t.OneBuffer ∧ t.work < s.work ∧ ∀ ks, ∃ ks', drive (s.setSchedule ks) = drive (t.setSchedule ks') := by
  obtain he | ⟨a, he⟩ | he := h.inv.enabledAgents_cases
  · refine .inl fun ks => ?_
    simp [drive_run (s := s.setSchedule ks) hp, drive_run hp, atomicStep, he, pickAgent]
  · cases ha : agentStep a s with
    | next t =>
      have hstep : atomicStep s = .next t := (atomicStep_single he).trans ha
      exact .inr ⟨t, h.next hp hstep, atomicStep_work_lt hstep, fun ks => ⟨ks, drive_single he ha hp ks⟩⟩
    | fault | refused =>
      refine .inl fun ks => ?_
      rw [drive_run (s := s.setSchedule ks) hp, drive_run hp, atomicStep_setSchedule he, atomicStep_single he, ha]
      rfl
  · exact .inr ⟨_, h.dma_orders_meet hp he⟩

/-- Inside a receive of two bytes, one exchanged and one to hand out. -/
def twoByteReceive : State :=
  { State.reset with
    phase := .run, uq := [.bulkWait, .desel, .respond .void], initDone := true, cs := true, spiEn := true, rxne := true,
    dmaReqTx := true, dmaReqRx := true, chTx := ⟨true, 0x40, false, 1, false⟩, chRx := ⟨true, 0x40, true, 2, false⟩,
    trace := [.sel, .xfer 0x0B 0] }

/-- The choice between the channels does arise. -/
theorem twoByteReceive_both_channels :
    twoByteReceive.OneBuffer ∧ twoByteReceive.phase = .run ∧ twoByteReceive.enabledAgents = [.dmaTx, .dmaRx] :=
  ⟨⟨{ memory := rfl, filler := rfl, xferMax := Nat.le_add_left 1 _, power := rfl, channels := rfl,
      control := ⟨.talking, rfl, rfl, rfl⟩ }, fun _ => rfl⟩, rfl, rfl⟩

/-- A run comes to the same under every schedule. -/
theorem drive_setSchedule {s : State} (h : s.OneBuffer) (ks : List Nat) :
    reschedule [] (drive (s.setSchedule ks)) = reschedule [] (drive s) := by
  generalize hw : s.work = w
  induction w using Nat.strong_induction_on generalizing s ks with
  | _ w ih =>
    cases hp : s.phase with
    | idle =>
      rw [drive_idle hp, drive_idle (s := s.setSchedule ks) hp]
      rfl
    | run =>
      obtain hstop | ⟨t, ht, hlt, hgo⟩ := h.schedules_meet hp
      · rw [hstop]
      · have meet : ∀ ks, reschedule [] (drive (s.setSchedule ks)) = reschedule [] (drive t) := fun ks => by
          obtain ⟨ks', hks⟩ := hgo ks
          rw [hks]
          exact ih t.work (hw ▸ hlt) ht ks' rfl
        exact (meet ks).trans (meet s.schedule).symm

end Sys2Proof.Machine

namespace Sys2Proof.Proofs

open Sys2Proof Sys2Proof.Machine Sys2Proof.Claims

/-- Settles O52: an instruction starts with the channels off, and from there a run comes to the same under every schedule. -/
theorem scheduleNeverMatters : Obligations.ScheduleNeverMatters := by
  intro i s t ks h he
  obtain ⟨hp, hi, hf, hd⟩ := exec_next he
  have hoff : (beginState i s).chRx.en = false := by
    obtain ⟨-, -, -, -, hx⟩ := beginState_moves_no_byte i s
    rw [hx, h.rxOff hp]
  have hstart : ((beginState i s).setUq (opsOf i (beginState i s))).OneBuffer :=
    ⟨beginState_inv h hp hi hf, fun hon => nomatch hoff.symm.trans hon⟩
  have hsame := drive_setSchedule hstart ks
  rw [← exec_setSchedule s ks hp hi hf, hd] at hsame
  exact eq_next_of_reschedule hsame

end Sys2Proof.Proofs

/-! PROOFS. The family 43_status_poller: what every step does to the poll counter, and WAIT_READY. -/

namespace Sys2Proof.Machine

open Sys2Proof.Claims

/-! ### The poll counter (43 R234) -/

/-- The counter is lowered by one, or stays at zero. -/
theorem pollDecrement_cases (c : Word) : pollDecrement c = c ∨ (pollDecrement c).toNat + 1 = c.toNat := by
  by_cases h : c = 0
  · exact .inl ((if_pos h).trans h.symm)
  · refine .inr ?_
    rw [pollDecrement, if_neg h]
    exact pred_toNat h

/-- Of the steps of `Seq`, the start of `Poll()` loads the counter and a read that is not `Ready` lowers it; no other writes it
(43 R230). -/
theorem seqStep_pollCnt {s t : State} (h : seqStep s = .next t) :
    t.pollCnt = s.pollCnt ∨ t.pollCnt = s.params.pollBudget ∨ t.pollCnt = pollDecrement s.pollCnt := by
  unfold seqStep at h
  split at h
  case h_1 => cases h
  case h_2 | h_3 | h_12 => split at h <;> cases h <;> exact .inl rfl
  case h_4 | h_5 | h_6 | h_8 | h_9 | h_10 | h_15 => cases h; exact .inl rfl
  case h_7 => cases h; exact .inl (by simp)
  case h_11 => cases h; exact .inr (.inl rfl)
  case h_13 =>
    split at h <;> cases h
    · exact .inl rfl
    · exact .inr (.inr rfl)
  case h_14 =>
    obtain ⟨st, b, rfl⟩ := respond_next h
    exact .inl rfl

/-- The shifter and the channels leave the counter alone. -/
theorem agentStep_pollCnt {a : Agent} {s t : State} (h : agentStep a s = .next t) :
    t.pollCnt = s.pollCnt ∨ t.pollCnt = s.params.pollBudget ∨ t.pollCnt = pollDecrement s.pollCnt := by
  cases a with
  | seq => exact seqStep_pollCnt h
  | shifter | dmaTx => cases h; exact .inl rfl
  | dmaRx => cases h; exact .inl (by simp)

/-! ### WAIT_READY (43 R232) -/

/-- What WAIT_READY from a Ready block comes to with `n` status frames and the result `r` (43 R230, R232). -/
theorem waiting_polled {s : State} (h : s.Ready) (x : Operands) (n : Nat) (c : Word) (r : FlashStatus) :
    ((s.accept (descriptorOf 0x9#4 x)).pollEnded n c r).answered r =
      afterPoll s ⟨9, x.page, x.offset, x.size, x.buf⟩ [] 0 n c r := by
  cases n with
  | zero => simp [State.pollEnded, State.statusReads, State.answered, State.finish, afterPoll, descriptorOf, h.rest, pollEvents]
  | succ n =>
    have events : (List.range (n + 1)).flatMap (fun i => statusEvents (s.accept (descriptorOf 0x9#4 x)) (2 * i)) =
        pollEvents s 0 (n + 1) :=
      statusEvents_eq rfl rfl (fun j => congrArg s.chipAhead (Nat.zero_add j).symm) (n + 1)
    rw [State.pollEnded, State.statusReads, events]
    simp [State.answered, State.finish, afterPoll, descriptorOf, h.rest, Nat.mul_add]

end Sys2Proof.Machine

namespace Sys2Proof.Proofs

open Sys2Proof Sys2Proof.Machine Sys2Proof.Claims

/-- Settles O20: only a step of `Seq` writes the counter, to load it or to lower it, and the lowering stops at zero. -/
theorem pollCounterNeverWraps : Obligations.PollCounterNeverWraps := by
  intro s t h
  obtain ⟨-, hf⟩ | ⟨a, ks, -, ha⟩ := atomicStep_cases s
  · exact nomatch hf.symm.trans h
  obtain hkept | hloaded | hlowered := agentStep_pollCnt (ha.symm.trans h)
  · exact .inl hkept
  · exact .inr (.inl hloaded)
  · rw [hlowered]
    exact (pollDecrement_cases s.pollCnt).imp_right .inr

/-- Settles O30: `Poll()` from the accepted command, then its result as the response. -/
theorem waitReadyPollsWithinBudget : Obligations.WaitReadyPollsWithinBudget := by
  intro x s h hlegal
  have hq := h.quietAccept (descriptorOf 0x9#4 x)
  have decoded : ∀ i < s.params.pollBudget.toNat,
      decodeStatus s.cfg (s.chipAhead (2 * i + 1)) = some (if pollBusy s 0 i then .busy else .ready) := fun i hi =>
    decode_pollBusy (busyFieldsOk_of_lt_budget hlegal hi) rfl (fun j => congrArg s.chipAhead (Nat.zero_add j).symm) i
  have busy : ∀ i < s.params.pollBudget.toNat, pollBusy s 0 i = true →
      decodeStatus s.cfg (s.chipAhead (2 * i + 1)) = some .busy := fun i hi hb => by rw [decoded i hi, hb, if_pos rfl]
  refine ⟨fun k hk hb hr => ?_, fun hb => ?_⟩
  · have ready : decodeStatus s.cfg (s.chipAhead (2 * k + 1)) = some .ready := by
      rw [decoded k hk, hr]
      rfl
    rw [exec_waitReady h (drive_poll_ready hq h.deselected hk (fun i hi => busy i (hi.trans hk) (hb i hi)) ready),
      waiting_polled h]
    rfl
  · rw [exec_waitReady h (drive_poll_timeout hq h.deselected fun i hi => busy i hi (hb i hi)), waiting_polled h]
    rfl

end Sys2Proof.Proofs

namespace Sys2Proof.Machine

/-! ### The boot image selector (44 R253) -/

theorem bootTarget_zero (base : Nat) : bootTarget base 0 = base + 0x4000 := if_pos rfl

theorem bootTarget_of_ne_zero (base : Nat) {b : Byte} (h : b ≠ 0) : bootTarget base b = base + 0x22000 :=
  if_neg h

end Sys2Proof.Machine

namespace Sys2Proof.Proofs

open Sys2Proof Sys2Proof.Machine Sys2Proof.Claims

/-- Settles O58: the byte 0 leads to the third region of the layout, every other byte to the fourth. -/
theorem bootSelectorPicksOneOfTwoImages : Obligations.BootSelectorPicksOneOfTwoImages := by
  intro base b
  refine ⟨fun h => h ▸ bootTarget_zero base, bootTarget_of_ne_zero base, ?_⟩
  by_cases h : b = 0
  · exact ⟨⟨0x04000, 0x1E000⟩, by simp [bootLayout], h ▸ bootTarget_zero base, rfl⟩
  · exact ⟨⟨0x22000, 0x1E000⟩, by simp [bootLayout], bootTarget_of_ne_zero base h, rfl⟩

end Sys2Proof.Proofs

/-! PROOFS. The family 60_exceptions (R271): who may step outside a bulk transfer, and a command run whole as its atomic steps. -/

namespace Sys2Proof.Machine

/-! ### Outside a bulk transfer one agent may step (60_exceptions R271) -/

/-- Between two micro-operations `Seq` is held by nothing: the head of a framed queue has no condition to wait for. -/
theorem State.Whole.seqReady {s : State} {p : BusPos} (h : s.Whole p) (hp : s.phase = .run) : s.seqReady = true := by
  obtain ⟨hdrive, htake, hwait⟩ := h.head
  have hf := h.framed
  cases hq : s.uq with
  | nil => rw [hq] at hf; cases p <;> cases hf
  | cons m q =>
    cases m with
    | xchgDrive b dst => exact absurd hq (hdrive b dst q)
    | xchgTake dst => exact absurd hq (htake dst q)
    | bulkWait => exact absurd hq (hwait q)
    | _ => simp [State.seqReady, hp, hq]

/-- Between steps 2 and 3 of `Xchg(b)` the turn is `Shifter`'s until it has shifted, then it is `Seq`'s (42 R200, R203). -/
theorem State.Inv.one_enabled_of_taking {s : State} {dst : Keep} {q : List MicroOp} (h : s.Inv) (hp : s.phase = .run)
    (hq : s.uq = .xchgTake dst :: q) (hpow : s.spiEn = true)
    (hflags : s.txe = false ∧ s.rxne = false ∨ s.txe = true ∧ s.rxne = true) : ∃ a, s.enabledAgents = [a] := by
  obtain ⟨he, hd⟩ | ⟨-, hd⟩ := hflags
  · exact ⟨.shifter, h.enabledAgents_of_enabled (by simp [State.enabled, State.shifterReady, hpow, he, hd])
      (.inl (by simp [State.dmaTxReady, he]))⟩
  · exact ⟨.seq, h.seq_alone (by simp [State.seqReady, hp, hq, hd])⟩

/-! ### A run to the response, step by step (60_exceptions R271, 70 R312) -/

/-- In phase RUN a step of the machine is an atomic step of some agent (60_exceptions R271). -/
theorem step_run {s : State} (h : s.phase = .run) : step s = atomicStep s := by
  simp only [step, h]

section Run
variable {M : Host.Core}

/-- A step, and then the rest of the steps. -/
theorem run_succ_of_next {s t : M.State} (h : M.step s = .next t) (k : Nat) : M.run (k + 1) s = M.run k t := by
  rw [Host.Core.run, h]

/-- Running one step is the step, also where it stops. -/
theorem run_one (s : M.State) : M.run 1 s = M.step s := by
  rw [Host.Core.run]
  cases M.step s <;> rfl

end Run

/-- `drive` answers what the machine answers after some number of steps: none where the block is idle, one more than from the next
state where an agent goes, and one where none does or its step is refused. -/
theorem exists_run_eq_drive (s : State) : ∃ k, Host.Core.run core k s = drive s := by
  induction hw : s.work using Nat.strong_induction_on generalizing s with
  | _ w ih =>
    cases hp : s.phase with
    | idle => exact ⟨0, (drive_idle hp).symm⟩
    | run =>
      have hstep : core.step s = atomicStep s := step_run hp
      cases ha : atomicStep s with
      | next t =>
        obtain ⟨k, hk⟩ := ih t.work (hw ▸ atomicStep_work_lt ha) t rfl
        exact ⟨k + 1, (run_succ_of_next (hstep.trans ha) k).trans (hk.trans (drive_next hp ha).symm)⟩
      | fault | refused =>
        refine ⟨1, (run_one (M := core) s).trans (hstep.trans ?_)⟩
        rw [drive_run hp, ha]

end Sys2Proof.Machine

namespace Sys2Proof.Proofs

open Sys2Proof Sys2Proof.Machine Sys2Proof.Claims

/-- Settles O12: a command in flight is between two micro-operations, before the byte of an exchange is driven, or waiting for its
answer; the fourth kind of state in flight is the bulk transfer. -/
theorem oneAgentAtATimeOutsideBulk : Obligations.OneAgentAtATimeOutsideBulk := by
  intro s h hp hnobulk
  obtain ⟨hidle, -⟩ | ⟨-, -, hflight⟩ := h.controlled
  · exact nomatch hp.symm.trans hidle
  cases hflight with
  | whole hw => exact ⟨.seq, h.seq_alone (hw.seqReady hp)⟩
  | driving hq _ _ hbus _ _ =>
    obtain ⟨hempty, -⟩ := busQuiet_iff.1 hbus
    exact ⟨.seq, h.seq_alone (by simp [State.seqReady, hp, hq, hempty])⟩
  | taking hq hpow _ _ _ _ _ hflags =>
    exact h.one_enabled_of_taking hp hq hpow (hflags.imp_right fun ⟨he, hd, _⟩ => ⟨he, hd⟩)
  | bulk hq => exact absurd hq (hnobulk _)

/-- Settles O14, by induction on the work left, which every atomic step lowers. -/
theorem driveIsTheAtomicStepsInTurn : Obligations.DriveIsTheAtomicStepsInTurn :=
  fun s _ => exists_run_eq_drive s

end Sys2Proof.Proofs

/-! PROOFS. The family 70_reset_and_hazards: from a state with the invariant no step holds for ever, and what an idle block shows. -/

namespace Sys2Proof.Machine

/-! ### Some agent may step wherever a command is in flight (70 R312) -/

/-- In a bulk transfer some agent may step, whichever channel faces the caller's buffer: no agent's condition reads `inc`. -/
theorem enabledAgents_ne_nil_of_bulkOk {s : State} {q : List MicroOp} (hp : s.phase = .run) (hpow : s.spiEn = true)
    (hq : s.uq = .bulkWait :: q) (hb : s.bulkOk = true) : s.enabledAgents ≠ [] :=
  bulk_progress (s := { s with chRx := { s.chRx with inc := !s.chTx.inc } }) (q := q) ⟨hp, hpow, hq, hb, rfl⟩

/-- A command in flight never waits for a condition no agent can bring about (60_exceptions R275, 70 R312). -/
theorem State.Inv.enabledAgents_ne_nil {s : State} (h : s.Inv) (hp : s.phase = .run) : s.enabledAgents ≠ [] := by
  have outside_bulk (hn : ∀ q, s.uq ≠ .bulkWait :: q) : s.enabledAgents ≠ [] := by
    obtain ⟨a, ha⟩ := Proofs.oneAgentAtATimeOutsideBulk s h hp hn
    simp [ha]
  obtain ⟨hidle, -⟩ | ⟨-, -, hflight⟩ := h.controlled
  · exact nomatch hp.symm.trans hidle
  cases hflight with
  | whole hw =>
    obtain ⟨-, -, hn⟩ := hw.head
    exact outside_bulk hn
  | driving hq | taking hq => exact outside_bulk fun q hq' => nomatch hq.symm.trans hq'
  | bulk hq hpow _ hb _ => exact enabledAgents_ne_nil_of_bulkOk hp hpow hq hb

/-! ### Only a step with no agent faults -/

/-- A response is delivered or refused (10_state R57, 41 R177). -/
theorem respond_ne_fault (r : Reply) (s : State) (f : Fault) : respond r s ≠ .fault f := by
  cases r with
  | decoded =>
    simp only [respond]
    split <;> nofun
  | _ => nofun

/-- `Seq` faults only where no micro-operation is left. -/
theorem uq_eq_nil_of_seqStep_fault {s : State} {f : Fault} (h : seqStep s = .fault f) : s.uq = [] := by
  unfold seqStep at h
  split at h
  case h_1 hq => exact hq
  case h_2 | h_3 | h_12 | h_13 => split at h <;> cases h
  case h_14 r _ _ => exact absurd h (respond_ne_fault r s f)
  all_goals cases h

/-- The step of an enabled agent does not fault (60_exceptions R271). -/
theorem agentStep_ne_fault {a : Agent} {s : State} (he : s.enabled a = true) (f : Fault) : agentStep a s ≠ .fault f := by
  cases a with
  | seq =>
    intro h
    have hr : s.seqReady = true := he
    simp [State.seqReady, uq_eq_nil_of_seqStep_fault h] at hr
  | shifter | dmaTx | dmaRx => nofun

/-- An atomic step from a state with the invariant does not fault. -/
theorem atomicStep_ne_fault {s : State} (h : s.Inv) (hp : s.phase = .run) (f : Fault) : atomicStep s ≠ .fault f := by
  obtain ⟨hnone, -⟩ | ⟨a, ks, he, hstep⟩ := atomicStep_cases s
  · exact absurd hnone (h.enabledAgents_ne_nil hp)
  · rw [hstep]
    exact agentStep_ne_fault (s := { s with schedule := ks }) he f

/-- A command run whole from a state with the invariant ends in its response or a refusal: every atomic step keeps the invariant and
lowers the work left. -/
theorem drive_ne_fault {s : State} (h : s.Inv) (f : Fault) : drive s ≠ .fault f := by
  induction hw : s.work using Nat.strong_induction_on generalizing s with
  | _ w ih =>
    cases hp : s.phase with
    | idle => rw [drive_idle hp]; nofun
    | run =>
      cases ha : atomicStep s with
      | next t =>
        rw [drive_next hp ha]
        exact ih t.work (hw ▸ atomicStep_work_lt ha) (atomicStep_inv hp h ha) rfl
      | fault g => exact absurd ha (atomicStep_ne_fault h hp g)
      | refused r => rw [drive_run hp, ha]; nofun

/-! ### A presented word is accepted or refused -/

/-- Operands without a meaning are refused by name (40 R143, R150). -/
theorem exec_refused_of_not_operandsFit {i : Instr} {s : State} (hp : s.phase = .idle)
    (hi : needsInit i = true → s.initDone = true) (hf : ¬ operandsFit i s) : ∃ r, exec i s = .refused r := by
  cases i with
  | init x =>
    obtain ⟨hsize, htop⟩ := Classical.not_imp.1 hf
    refine ⟨_, Proofs.recordPastTheTopIsRefused x s hp (configSizeOk_iff.1 hsize) (Nat.not_le.1 fun hle => htop ?_)⟩
    exact rangeFits_iff.2 hle
  | readPage x | writePageAsync x => exact ⟨_, onAccept_not_bulkFits hp (hi rfl) hf⟩
  | fRead o a d | fWrite o a => exact ⟨_, onFrame_not_bulkFits hp (hi rfl) hf⟩
  | _ => exact absurd trivial hf

/-- An instruction an idle block does not refuse is accepted, and runs from a state with the invariant. -/
theorem exec_ne_fault {s : State} (h : s.Inv) (hp : s.phase = .idle) (i : Instr) (f : Fault) : exec i s ≠ .fault f := by
  by_cases hi : needsInit i = true → s.initDone = true
  · by_cases hf : operandsFit i s
    · rw [exec_accepted hp hi hf]
      exact drive_ne_fault (beginState_inv h hp hi hf) f
    · obtain ⟨r, hr⟩ := exec_refused_of_not_operandsFit hp hi hf
      rw [hr]
      nofun
  · obtain ⟨hneeds, hnot⟩ := Classical.not_imp.1 hi
    rw [exec_uninitialised hp (Bool.eq_false_iff.2 hnot) hneeds]
    nofun

/-- A move of Host from a state with the invariant does not fault (60_exceptions R271, R274). -/
theorem hostStep_ne_fault {s : State} (h : s.Inv) (hp : s.phase = .idle) (f : Fault) : hostStep s ≠ .fault f := by
  unfold hostStep
  split
  case h_1 | h_3 => nofun
  case h_2 w rest _ =>
    unfold runWord
    split
    · exact exec_ne_fault (s := { s with inbox := rest }) { h with } hp _ f
    · nofun

/-! ### The last event of a trace that ends between frames (41 R163) -/

/-- Only `Desel` closes a frame. -/
theorem eq_desel_of_after_between {p : BusPos} {e : BusEvent} (h : p.after e = some .between) : e = .desel := by
  cases e with
  | desel => rfl
  | sel | xfer => cases p <;> cases h

/-- Events that leave the bus between frames are none, or end with `Desel`. -/
theorem getLast?_eq_desel_of_busScan_between {p : BusPos} {es : List BusEvent} (h : busScan p es = some .between) :
    es = [] ∨ es.getLast? = some .desel := by
  induction es generalizing p with
  | nil => exact .inl rfl
  | cons e es ih =>
    right
    simp only [busScan] at h
    split at h
    case h_1 p' he =>
      obtain rfl | hlast := ih h
      · cases h
        rw [eq_desel_of_after_between he, List.getLast?_singleton]
      · rw [List.getLast?_cons, hlast, Option.getD_some]
    case h_2 => cases h

end Sys2Proof.Machine

namespace Sys2Proof.Proofs

open Sys2Proof Sys2Proof.Machine Sys2Proof.Claims

/-- Settles O10: in flight some agent is enabled, and an enabled agent's step does not fault; an idle block refuses the word presented or
runs it from a state with the invariant. -/
theorem invariantStatesNeverHold : Obligations.InvariantStatesNeverHold := by
  intro s h f
  cases hp : s.phase with
  | idle => rw [step_idle hp]; exact hostStep_ne_fault h hp f
  | run => rw [step_run hp]; exact atomicStep_ne_fault h hp f

/-- Settles O11: the bus stands between frames, where only `Desel` can have brought it. -/
theorem idleStatesAreDeselectedAndQuiet : Obligations.IdleStatesAreDeselectedAndQuiet := by
  intro s h hp
  obtain ⟨-, hstands, hqueue, hquiet, hclear⟩ | ⟨hrun, -⟩ := h.controlled
  · obtain ⟨hempty, hdrained, htx, hrx⟩ := busQuiet_iff.1 hquiet
    obtain ⟨htxTc, hrxTc⟩ := flagsClear_iff.1 hclear
    exact ⟨hqueue, hstands.cs, hempty, hdrained, htx, hrx, htxTc, hrxTc, getLast?_eq_desel_of_busScan_between hstands.scan⟩
  · exact nomatch hp.symm.trans hrun

end Sys2Proof.Proofs
